-- ==== Sys2Proof/Word.lean ====
section
/-! DEFINITION. The word types of PTBP: every register and plane word is 32 bits (R7, R11), a byte lane is 8 bits (R67),
and a frame buffer is named by an index 0 or 1 (R24). -/

namespace Sys2Proof

/-- A 32-bit word: a plane word, a register, a bus address or bus data (R7, R11). -/
abbrev Word := BitVec 32

/-- One byte lane of a word (R67). -/
abbrev Byte := BitVec 8

/-- The index of a frame buffer, 0 or 1 (R7, R24). -/
abbrev Buffer := Fin 2

end Sys2Proof
end

