-- ==== Sys2Proof/Syntax.lean ====
section
/-! DEFINITION. The command set of PTBP, whole: one constructor per row of spec/opcode_table.json (R94). -/

namespace Sys2Proof

/-- A command, as it is written to CMD (R90). Fields are unsigned indexes (R92); whether they fit their bits is
WellFormed.lean's check, whether they are in range for the configuration is execution's (R112). -/
inductive Instr where
  /-- NOP, format Z (R110). -/
  | nop
  /-- ENCODE, format E: PT's encodePixel of a pixel address; the colour is in DATA (R93, R112). -/
  | encodePixel (board strip pixel : Nat)
  /-- SHOW, format Z: PT's showPixels request (R130). -/
  | showPixels
  deriving DecidableEq, Repr

end Sys2Proof
end

