-- ==== Sys2Proof/WellFormed.lean ====
section
/-! DEFINITION. When a command has a word: every operand fits its field (R92). A value that does not fit is an assembly
error, not a word (R99). -/

namespace Sys2Proof

/-- BOARD is 4 bits (R92). -/
def Instr.boardFits (board : Nat) : Bool := board < 2 ^ 4

/-- STRIP is 5 bits (R92). -/
def Instr.stripFits (strip : Nat) : Bool := strip < 2 ^ 5

/-- PIXEL is 16 bits (R92). -/
def Instr.pixelFits (pixel : Nat) : Bool := pixel < 2 ^ 16

/-- The command can be written as a word (R92, R99). -/
def Instr.wf : Instr → Bool
  | .nop => true
  | .encodePixel board strip pixel => Instr.boardFits board && Instr.stripFits strip && Instr.pixelFits pixel
  | .showPixels => true

end Sys2Proof
end

