-- ==== Sys2Proof/Decode.lean ====
section
/-! DEFINITION. The decoder of command words (R94, R95), which names why a word is reserved (R96), and the encoder written
from the same formats (R91, R99). -/

namespace Sys2Proof

/-- A row of the opcode map (R94): the words w with w AND mask = pattern. -/
structure OpcodeRow where
  mnemonic : String
  pattern : Word
  mask : Word
  deriving DecidableEq, Repr

/-- The opcode map of R94. -/
def opcodeMap : List OpcodeRow :=
  [ { mnemonic := "NOP", pattern := 0x00000000#32, mask := 0xFFFFFFFF#32 },
    { mnemonic := "ENCODE", pattern := 0x10000000#32, mask := 0xF0E00000#32 },
    { mnemonic := "SHOW", pattern := 0x20000000#32, mask := 0xFFFFFFFF#32 } ]

/-- The word matches the row (R94). -/
def OpcodeRow.accepts (r : OpcodeRow) (w : Word) : Bool := w &&& r.mask == r.pattern

/-- Why a word is reserved (R96). -/
inductive Reserved where
  /-- OP is 0x3 to 0xF. -/
  | opcode
  /-- OP is 0x0 or 0x2 and some bit of [27:0] is set. -/
  | operandBits
  /-- OP is 0x1 and some bit of RSV [23:21] is set. -/
  | rsvBits
  deriving DecidableEq, Repr

/-- OP = w[31:28] (R91). -/
def opField (w : Word) : BitVec 4 := w.extractLsb' 28 4

/-- BOARD = w[27:24] (R92). -/
def boardField (w : Word) : Nat := (w.extractLsb' 24 4).toNat

/-- STRIP = w[20:16] (R92). -/
def stripField (w : Word) : Nat := (w.extractLsb' 16 5).toNat

/-- PIXEL = w[15:0] (R92). -/
def pixelField (w : Word) : Nat := (w.extractLsb' 0 16).toNat

/-- The reason a word outside the opcode map is reserved (R96). -/
def reservedReason (w : Word) : Reserved :=
  if opField w = 1#4 then .rsvBits
  else if opField w = 0#4 ∨ opField w = 2#4 then .operandBits
  else .opcode

/-- The decision procedure of R95, total on every word. -/
def decode (w : Word) : Except Reserved Instr :=
  if w = 0x00000000#32 then .ok .nop
  else if w &&& 0xF0E00000#32 = 0x10000000#32 then .ok (.encodePixel (boardField w) (stripField w) (pixelField w))
  else if w = 0x20000000#32 then .ok .showPixels
  else .error (reservedReason w)

/-- The word of a command (R91, R99); meaningful for a well-formed one. -/
def encode : Instr → Word
  | .nop => 0x00000000#32
  | .encodePixel board strip pixel =>
    (1#32 <<< 28) ||| (BitVec.ofNat 32 board <<< 24) ||| (BitVec.ofNat 32 strip <<< 16) ||| BitVec.ofNat 32 pixel
  | .showPixels => 0x20000000#32

/-- The command word whose bits are w, of which the table gives the low nbits (a command is one 32-bit word, R98). -/
def tableWord (nbits w : Nat) : Word := BitVec.ofNat 32 (w % 2 ^ nbits)

/-- What the decoder reads from an instruction with these bits, numbered as the opcode table numbers them. -/
def decodeTableWord (nbits w : Nat) : Option Instr :=
  match decode (tableWord nbits w) with
  | .ok i => some i
  | .error _ => none

end Sys2Proof
end

