-- ==== Sys2Proof/Config.lean ====
section
/-! DEFINITION. The implementation parameters of PTBP (R7 to R10), the sizes derived from them, the check the spec puts on
them, and the one free value of the spec: the content of a frame-store word that nothing has written since reset (R22). -/

namespace Sys2Proof

/-- The parameters R8 leaves open. They are arguments of the model: State carries them, and no step changes them (log 1). -/
structure Config where
  /-- BOARDS: number of boards. -/
  boards : Nat
  /-- STRIPS: strips per board. -/
  strips : Nat
  /-- NUM_PIXELS: pixels per strip. -/
  numPixels : Nat
  /-- OFF: strip s drives bit s + OFF of every plane word. -/
  off : Nat
  /-- SETTLE_CYCLES: length of the settle delay in clock cycles. -/
  settleCycles : Nat
  /-- CSR_BASE: byte address of the register window. -/
  csrBase : Nat
  /-- FB_BASE: byte address of the frame-store window. -/
  fbBase : Nat
  /-- DESC_BASE: byte address of the descriptor window. -/
  descBase : Nat
  deriving DecidableEq, Repr

/-- SLOTS = NUM_PIXELS * 3 (R9). -/
def Config.slots (c : Config) : Nat := c.numPixels * 3

/-- The bytes of one buffer: BOARDS * SLOTS fragments of 32 bytes (R9, R62). -/
def Config.bufSize (c : Config) : Nat := c.boards * c.slots * 32

/-- FB_SIZE = 2 * BOARDS * SLOTS * 32 bytes (R9). -/
def Config.fbSize (c : Config) : Nat := 2 * c.bufSize

/-- DESC_SIZE = (SLOTS + 1) * 4 bytes (R9). -/
def Config.descSize (c : Config) : Nat := (c.slots + 1) * 4

/-- The size of the register window: 32 bytes (R36). -/
def Config.csrSize : Nat := 32

/-- The ranges [a, a + m) and [b, b + n) have no address in common (R10). -/
def Config.disjoint (a m b n : Nat) : Bool := a + m ≤ b || b + n ≤ a

/-- The legal values of BOARDS, STRIPS, OFF, NUM_PIXELS and SETTLE_CYCLES (R8, R10). -/
def Config.ranges (c : Config) : Bool :=
  1 ≤ c.boards && c.boards ≤ 16
  && 1 ≤ c.strips && c.strips + c.off ≤ 32 && c.off ≤ 1
  && 1 ≤ c.numPixels && c.numPixels ≤ 65535
  && 1 ≤ c.settleCycles && c.settleCycles < 2 ^ 32

/-- The alignments R8 puts on the three window bases, FB_BASE being nonzero. -/
def Config.aligned (c : Config) : Bool :=
  c.csrBase % 32 == 0 && c.fbBase % 32 == 0 && 1 ≤ c.fbBase && c.descBase % 4 == 0

/-- The three windows lie in the address space and do not overlap (R10). -/
def Config.windows (c : Config) : Bool :=
  c.csrBase + Config.csrSize ≤ 2 ^ 32 && c.fbBase + c.fbSize ≤ 2 ^ 32 && c.descBase + c.descSize ≤ 2 ^ 32
  && Config.disjoint c.csrBase Config.csrSize c.fbBase c.fbSize
  && Config.disjoint c.csrBase Config.csrSize c.descBase c.descSize
  && Config.disjoint c.fbBase c.fbSize c.descBase c.descSize

/-- The legal values of R8 and the constraints of R10. A configuration that fails them is refused (Machine/Step.lean). -/
def Config.legal (c : Config) : Bool := c.ranges && (c.aligned && c.windows)

/-- The reference configuration of R8 with the given OFF, which R8 leaves open even there. -/
def Config.referenceWith (off : Nat) : Config where
  boards := 2
  strips := 16
  numPixels := 100
  off := off
  settleCycles := 25000
  csrBase := 0x40050000
  fbBase := 0x20010000
  descBase := 0x20020000

/-- The configuration of State.reset: R8's reference configuration, OFF = 0 (DESIGN CHOICE, log 1 and 2, unsafe for claims
about State.reset alone). -/
def Config.reference : Config := Config.referenceWith 0

/-- FREE VALUE (R22, R240, I6): the byte that reset draw number `epoch` leaves at byte `offset` of buffer `u`. It has no body,
so nothing can be proved about its value; the four bytes of a word are that word's draw (log 3, safe). -/
opaque Config.frameDraw (epoch : Nat) (u : Buffer) (offset : Nat) : Byte

end Sys2Proof
end

