-- ==== Sys2Proof/Machine/State.lean ====
section
/-! DEFINITION. The state of PTBP as plain data: every item of R22, the level of the reset input, the configuration (R8),
and the model's own fields that hold the outside world's pending actions and what the block has shown it. -/

namespace Sys2Proof.Machine

/-- What stops the machine with a fault: nothing. PTBP has no trap and no fatal error (R200): a refusal sets a flag (R201) and
a bus error is a response (R202), and the machine goes on after both. -/
inductive Fault
  deriving DecidableEq, Repr

/-- Why a step has no meaning. -/
inductive Refusal where
  /-- Raised by an arm of exec whose command has no meaning yet (none at present). Safe: the run stops. -/
  | notModelled (mnemonic : String)
  /-- Raised by step when the configuration breaks R8 or R10, as R10 says ("refused otherwise"). Safe: the run stops. -/
  | illegalConfiguration
  deriving DecidableEq, Repr

/-- The sequencer's phase, S.PHASE (R27). -/
inductive Phase where
  | idle
  | waitReady
  | xfer
  | copy
  deriving DecidableEq, Repr

/-- The sticky flags (R46), and the interrupt sources (R211). -/
inductive Flag where
  | passDone
  | errCmd
  | errAddr
  | errBusy
  | showOvf
  | errDone
  deriving DecidableEq, Repr

/-- One bit per sticky flag: the flags themselves (R46) and their interrupt enables (R41) have this shape. -/
structure FlagSet where
  passDone : Bool
  errCmd : Bool
  errAddr : Bool
  errBusy : Bool
  showOvf : Bool
  errDone : Bool
  deriving DecidableEq, Repr

/-- No flag set: the reset value of the flags and of the enables (R22). -/
def FlagSet.none : FlagSet :=
  { passDone := false, errCmd := false, errAddr := false, errBusy := false, showOvf := false, errDone := false }

/-- The bytes written since reset, by byte address, addresses strictly rising. An address that is not listed holds no written
value (log 4). -/
abbrev Memory := List Host.Cell

/-- The frame store FB (R24). -/
structure FrameStore where
  /-- The bytes written since reset (or copied from such bytes). -/
  cells : Memory
  /-- The model's counter of resets: which draw a byte that is not listed shows (log 3). -/
  epoch : Nat
  /-- Whose draw an unlisted byte of buffer 0 shows: COPY_FLIP copies draws as it copies bytes (log 4). -/
  src0 : Buffer
  /-- Whose draw an unlisted byte of buffer 1 shows. -/
  src1 : Buffer
  deriving DecidableEq, Repr

/-- A frame store that holds the draws of reset number `epoch` (R240). -/
def FrameStore.drawn (epoch : Nat) : FrameStore := { cells := [], epoch := epoch, src0 := 0, src1 := 1 }

/-- The direction of a bus access, with the data of a write (R51). -/
inductive BusOp where
  | read
  | write (v : Word)
  deriving DecidableEq, Repr

/-- A bus access: direction, byte address, size in bytes (R51). -/
structure Access where
  op : BusOp
  addr : Word
  size : Nat
  deriving DecidableEq, Repr

/-- What a port answers to an access. -/
inductive Response where
  /-- A read completes with this word. -/
  | data (w : Word)
  /-- A write completes (also when it was refused with a flag, R201). -/
  | done
  /-- The error response (R202). -/
  | busError
  /-- The address is in none of PTBP's windows: the bus routes the access elsewhere (R60, log 9). -/
  | notSelected
  deriving DecidableEq, Repr

/-- Which agent moves (R6), one constructor for each thing an agent can do. -/
inductive Move where
  /-- The host port performs the access at the head of its queue (R51). -/
  | host
  /-- The engine port performs the access at the head of its queue (R52). -/
  | engine
  /-- The transfer engine pulses dma_done (R54). -/
  | dmaDone
  /-- The sequencer takes its enabled step (R131, R133, R140). -/
  | sequencer
  /-- The settle timer takes SETTLE_EXPIRE (R145). -/
  | settleTimer
  /-- One clock cycle passes, which only the settle counter counts (R58). -/
  | clock
  /-- rst_n goes low (R240). -/
  | resetAssert
  /-- rst_n goes high again. -/
  | resetRelease
  deriving DecidableEq, Repr

/-- What an ACQUIRE step starts: the event dma_start(list) (R53), and the pair of the select lines and the stream that R139
asks a model to record. -/
structure Transfer where
  list : Word
  sel : BitVec 4
  stream : List Word
  deriving DecidableEq, Repr

/-- The state of the block. -/
structure State where
  /-- The parameters (R8), which no step changes. -/
  cfg : Config
  /-- FB (R24). -/
  fb : FrameStore
  /-- S.ACTIVE (R23). -/
  active : Buffer
  /-- S.PHASE (R27). -/
  phase : Phase
  /-- S.BOARD_IDX (R28). -/
  boardIdx : BitVec 4
  /-- S.READY (R29). -/
  ready : Bool
  /-- S.XFER_PENDING (R30). -/
  xferPending : Bool
  /-- S.SETTLING (R32). -/
  settling : Bool
  /-- S.SETTLE_CNT (R32, R221). -/
  settleCnt : BitVec 32
  /-- S.REQ (R33). -/
  req : Bool
  /-- S.SEL (R34). -/
  sel : BitVec 4
  /-- S.DESC_BUF (R35). -/
  descBuf : Buffer
  /-- S.DESC_BOARD (R35). -/
  descBoard : BitVec 4
  /-- CSR.DATA (R38). -/
  data : Word
  /-- CSR.IRQ_EN (R41). -/
  irqEn : FlagSet
  /-- The sticky flags of STATUS (R46). -/
  sticky : FlagSet
  /-- The level of rst_n (R50): false while reset is asserted. -/
  rstN : Bool
  /-- The model's schedule: which agent moves next, head first (log 5). -/
  sched : List Move
  /-- The accesses the host issues, oldest first (R171, log 7). -/
  hostQ : List Access
  /-- The accesses the transfer engine issues, oldest first (log 7). -/
  engQ : List Access
  /-- The host accesses performed, with their responses, newest first (log 8). -/
  hostLog : List (Access × Response)
  /-- The engine accesses performed, with their responses, newest first (log 8). -/
  engLog : List (Access × Response)
  /-- The transfers started, newest first (R53, R139, log 8). -/
  transfers : List Transfer
  deriving DecidableEq, Repr

/-- The block of configuration c right after its reset number `epoch`, released, with nothing issued and nothing scheduled
(R22, R240). -/
def State.resetWith (c : Config) (epoch : Nat) : State where
  cfg := c
  fb := FrameStore.drawn epoch
  active := 0
  phase := .idle
  boardIdx := 0
  ready := false
  xferPending := false
  settling := true
  settleCnt := BitVec.ofNat 32 c.settleCycles
  req := false
  sel := 0
  descBuf := 0
  descBoard := 0
  data := 0
  irqEn := FlagSet.none
  sticky := FlagSet.none
  rstN := true
  sched := []
  hostQ := []
  engQ := []
  hostLog := []
  engLog := []
  transfers := []

/-- The machine right after reset (R22, R240), in the configuration log 1 and 2 name. -/
def State.reset : State := State.resetWith Config.reference 0

end Sys2Proof.Machine
end

