-- ==== Sys2Proof/Machine/Ops.lean ====
section
/-! DEFINITION. The operations every meaning shares: the memory of written bytes, the frame store over it (its addresses,
its words, the copy), BUSY, raising a refusal, and the completion of a port's access. -/

namespace Sys2Proof.Machine

/-! ### The memory of written bytes -/

/-- The byte written at address a, if one was. -/
def Memory.lookup : Memory → Nat → Option Byte
  | [], _ => none
  | c :: m, a => if c.1 = a then some c.2 else Memory.lookup m a

/-- The memory with byte v at address a, in canonical form. -/
def Memory.write : Memory → Nat → Byte → Memory
  | [], a, v => [(a, v)]
  | c :: m, a, v =>
    if a < c.1 then (a, v) :: c :: m
    else if c.1 = a then (a, v) :: m
    else c :: Memory.write m a v

/-- The canonical form: addresses strictly rising. An unlisted address holds no written value, so no entry can equal it
(log 4). -/
abbrev Memory.wf (m : Memory) : Prop := m.Pairwise fun x y => x.1 < y.1

/-! ### The layout of the frame store -/

/-- The other buffer, 1 - u (R23). -/
def otherBuffer (u : Buffer) : Buffer := 1 - u

/-- Byte address of plane word FB[u][b][j][k] (R62). -/
def fbAddr (c : Config) (u : Buffer) (b j k : Nat) : Nat :=
  c.fbBase + (((u.val * c.boards + b) * c.slots + j) * 8 + k) * 4

/-- Address of the fragment of slot j (R64). -/
def fragAddr (c : Config) (u : Buffer) (b j : Nat) : Nat := fbAddr c u b j 0

/-- The place (u, b, j, k) of the plane word at address a (R63). -/
structure PlaneIndex where
  u : Nat
  b : Nat
  j : Nat
  k : Nat
  deriving DecidableEq, Repr

/-- The inverse of fbAddr (R63). -/
def fbIndex (c : Config) (a : Nat) : PlaneIndex :=
  let w := (a - c.fbBase) / 4
  { u := w / (8 * c.slots * c.boards), b := w / (8 * c.slots) % c.boards, j := w / 8 % c.slots, k := w % 8 }

/-- Address a is in the FB window (R60). -/
def inFb (c : Config) (a : Nat) : Bool := c.fbBase ≤ a && a < c.fbBase + c.fbSize

/-- Address a is in the CSR window (R60). -/
def inCsr (c : Config) (a : Nat) : Bool := c.csrBase ≤ a && a < c.csrBase + Config.csrSize

/-- Address a is in the DESC window (R60). -/
def inDesc (c : Config) (a : Nat) : Bool := c.descBase ≤ a && a < c.descBase + c.descSize

/-- First byte address of buffer u (R62). -/
def bufBase (c : Config) (u : Buffer) : Nat := c.fbBase + u.val * c.bufSize

/-- Address a is a byte of buffer u (R62). -/
def inBuffer (c : Config) (u : Buffer) (a : Nat) : Bool := bufBase c u ≤ a && a < bufBase c u + c.bufSize

/-- The buffer a byte address of the FB window belongs to. -/
def bufferOf (c : Config) (a : Nat) : Buffer := if a < bufBase c 1 then 0 else 1

/-! ### Bytes and words of the frame store -/

/-- Byte lane i of a word: bits [8i+7:8i] (R67). -/
def byteLane (w : Word) (i : Nat) : Byte := w.extractLsb' (8 * i) 8

/-- The word whose byte lanes 0 to 3 are b0 to b3 (R67). -/
def wordOfLanes (b0 b1 b2 b3 : Byte) : Word := b3 ++ b2 ++ b1 ++ b0

/-- Whose draw an unlisted byte of buffer u shows (log 4). -/
def FrameStore.src (f : FrameStore) (u : Buffer) : Buffer := if u = 0 then f.src0 else f.src1

/-- What an unlisted address reads as: the draw of the last reset for that byte (R22, R175, log 3). -/
def FrameStore.unlisted (c : Config) (f : FrameStore) (a : Nat) : Byte :=
  Config.frameDraw f.epoch (f.src (bufferOf c a)) (a - bufBase c (bufferOf c a))

/-- The byte at address a: the byte written there, or the draw. -/
def FrameStore.readByte (c : Config) (f : FrameStore) (a : Nat) : Byte := (f.cells.lookup a).getD (f.unlisted c a)

/-- The frame store with byte v at address a. -/
def FrameStore.writeByte (f : FrameStore) (a : Nat) (v : Byte) : FrameStore := { f with cells := f.cells.write a v }

/-- The word at address a (R67, R175). -/
def FrameStore.readWord (c : Config) (f : FrameStore) (a : Nat) : Word :=
  wordOfLanes (f.readByte c a) (f.readByte c (a + 1)) (f.readByte c (a + 2)) (f.readByte c (a + 3))

/-- The frame store with word v at address a (R67, R176). -/
def FrameStore.writeWord (f : FrameStore) (a : Nat) (v : Word) : FrameStore :=
  (((f.writeByte a (byteLane v 0)).writeByte (a + 1) (byteLane v 1)).writeByte (a + 2) (byteLane v 2)).writeByte (a + 3)
    (byteLane v 3)

/-- FB[u][b][j][k] (R24). -/
def FrameStore.plane (c : Config) (f : FrameStore) (u : Buffer) (b j k : Nat) : Word := f.readWord c (fbAddr c u b j k)

/-- Stream(u, b): the words a transfer of board b from buffer u delivers, slot by slot, plane by plane (R139). -/
def FrameStore.stream (c : Config) (f : FrameStore) (u : Buffer) (b : Nat) : List Word :=
  (List.range c.slots).flatMap fun j => (List.range 8).map fun k => f.plane c u b j k

/-- Buffer 1 - u becomes a copy of buffer u, every bit of every word, draws included (R140). -/
def FrameStore.copyFrom (c : Config) (f : FrameStore) (u : Buffer) : FrameStore :=
  let own := f.cells.filter fun x => inBuffer c u x.1
  let moved := own.map fun x => (x.1 - bufBase c u + bufBase c (otherBuffer u), x.2)
  { f with cells := if u = 0 then own ++ moved else moved ++ own, src0 := f.src u, src1 := f.src u }

/-! ### Conditions and effects on the whole state -/

/-- BUSY: a pass is in progress or requested (R31). -/
def State.busy (s : State) : Bool := s.phase != .idle || s.req

/-- The set with flag f set. -/
def FlagSet.set (fs : FlagSet) : Flag → FlagSet
  | .passDone => { fs with passDone := true }
  | .errCmd => { fs with errCmd := true }
  | .errAddr => { fs with errAddr := true }
  | .errBusy => { fs with errBusy := true }
  | .showOvf => { fs with showOvf := true }
  | .errDone => { fs with errDone := true }

/-- raise Refused(F): flag F is set and nothing else changes (R14, R201). Also the effect of the event flags (R46). -/
def State.raise (s : State) (f : Flag) : State := { s with sticky := s.sticky.set f }

/-- The state with the frame store replaced. -/
def State.withFb (s : State) (f : FrameStore) : State := { s with fb := f }

/-- The host port's access at the head of the queue completes with response r (R51). -/
def State.completeHost (s : State) (a : Access) (r : Response) : State :=
  { s with hostQ := s.hostQ.tail, hostLog := (a, r) :: s.hostLog }

/-- The engine port's access at the head of the queue completes with response r (R52). -/
def State.completeEngine (s : State) (a : Access) (r : Response) : State :=
  { s with engQ := s.engQ.tail, engLog := (a, r) :: s.engLog }

end Sys2Proof.Machine
end

