-- ==== Sys2Proof/Machine/Output.lean ====
section
/-! DEFINITION. The output pass (spec/41_output.md): SHOW, the sequencer's steps, the descriptor generator, completion,
copy and flip, the settle delay, and the end of a run. -/

namespace Sys2Proof.Machine

/-- SHOW (R130): the request slot is set; a full slot drops the request with SHOW_OVF. -/
def execShowPixels (s : State) : Host.Outcome State Fault Refusal :=
  if s.req then .next (s.raise .showOvf) else .next { s with req := true }

/-- START (R131). -/
def seqStart (s : State) : State := { s with req := false, boardIdx := 0, phase := .waitReady }

/-- The event of an ACQUIRE: dma_start(DESC_BASE) with the select lines and the stream of the board (R53, R139). -/
def acquireTransfer (s : State) : Transfer where
  list := BitVec.ofNat 32 s.cfg.descBase
  sel := s.boardIdx
  stream := s.fb.stream s.cfg s.active s.boardIdx.toNat

/-- ACQUIRE (R133). -/
def seqAcquire (s : State) : State :=
  { s with
    ready := false
    sel := s.boardIdx
    descBuf := s.active
    descBoard := s.boardIdx
    xferPending := true
    phase := .xfer
    transfers := acquireTransfer s :: s.transfers }

/-- COPY_FLIP (R140). -/
def seqCopyFlip (s : State) : State :=
  { s with
    fb := s.fb.copyFrom s.cfg s.active
    active := otherBuffer s.active
    sticky := s.sticky.set .passDone
    phase := .idle }

/-- The sequencer's step in this state, if one is enabled; none is the hold of R132 and of an idle block (R131 to R149). -/
def sequencerStep (s : State) : Option State :=
  match s.phase with
  | .idle => if s.req then some (seqStart s) else none
  | .waitReady => if s.ready then some (seqAcquire s) else none
  | .xfer => none
  | .copy => some (seqCopyFlip s)

/-- Descriptor word i of the window (R135). -/
def descWord (s : State) (i : Nat) : Word :=
  if i < s.cfg.slots then BitVec.ofNat 32 (fragAddr s.cfg s.descBuf s.descBoard.toNat i) else 0

/-- COMPLETE (R137): the next board, computed without 4-bit wrap-around, or COPY after the last. -/
def xferComplete (s : State) : State :=
  let settled : State :=
    { s with xferPending := false, settling := true, settleCnt := BitVec.ofNat 32 s.cfg.settleCycles }
  if s.boardIdx.toNat + 1 < s.cfg.boards then { settled with boardIdx := s.boardIdx + 1, phase := .waitReady }
  else { settled with phase := .copy }

/-- A dma_done pulse: COMPLETE in XFER (R137), spurious elsewhere (R138). -/
def dmaDone (s : State) : State := if s.phase = .xfer then xferComplete s else s.raise .errDone

/-- SETTLE_EXPIRE (R145), the settle timer's step when it is enabled. -/
def settleExpire (s : State) : State := { s with ready := true, settling := false, settleCnt := 0 }

/-- The settle timer's step in this state, if it is enabled: whenever SETTLING = 1 (R145). -/
def settleTimerStep (s : State) : Option State := if s.settling then some (settleExpire s) else none

/-- One clock cycle: a running settle counter goes down by one, and in the cycle it reaches 0 the delay expires (R32, R145,
R221, log 12). -/
def clockCycle (s : State) : State :=
  if s.settling then
    if s.settleCnt.toNat ≤ 1 then settleExpire s else { s with settleCnt := s.settleCnt - 1 }
  else s

/-- Quiescent: BUSY does not hold and no settle delay runs (R17, R150). -/
def quiescent (s : State) : Bool := !s.busy && !s.settling

/-- A run of a host program has ended: the host has performed its last access, and PTBP is quiescent (R150). The accesses the
host has still to perform are those of hostQ (log 7). -/
def runEnded (s : State) : Bool := s.hostQ.isEmpty && quiescent s

end Sys2Proof.Machine
end

