-- ==== Sys2Proof/Machine/Flags.lean ====
section
/-! DEFINITION. Every flag computation of the spec: the flags' places in a register word (R39, R41), write-1-to-clear (R40),
the STATUS word (R177), and the interrupt output (R210). -/

namespace Sys2Proof.Machine

/-- Bit b at bit position i of a word. -/
def bitAt (b : Bool) (i : Nat) : Word := (BitVec.ofBool b).setWidth 32 <<< i

/-- The bit position of a flag in STATUS and of its enable in IRQ_EN (R39, R41, R211). -/
def Flag.pos : Flag → Nat
  | .passDone => 16
  | .errCmd => 17
  | .errAddr => 18
  | .errBusy => 19
  | .showOvf => 20
  | .errDone => 21

/-- The flag is in the set. -/
def FlagSet.get (fs : FlagSet) : Flag → Bool
  | .passDone => fs.passDone
  | .errCmd => fs.errCmd
  | .errAddr => fs.errAddr
  | .errBusy => fs.errBusy
  | .showOvf => fs.showOvf
  | .errDone => fs.errDone

/-- The set as bits [21:16] of a word, the other bits 0 (R39, R41). -/
def FlagSet.toWord (fs : FlagSet) : Word :=
  bitAt fs.passDone 16 ||| bitAt fs.errCmd 17 ||| bitAt fs.errAddr 18 ||| bitAt fs.errBusy 19 ||| bitAt fs.showOvf 20
    ||| bitAt fs.errDone 21

/-- Bits [21:16] of a word as a set: w AND 0x003F_0000 (R41, R179). -/
def FlagSet.ofWord (w : Word) : FlagSet where
  passDone := w.getLsbD 16
  errCmd := w.getLsbD 17
  errAddr := w.getLsbD 18
  errBusy := w.getLsbD 19
  showOvf := w.getLsbD 20
  errDone := w.getLsbD 21

/-- Write-1-to-clear: the flags of fs that are not in `clear` (R40). -/
def FlagSet.without (fs clear : FlagSet) : FlagSet where
  passDone := fs.passDone && !clear.passDone
  errCmd := fs.errCmd && !clear.errCmd
  errAddr := fs.errAddr && !clear.errAddr
  errBusy := fs.errBusy && !clear.errBusy
  showOvf := fs.showOvf && !clear.showOvf
  errDone := fs.errDone && !clear.errDone

/-- The two sets have a flag in common. -/
def FlagSet.meets (fs en : FlagSet) : Bool :=
  fs.passDone && en.passDone || fs.errCmd && en.errCmd || fs.errAddr && en.errAddr || fs.errBusy && en.errBusy
    || fs.showOvf && en.showOvf || fs.errDone && en.errDone

/-- The 2-bit code of a phase (R27). -/
def Phase.code : Phase → BitVec 2
  | .idle => 0
  | .waitReady => 1
  | .xfer => 2
  | .copy => 3

/-- A buffer index as a bit. -/
def bufferBit (u : Buffer) : Bool := u = 1

/-- The word a read of STATUS returns (R39, R177). -/
def State.statusWord (s : State) : Word :=
  bitAt s.busy 0 ||| bitAt s.req 1 ||| bitAt s.ready 2 ||| bitAt s.xferPending 3 ||| bitAt (bufferBit s.active) 4
    ||| (s.phase.code.setWidth 32 <<< 5) ||| bitAt s.settling 7 ||| (s.boardIdx.setWidth 32 <<< 8)
    ||| (s.sel.setWidth 32 <<< 12) ||| s.sticky.toWord

/-- The interrupt output: some enabled sticky flag is set (R57, R210). -/
def State.irq (s : State) : Bool := s.sticky.meets s.irqEn

end Sys2Proof.Machine
end

