-- ==== Sys2Proof/Machine/Registers.lean ====
section
/-! DEFINITION. The register window: its eight registers (R36), what a read returns (R177) and what a write does (R179).
A write of CMD executes a command (R172) and is in Machine/Agents.lean. -/

namespace Sys2Proof.Machine

/-- The registers (R36). -/
inductive Reg where
  | cmd
  | data
  | status
  | irqEn
  | param
  | settle
  | fbBase
  | descBase
  deriving DecidableEq, Repr

/-- The byte offset of a register (R36). -/
def Reg.offset : Reg → Nat
  | .cmd => 0x00
  | .data => 0x04
  | .status => 0x08
  | .irqEn => 0x0C
  | .param => 0x10
  | .settle => 0x14
  | .fbBase => 0x18
  | .descBase => 0x1C

/-- The register at an offset of the window (R36); the window has these eight and no other. -/
def Reg.ofOffset (off : Nat) : Reg :=
  match off / 4 with
  | 0 => .cmd
  | 1 => .data
  | 2 => .status
  | 3 => .irqEn
  | 4 => .param
  | 5 => .settle
  | 6 => .fbBase
  | _ => .descBase

/-- The word PARAM reports (R42, R177). -/
def paramWord (c : Config) : Word :=
  BitVec.ofNat 32 c.numPixels ||| (BitVec.ofNat 32 c.strips <<< 16) ||| (BitVec.ofNat 32 c.boards <<< 24)
    ||| (BitVec.ofNat 32 c.off <<< 31)

/-- What a read of a register returns (R177); no read has a side effect. -/
def readReg (s : State) : Reg → Word
  | .cmd => 0
  | .data => s.data
  | .status => s.statusWord
  | .irqEn => s.irqEn.toWord
  | .param => paramWord s.cfg
  | .settle => BitVec.ofNat 32 s.cfg.settleCycles
  | .fbBase => BitVec.ofNat 32 s.cfg.fbBase
  | .descBase => BitVec.ofNat 32 s.cfg.descBase

/-- What a write of v to a register does (R179). Writes to read-only registers are ignored; CMD has no storage (R37). -/
def writeReg (s : State) (v : Word) : Reg → State
  | .cmd => s
  | .data => { s with data := v }
  | .status => { s with sticky := s.sticky.without (FlagSet.ofWord v) }
  | .irqEn => { s with irqEn := FlagSet.ofWord v }
  | .param => s
  | .settle => s
  | .fbBase => s
  | .descBase => s

end Sys2Proof.Machine
end

