-- ==== Sys2Proof/Machine/Bus.lean ====
section
/-! DEFINITION. Bus accesses (spec/42_bus_access.md): what an access selects on each port (R170, R173, R205), when it holds
(R174), what it answers and what it does to the state. -/

namespace Sys2Proof.Machine

/-- What an access selects (the rows of R170). -/
inductive Selected where
  /-- Register read (R177). -/
  | regRead (r : Reg)
  /-- Command write (R172). -/
  | command (w : Word)
  /-- Register write at an offset other than CMD's (R179). -/
  | regWrite (r : Reg) (v : Word)
  /-- Frame-store read of the word at a byte address (R175, R180). -/
  | fbRead (a : Nat)
  /-- Frame-store write (R176). -/
  | fbWrite (a : Nat) (v : Word)
  /-- Read of descriptor word i (R178, R180). -/
  | descRead (i : Nat)
  /-- The error response (R173, R178, R181). -/
  | busError
  /-- Not one of PTBP's addresses (R60). -/
  | notSelected
  deriving DecidableEq, Repr

/-- The access is 4 bytes wide and 4-aligned (R66, R173). -/
def Access.wellSized (a : Access) : Bool := a.size == 4 && a.addr.toNat % 4 == 0

/-- What a host-port access in the CSR window selects (R170). -/
def selectCsr (off : Nat) : BusOp → Selected
  | .read => .regRead (Reg.ofOffset off)
  | .write v => if off = 0 then .command v else .regWrite (Reg.ofOffset off) v

/-- What a host-port access selects: its window, then size and alignment, then the row of R170 (R205). -/
def hostSelect (c : Config) (a : Access) : Selected :=
  let n := a.addr.toNat
  if inCsr c n then
    if a.wellSized then selectCsr (n - c.csrBase) a.op else .busError
  else if inFb c n then
    if a.wellSized then
      match a.op with
      | .read => .fbRead n
      | .write v => .fbWrite n v
    else .busError
  else if inDesc c n then
    if a.wellSized then
      match a.op with
      | .read => .descRead ((n - c.descBase) / 4)
      | .write _ => .busError
    else .busError
  else .notSelected

/-- What an engine-port access selects: reads of the FB and DESC windows; everything else is a bus error (R52, R180, R181). -/
def engineSelect (c : Config) (a : Access) : Selected :=
  let n := a.addr.toNat
  match a.op with
  | .write _ => .busError
  | .read =>
    if !a.wellSized then .busError
    else if inFb c n then .fbRead n
    else if inDesc c n then .descRead ((n - c.descBase) / 4)
    else .busError

/-- FB and DESC accesses wait while PHASE = COPY; CSR accesses and errors never do (R174, R205). -/
def Selected.waitsForCopy : Selected → Bool
  | .regRead _ => false
  | .command _ => false
  | .regWrite _ _ => false
  | .fbRead _ => true
  | .fbWrite _ _ => true
  | .descRead _ => true
  | .busError => false
  | .notSelected => false

/-- The access holds in this state (R174). -/
def holds (s : State) (x : Selected) : Bool := x.waitsForCopy && s.phase == .copy

/-- What an access that is performed answers (R172, R175 to R180, R201, R202). -/
def respond (s : State) : Selected → Response
  | .regRead r => .data (readReg s r)
  | .command _ => .done
  | .regWrite _ _ => .done
  | .fbRead a => .data (s.fb.readWord s.cfg a)
  | .fbWrite _ _ => .done
  | .descRead i => .data (descWord s i)
  | .busError => .busError
  | .notSelected => .notSelected

/-- A host write of the frame store: refused with ERR_BUSY while BUSY (R176). -/
def fbWrite (s : State) (a : Nat) (v : Word) : State :=
  if s.busy then s.raise .errBusy else s.withFb (s.fb.writeWord a v)

/-- The effect of an access other than a command write (R175 to R182). -/
def serve (s : State) : Selected → State
  | .regRead _ => s
  | .command _ => s
  | .regWrite r v => writeReg s v r
  | .fbRead _ => s
  | .fbWrite a v => fbWrite s a v
  | .descRead _ => s
  | .busError => s
  | .notSelected => s

end Sys2Proof.Machine
end

