-- ==== Sys2Proof/Machine/Operands.lean ====
section
/-! DEFINITION. The operands of ENCODE: the colour in DATA (R93), its channels (R111), the range of a pixel address
(R112), and the plane bits it goes to. -/

namespace Sys2Proof.Machine

/-- A colour channel (R7). -/
inductive Channel where
  | red
  | green
  | blue
  deriving DecidableEq, Repr

/-- The channel's index: 0 = R, 1 = G, 2 = B (R7). -/
def Channel.index : Channel → Nat
  | .red => 0
  | .green => 1
  | .blue => 2

/-- The channel function (R111). -/
def channel (x : Word) : Channel → Word
  | .red => (x >>> 16) &&& 0xFF#32
  | .green => (x >>> 8) &&& 0xFF#32
  | .blue => x &&& 0xFF#32

/-- The colour operand: DATA[23:0] (R93). -/
def State.rgb (s : State) : Word := (s.data.extractLsb' 0 24).setWidth 32

/-- The pixel address is in range for the configuration (R112). -/
def inRange (c : Config) (board strip pixel : Nat) : Bool := board < c.boards && strip < c.strips && pixel < c.numPixels

/-- The slot of a channel of a pixel: 3 * p + c (R111). -/
def slotOf (pixel : Nat) (ch : Channel) : Nat := 3 * pixel + ch.index

/-- The word with bit `pos` replaced by b: (old AND NOT (1 << pos)) OR (b << pos) (R112). -/
def putBit (old : Word) (pos : Nat) (b : Bool) : Word :=
  (old &&& ~~~(1#32 <<< pos)) ||| ((BitVec.ofBool b).setWidth 32 <<< pos)

/-- One plane word an ENCODE updates, and the bit it puts there. -/
structure PlaneBit where
  addr : Nat
  value : Bool
  deriving DecidableEq, Repr

/-- The plane bits of one channel: plane k carries bit 7 - k (R25, R112). -/
def channelBits (c : Config) (u : Buffer) (board pixel : Nat) (rgb : Word) (ch : Channel) : List PlaneBit :=
  [0, 1, 2, 3, 4, 5, 6, 7].map fun k =>
    { addr := fbAddr c u board (slotOf pixel ch) k, value := (channel rgb ch).getLsbD (7 - k) }

/-- The 24 plane bits of a pixel (R112). -/
def pixelBits (c : Config) (u : Buffer) (board pixel : Nat) (rgb : Word) : List PlaneBit :=
  [Channel.red, .green, .blue].flatMap (channelBits c u board pixel rgb)

/-- One update: bit `pos` of the word at t.addr becomes t.value. -/
def FrameStore.putPlaneBit (c : Config) (pos : Nat) (f : FrameStore) (t : PlaneBit) : FrameStore :=
  f.writeWord t.addr (putBit (f.readWord c t.addr) pos t.value)

/-- The updates of a list, all in one step (R112). -/
def FrameStore.putPlaneBits (c : Config) (pos : Nat) (f : FrameStore) (ts : List PlaneBit) : FrameStore :=
  ts.foldl (FrameStore.putPlaneBit c pos) f

end Sys2Proof.Machine
end

