-- ==== Sys2Proof/Machine/Codec.lean ====
section
/-! DEFINITION. The codec commands NOP and ENCODE (spec/40_codec.md). -/

namespace Sys2Proof.Machine

/-- NOP: nothing (R110). -/
def execNop (s : State) : Host.Outcome State Fault Refusal := .next s

/-- ENCODE (R112): refused with ERR_BUSY while BUSY, else with ERR_ADDR out of range (order: R205), else the 24 plane words of
the pixel in the active buffer take the colour's bits at bit position strip + OFF. -/
def execEncodePixel (board strip pixel : Nat) (s : State) : Host.Outcome State Fault Refusal :=
  if s.busy then .next (s.raise .errBusy)
  else if !inRange s.cfg board strip pixel then .next (s.raise .errAddr)
  else .next (s.withFb (s.fb.putPlaneBits s.cfg (strip + s.cfg.off) (pixelBits s.cfg s.active board pixel s.rgb)))

end Sys2Proof.Machine
end

