-- ==== Sys2Proof/Machine/Dispatch.lean ====
section
/-! DEFINITION. The meaning of a command: one arm per constructor of Instr. -/

namespace Sys2Proof.Machine

def exec (i : Instr) (s : State) : Host.Outcome State Fault Refusal :=
  match i with
  | .nop => Sys2Proof.Machine.execNop s
  | .encodePixel board strip pixel => Sys2Proof.Machine.execEncodePixel board strip pixel s
  | .showPixels => Sys2Proof.Machine.execShowPixels s

end Sys2Proof.Machine
end

