-- ==== Sys2Proof/Machine/Reset.lean ====
section
/-! DEFINITION. Reset (spec/70_reset_and_hazards.md). -/

namespace Sys2Proof.Machine

/-- The assertion of rst_n (R240): every item of R22 takes its reset value, every frame-store word a new draw, and the reset
input is low. What the outside has issued, and what it has seen, is not the block's state and stays (log 13). -/
def resetBlock (s : State) : State :=
  { s with
    fb := FrameStore.drawn (s.fb.epoch + 1)
    active := 0
    phase := .idle
    boardIdx := 0
    ready := false
    xferPending := false
    settling := true
    settleCnt := BitVec.ofNat 32 s.cfg.settleCycles
    req := false
    sel := 0
    descBuf := 0
    descBoard := 0
    data := 0
    irqEn := FlagSet.none
    sticky := FlagSet.none
    rstN := false }

/-- The release of rst_n: the agents' steps are enabled again (R240). -/
def resetRelease (s : State) : State := { s with rstN := true }

end Sys2Proof.Machine
end

