-- ==== Sys2Proof/Machine/Agents.lean ====
section
/-! DEFINITION. The moves of the agents (R6): the host port, the engine port, the transfer engine's pulse, the sequencer, the
settle timer, the clock and reset. An agent whose step is not enabled waits: its move leaves the state as it is (log 6). -/

namespace Sys2Proof.Machine

/-- A write of w to CMD: the command it decodes to is executed, a reserved word is refused with ERR_CMD (R90, R96, R172). -/
def runCommand (w : Word) (s : State) : Host.Outcome State Fault Refusal :=
  match decode w with
  | .ok i => exec i s
  | .error _ => .next (s.raise .errCmd)

/-- The effect of a host-port access that is performed. -/
def performHost (s : State) : Selected → Host.Outcome State Fault Refusal
  | .command w => runCommand w s
  | .regRead r => .next (serve s (.regRead r))
  | .regWrite r v => .next (serve s (.regWrite r v))
  | .fbRead a => .next (serve s (.fbRead a))
  | .fbWrite a v => .next (serve s (.fbWrite a v))
  | .descRead i => .next (serve s (.descRead i))
  | .busError => .next (serve s .busError)
  | .notSelected => .next (serve s .notSelected)

/-- The host port performs the access at the head of its queue, or waits (R51, R171, R174). -/
def hostMove (s : State) : Host.Outcome State Fault Refusal :=
  match s.hostQ with
  | [] => .next s
  | a :: _ =>
    let x := hostSelect s.cfg a
    if holds s x then .next s else performHost (s.completeHost a (respond s x)) x

/-- The engine port performs the access at the head of its queue, or waits (R52, R174, R180, R181). -/
def engineMove (s : State) : State :=
  match s.engQ with
  | [] => s
  | a :: _ =>
    let x := engineSelect s.cfg a
    if holds s x then s else s.completeEngine a (respond s x)

/-- An agent moves while reset is not asserted. -/
def agentMove (s : State) : Move → Host.Outcome State Fault Refusal
  | .host => hostMove s
  | .engine => .next (engineMove s)
  | .dmaDone => .next (dmaDone s)
  | .sequencer => .next ((sequencerStep s).getD s)
  | .settleTimer => .next ((settleTimerStep s).getD s)
  | .clock => .next (clockCycle s)
  | .resetAssert => .next (resetBlock s)
  | .resetRelease => .next (resetRelease s)

/-- A move. While rst_n stays asserted no other agent's step is enabled and no access is served (R240). -/
def takeMove (s : State) (m : Move) : Host.Outcome State Fault Refusal :=
  if s.rstN then agentMove s m
  else
    match m with
    | .resetAssert => .next (resetBlock s)
    | .resetRelease => .next (resetRelease s)
    | .host => .next s
    | .engine => .next s
    | .dmaDone => .next s
    | .sequencer => .next s
    | .settleTimer => .next s
    | .clock => .next s

/-- The state with the head of the schedule taken off. -/
def State.popSched (s : State) : State := { s with sched := s.sched.tail }

/-- The step the schedule asks for; with nothing scheduled no agent moves (log 5). -/
def scheduledStep (s : State) : Host.Outcome State Fault Refusal :=
  match s.sched with
  | [] => .next s
  | m :: _ => takeMove s.popSched m

/-- The host issues a write of command word w to CMD, ahead of what it has issued, and the host port moves next with reset
released (log 7). -/
def issueCommand (s : State) (w : Word) : State :=
  { s with
    rstN := true
    sched := .host :: s.sched
    hostQ := { op := .write w, addr := BitVec.ofNat 32 s.cfg.csrBase, size := 4 } :: s.hostQ }

end Sys2Proof.Machine
end

