-- ==== Sys2Proof/Machine/Step.lean ====
section
/-! DEFINITION. One step of the machine, and how a command comes to be its next one. -/

namespace Sys2Proof.Machine

/-- One step: the configuration is checked (R10), then the agent the schedule names moves (R6, R72). -/
def step (s : State) : Host.Outcome State Fault Refusal :=
  if s.cfg.legal then scheduledStep s else .refused .illegalConfiguration

/-- PTBP fetches nothing (R77): its next command is the next word the host writes to CMD. So s with the command issued by the
host and the host port moving next (log 7). -/
def State.withFetchWord (s : State) (nbits w : Nat) : State := issueCommand s (tableWord nbits w)

end Sys2Proof.Machine
end

