-- ==== Sys2Proof/Machine/Ports.lean ====
section
/-! DEFINITION. The outputs of the block (R50) and the transfer engine's contract (R55), which reads the block through its
engine port. -/

namespace Sys2Proof.Machine

/-- The board-select line i carries S.SEL[i] (R34, R56). -/
def State.selLine (s : State) (i : Nat) : Bool := s.sel.getLsbD i

/-- dma_list always reads DESC_BASE (R53). -/
def State.dmaList (s : State) : Word := BitVec.ofNat 32 s.cfg.descBase

/-- The word an engine read of address a returns at this state; none where the port answers an error or holds (R174, R180). -/
def engineWord (s : State) (a : Nat) : Option Word :=
  let x := engineSelect s.cfg { op := .read, addr := BitVec.ofNat 32 a, size := 4 }
  if holds s x then none
  else
    match respond s x with
    | .data w => some w
    | .done => none
    | .busError => none
    | .notSelected => none

/-- The n words from address a on, read in order through the engine port (R55 item 3). -/
def engineBlock (s : State) (a : Nat) : Nat → Option (List Word)
  | 0 => some []
  | n + 1 =>
    match engineWord s a, engineBlock s (a + 4) n with
    | some w, some ws => some (w :: ws)
    | some _, none => none
    | none, _ => none

/-- What an engine that keeps R55 delivers when it follows the chain at address `list` (items 1 to 3): the 8 words of each
descriptor's fragment, in order, until a descriptor is 0. `fuel` bounds the descriptors read; none where an access fails or
the fuel runs out before the sentinel. -/
def engineWalk (s : State) : (fuel list : Nat) → Option (List Word)
  | 0, _ => none
  | fuel + 1, list =>
    match engineWord s list with
    | none => none
    | some d =>
      if d = 0 then some []
      else
        match engineBlock s d.toNat 8, engineWalk s fuel (list + 4) with
        | some frag, some rest => some (frag ++ rest)
        | some _, none => none
        | none, _ => none

end Sys2Proof.Machine
end

