-- ==== Sys2Proof/Safety.lean ====
section
/-! DEFINITION. What counts as a good state and a safe run of PTBP: the invariants of R147 with the ones they rest on, the
stream of a running transfer (R73, R139), the accesses that edit (R112, R176), and the schedule of one undisturbed pass (R143). -/

namespace Sys2Proof.Machine

/-- The state invariant: the items of R147, R30 and R134, the range of the settle counter (R32), and what they rest on (a legal
configuration, R10; a frame store in canonical form inside its window, R62). -/
structure Inv (s : State) : Prop where
  /-- The configuration is legal (R10). -/
  cfgLegal : s.cfg.legal = true
  /-- The memory of the frame store is in canonical form. -/
  fbCanonical : Memory.wf s.fb.cells
  /-- Every written byte lies in the FB window (R62). -/
  fbInWindow : ∀ x ∈ s.fb.cells, inFb s.cfg x.1 = true
  /-- R147 item 1. -/
  readySettled : s.ready = true → s.settling = false
  /-- R147 item 2 and R30. -/
  pendingIffXfer : s.xferPending = true ↔ s.phase = .xfer
  /-- R147 item 3. -/
  xferGated : s.phase = .xfer → s.ready = false ∧ s.settling = false
  /-- R147 item 4. -/
  boardInRange : s.boardIdx.toNat < s.cfg.boards
  /-- R147 item 5 and R134: from the first ACQUIRE of a pass on, the descriptors point into the active buffer. -/
  descActive : s.phase = .xfer ∨ s.phase = .copy ∨ (s.phase = .waitReady ∧ s.boardIdx ≠ 0) → s.descBuf = s.active
  /-- The descriptors are of a board of the configuration (R35). -/
  descBoardInRange : s.descBoard.toNat < s.cfg.boards
  /-- In a transfer the select lines and the descriptors name the board of the pass (R133). -/
  xferBoard : s.phase = .xfer → s.sel = s.boardIdx ∧ s.descBoard = s.boardIdx
  /-- COPY comes after the last board (R137). -/
  copyBoard : s.phase = .copy → s.boardIdx.toNat + 1 = s.cfg.boards
  /-- While the delay runs the counter is between 1 and SETTLE_CYCLES (R32, R221). -/
  settleRunning : s.settling = true → 1 ≤ s.settleCnt.toNat ∧ s.settleCnt.toNat ≤ s.cfg.settleCycles
  /-- When no delay runs the counter is 0 (R145). -/
  settleDone : s.settling = false → s.settleCnt = 0
  /-- The semaphore is never lost: it is released, or its release is on the way, or a transfer that will start its release runs
  (R29, R32, R133, R137). -/
  semaphoreKept : s.ready = true ∨ s.settling = true ∨ s.phase = .xfer

/-- While a transfer runs, what its ACQUIRE recorded is still what the frame store holds and the select lines carry (R73,
R139). -/
def StreamKept (s : State) : Prop :=
  s.phase = .xfer →
    s.transfers.head? = some { list := s.dmaList, sel := s.sel, stream := s.fb.stream s.cfg s.descBuf s.descBoard.toNat }

/-- Buffer u of f and buffer v of g are equal word for word: every board, slot and plane of the configuration (R24, R141). -/
def SameFrame (c : Config) (f g : FrameStore) (u v : Buffer) : Prop :=
  ∀ b j k, b < c.boards → j < c.slots → k < 8 → f.plane c u b j k = g.plane c v b j k

/-- A 4-byte read at address a. -/
def readAt (a : Nat) : Access := { op := .read, addr := BitVec.ofNat 32 a, size := 4 }

/-- A 4-byte write of v at address a. -/
def writeAt (a : Nat) (v : Word) : Access := { op := .write v, addr := BitVec.ofNat 32 a, size := 4 }

/-- A 4-byte write of v to a register of the window (R36). -/
def regWriteAccess (c : Config) (r : Reg) (v : Word) : Access := writeAt (c.csrBase + r.offset) v

/-- A 4-byte read of a register of the window (R36). -/
def regReadAccess (c : Config) (r : Reg) : Access := readAt (c.csrBase + r.offset)

/-- Host access a edits the frame store when it is accepted: a write of a plane word (R176), or of a command word that decodes to
ENCODE (R112). -/
def Edits (c : Config) (a : Access) : Prop :=
  (∃ n v, inFb c n = true ∧ n % 4 = 0 ∧ a = writeAt n v) ∨
  ∃ w b st p, a = regWriteAccess c .cmd w ∧ decode w = .ok (.encodePixel b st p)

/-- The moves of one board of a pass: the delay before it runs out, ACQUIRE, the engine completes (R132, R133, R137). -/
def boardMoves : List Move := [.settleTimer, .sequencer, .dmaDone]

/-- The moves of a pass of n boards: START, the boards in order, COPY_FLIP (R143). -/
def passMoves (n : Nat) : List Move := .sequencer :: (List.replicate n boardMoves).flatten ++ [.sequencer]

/-- The transfers of a pass, newest first: boards n - 1 down to 0, each from buffer u (R139, R143). -/
def passTransfers (s : State) : Nat → List Transfer
  | 0 => []
  | n + 1 =>
    { list := s.dmaList, sel := BitVec.ofNat 4 n, stream := s.fb.stream s.cfg s.active n } :: passTransfers s n

/-- Agent m moves next, in a block of legal configuration whose reset is released; `rest` is the schedule after it. -/
structure Turn (s : State) (m : Move) (rest : List Move) : Prop where
  legal : s.cfg.legal = true
  released : s.rstN = true
  next : s.sched = m :: rest

/-- The host port moves next and its next access is a; q are the accesses after it. -/
structure HostTurn (s : State) (a : Access) (rest : List Move) (q : List Access) : Prop extends Turn s .host rest where
  access : s.hostQ = a :: q

/-- The engine port moves next and its next access is a; q are the accesses after it. -/
structure EngineTurn (s : State) (a : Access) (rest : List Move) (q : List Access) : Prop extends Turn s .engine rest where
  access : s.engQ = a :: q

/-- The state after host access a answered r and did nothing else. -/
def State.hostAnswered (s : State) (rest : List Move) (q : List Access) (a : Access) (r : Response) : State :=
  { s with sched := rest, hostQ := q, hostLog := (a, r) :: s.hostLog }

/-- The state after engine access a answered r and did nothing else. -/
def State.engineAnswered (s : State) (rest : List Move) (q : List Access) (a : Access) (r : Response) : State :=
  { s with sched := rest, engQ := q, engLog := (a, r) :: s.engLog }

/-- Byte address a lies in one of the 24 plane words of pixel (board, pixel) in buffer u (R112, R113). -/
def InPixelWords (c : Config) (u : Buffer) (board pixel a : Nat) : Prop :=
  ∃ ch k, k < 8 ∧ fbAddr c u board (slotOf pixel ch) k ≤ a ∧ a < fbAddr c u board (slotOf pixel ch) k + 4

/-- The bit of DATA that channel ch contributes to plane k: bit 7 - k of the channel (R25, R93). -/
def colourBit (data : Word) (ch : Channel) (k : Nat) : Bool := data.getLsbD (16 - 8 * ch.index + (7 - k))

end Sys2Proof.Machine
end

