-- ==== Sys2Proof/Certificates/Slice0/Obligations.lean ====
section
/-! DEFINITION. The statements about PTBP, from the numbered rules of spec/. A step is a step of Sys2Proof.Machine.step; who
moves is said by Turn, HostTurn and EngineTurn. -/

open Sys2Proof Sys2Proof.Machine

/-! ### Commands and their encoding -/

/-- R110: NOP is the word 0 exactly, and does nothing in any state. -/
def Obligations.NopDoesNothing : Prop :=
  ∀ (w : Word) (s : State), (decode w = .ok .nop ↔ w = 0x00000000#32) ∧ exec .nop s = .next s

/-- R112: ENCODE. Its words; refused with ERR_BUSY while BUSY, else with ERR_ADDR out of range; else it completes, its 24 plane
words take the colour's bits at bit STRIP + OFF, and no other byte of the frame store and no other item of the state changes. -/
def Obligations.EncodeMeaning : Prop :=
  (∀ w : Word, w &&& 0xF0E00000#32 = 0x10000000#32 →
    decode w = .ok (.encodePixel (w.extractLsb' 24 4).toNat (w.extractLsb' 16 5).toNat (w.extractLsb' 0 16).toNat)) ∧
  ∀ (s : State) (b st p : Nat), s.cfg.legal = true →
    (s.busy = true →
      exec (.encodePixel b st p) s = .next { s with sticky := { s.sticky with errBusy := true } }) ∧
    (s.busy = false → (s.cfg.boards ≤ b ∨ s.cfg.strips ≤ st ∨ s.cfg.numPixels ≤ p) →
      exec (.encodePixel b st p) s = .next { s with sticky := { s.sticky with errAddr := true } }) ∧
    (s.busy = false → b < s.cfg.boards → st < s.cfg.strips → p < s.cfg.numPixels →
      ∃ t, exec (.encodePixel b st p) s = .next t ∧ t = { s with fb := t.fb } ∧
        (∀ ch k, k < 8 → t.fb.plane s.cfg s.active b (3 * p + ch.index) k =
          (s.fb.plane s.cfg s.active b (3 * p + ch.index) k &&& ~~~(1#32 <<< (st + s.cfg.off))) |||
            ((BitVec.ofBool ((channel (s.data &&& 0x00FFFFFF#32) ch).getLsbD (7 - k))).setWidth 32
              <<< (st + s.cfg.off))) ∧
        ∀ a, ¬ InPixelWords s.cfg s.active b p a → t.fb.readByte s.cfg a = s.fb.readByte s.cfg a)

/-- R113 items 1, 2, 4, 5, 6 and R26, bit by bit over the whole frame store: an accepted ENCODE sets the strip's bit of its 24
words to the colour's bit, and every other bit of every plane word of both buffers stays. -/
def Obligations.EncodeChangesOneBitPerWord : Prop :=
  ∀ (s : State) (b st p : Nat), s.cfg.legal = true → s.busy = false → b < s.cfg.boards → st < s.cfg.strips →
    p < s.cfg.numPixels → ∃ t, exec (.encodePixel b st p) s = .next t ∧
      ∀ u b' j k i, b' < s.cfg.boards → j < s.cfg.slots → k < 8 → i < 32 →
        ((t.fb.plane s.cfg u b' j k).getLsbD i ≠ (s.fb.plane s.cfg u b' j k).getLsbD i →
          u = s.active ∧ b' = b ∧ j / 3 = p ∧ i = st + s.cfg.off) ∧
        (∀ ch : Channel, u = s.active → b' = b → j = 3 * p + ch.index → i = st + s.cfg.off →
          (t.fb.plane s.cfg u b' j k).getLsbD i = colourBit s.data ch k)

/-- R113 item 3: ENCODE is idempotent, and of two ENCODEs of one pixel with different colours the later wins completely. -/
def Obligations.EncodeIdempotentAndLastWins : Prop :=
  ∀ (s : State) (b st p : Nat) (d : Word), s.cfg.legal = true → Memory.wf s.fb.cells → s.busy = false →
    b < s.cfg.boards → st < s.cfg.strips → p < s.cfg.numPixels →
    ∃ t, exec (.encodePixel b st p) s = .next t ∧ exec (.encodePixel b st p) t = .next t ∧
      exec (.encodePixel b st p) { t with data := d } = exec (.encodePixel b st p) { s with data := d }

/-- R114: the channel values read back from the planes are the colour's, in the active buffer after ENCODE, and in both
buffers after a following flip. -/
def Obligations.EncodeRoundTrip : Prop :=
  ∀ (s : State) (b st p : Nat), s.cfg.legal = true → s.busy = false → b < s.cfg.boards → st < s.cfg.strips →
    p < s.cfg.numPixels → ∃ t, exec (.encodePixel b st p) s = .next t ∧ t.active = s.active ∧
      ∀ (ch : Channel) (k : Nat), k < 8 →
        (t.fb.plane s.cfg t.active b (3 * p + ch.index) (7 - k)).getLsbD (st + s.cfg.off)
          = (channel s.rgb ch).getLsbD k ∧
        ∀ u, ((seqCopyFlip t).fb.plane s.cfg u b (3 * p + ch.index) (7 - k)).getLsbD (st + s.cfg.off)
          = (channel s.rgb ch).getLsbD k

/-- R130: SHOW is the word 0x2000_0000 exactly; it sets the request slot and nothing else, so BUSY holds; with the slot full it
sets SHOW_OVF and nothing else. -/
def Obligations.ShowMeaning : Prop :=
  (∀ w : Word, decode w = .ok .showPixels ↔ w = 0x20000000#32) ∧
  ∀ s : State,
    (s.req = false → ∃ t, exec .showPixels s = .next t ∧ t = { s with req := true } ∧ t.busy = true) ∧
    (s.req = true → exec .showPixels s = .next { s with sticky := { s.sticky with showOvf := true } })

/-- Every command completes in every state, and changes at most the frame store (ENCODE), the request slot (SHOW) and one
refusal flag; no flag is cleared (R201, R207). -/
def Obligations.CommandFrame : Prop :=
  ∀ (i : Instr) (s : State), ∃ t, exec i s = .next t ∧
    t = { s with fb := t.fb, req := t.req, sticky := t.sticky } ∧
    (t.fb ≠ s.fb → ∃ b st p, i = .encodePixel b st p) ∧
    (t.req ≠ s.req → i = .showPixels) ∧
    (t.sticky = s.sticky ∨
      (t.fb = s.fb ∧ t.req = s.req ∧
        ((t.sticky = s.sticky.set .errBusy ∨ t.sticky = s.sticky.set .errAddr) ∧ (∃ b st p, i = .encodePixel b st p) ∨
          t.sticky = s.sticky.set .showOvf ∧ i = .showPixels)))

/-- R91, R92, R94, R99: decoding the word of a well-formed command gives the command back, every operand whole. -/
def Obligations.DecodeOfEncode : Prop := ∀ i : Instr, i.wf = true → decode (encode i) = .ok i

/-- R94, R96: a word that decodes is the word of the command it decodes to, which is well formed. -/
def Obligations.EncodeOfDecode : Prop := ∀ (w : Word) (i : Instr), decode w = .ok i → i.wf = true ∧ encode i = w

/-- R94: a word selects the row of the opcode map whose pattern it matches; no two rows overlap; a word that matches none is
reserved. -/
def Obligations.DecodeFollowsOpcodeMap : Prop :=
  ∀ w : Word,
    (w &&& 0xFFFFFFFF#32 = 0x00000000#32 ↔ decode w = .ok .nop) ∧
    (w &&& 0xF0E00000#32 = 0x10000000#32 ↔ ∃ b st p, decode w = .ok (.encodePixel b st p)) ∧
    (w &&& 0xFFFFFFFF#32 = 0x20000000#32 ↔ decode w = .ok .showPixels) ∧
    ((opcodeMap.filter fun r => r.accepts w).length ≤ 1) ∧
    ((∃ r, decode w = .error r) ↔ opcodeMap.any (fun r => r.accepts w) = false)

/-- R96: which words are reserved, and that one written to CMD sets ERR_CMD and does nothing else, whatever the state; the
write completes normally. -/
def Obligations.ReservedWordSetsErrCmd : Prop :=
  (∀ w : Word, (∃ r, decode w = .error r) ↔
    3 ≤ (w.extractLsb' 28 4).toNat ∨
    (((w.extractLsb' 28 4).toNat = 0 ∨ (w.extractLsb' 28 4).toNat = 2) ∧ w.extractLsb' 0 28 ≠ 0) ∨
    ((w.extractLsb' 28 4).toNat = 1 ∧ w.extractLsb' 21 3 ≠ 0)) ∧
  ∀ (s : State) (rest : List Move) (q : List Access) (w : Word) (r : Reserved),
    HostTurn s (regWriteAccess s.cfg .cmd w) rest q → decode w = .error r →
    step s = .next { s.hostAnswered rest q (regWriteAccess s.cfg .cmd w) .done with
      sticky := { s.sticky with errCmd := true } }

/-- R101: words written out from the formats of R91, and what they decode to. -/
def Obligations.DecodedWords : Prop :=
  decode 0b00000000000000000000000000000000#32 = .ok .nop ∧
  decode 0b00010000000000110000000000000101#32 = .ok (.encodePixel 0 3 5) ∧
  decode 0b00010001000011110000000001100011#32 = .ok (.encodePixel 1 15 99) ∧
  decode 0b00011111000111111111111111111111#32 = .ok (.encodePixel 15 31 65535) ∧
  decode 0b00100000000000000000000000000000#32 = .ok .showPixels ∧
  decode 0b00110000000000000000000000000000#32 = .error .opcode ∧
  decode 0b00010000001000000000000000000101#32 = .error .rsvBits ∧
  decode 0b00100000000000000000000000000001#32 = .error .operandBits

/-- R90, R172: the step in which the host port performs a write of w to CMD is exec of the command w decodes to, on the state in
which the write has completed normally. -/
def Obligations.StepRunsDecodedCommand : Prop :=
  ∀ (s : State) (rest : List Move) (q : List Access) (w : Word) (i : Instr),
    HostTurn s (regWriteAccess s.cfg .cmd w) rest q → decode w = .ok i →
    step s = exec i (s.hostAnswered rest q (regWriteAccess s.cfg .cmd w) .done)

/-- The command that withFetchWord issues is the one the next step runs (log 7: the host issues commands; the model's choice of
how they stand in the state). -/
def Obligations.FetchWordIsNext : Prop :=
  ∀ (s : State) (nbits w : Nat) (i : Instr), s.cfg.legal = true → decodeTableWord nbits w = some i →
    step (s.withFetchWord nbits w) = exec i { s with
      rstN := true
      hostLog := (regWriteAccess s.cfg .cmd (tableWord nbits w), .done) :: s.hostLog }

/-! ### The output pass -/

/-- R131: START. -/
def Obligations.SequencerStart : Prop :=
  ∀ (s : State) (rest : List Move), Turn s .sequencer rest → s.phase = .idle →
    (s.req = true → step s = .next { s with sched := rest, req := false, boardIdx := 0, phase := .waitReady }) ∧
    (s.req = false → step s = .next { s with sched := rest })

/-- R132: in WAIT_READY with READY = 0 the sequencer's move changes nothing, and the semaphore is released by no agent but the
settle timer (in its SETTLE_EXPIRE or in the clock cycle its count runs out). -/
def Obligations.SequencerWaitsForReady : Prop :=
  ∀ (s : State) (m : Move) (rest : List Move), Turn s m rest → s.phase = .waitReady → s.ready = false →
    (m = .sequencer → step s = .next { s with sched := rest }) ∧
    ∀ t, step s = .next t → t.phase ≠ .xfer ∧ (t.ready = true → (m = .settleTimer ∨ m = .clock) ∧ s.settling = true)

/-- R133: ACQUIRE, with the event dma_start(DESC_BASE) and the stream R139 asks a model to record. -/
def Obligations.SequencerAcquire : Prop :=
  ∀ (s : State) (rest : List Move), Turn s .sequencer rest → s.phase = .waitReady → s.ready = true →
    step s = .next { s with
      sched := rest
      ready := false
      sel := s.boardIdx
      descBuf := s.active
      descBoard := s.boardIdx
      xferPending := true
      phase := .xfer
      transfers := { list := BitVec.ofNat 32 s.cfg.descBase, sel := s.boardIdx,
                     stream := s.fb.stream s.cfg s.active s.boardIdx.toNat } :: s.transfers }

/-- R137: COMPLETE, to the next board or to COPY after the last, without 4-bit wrap-around. -/
def Obligations.TransferCompletes : Prop :=
  ∀ (s : State) (rest : List Move), Turn s .dmaDone rest → s.phase = .xfer →
    (s.boardIdx.toNat + 1 < s.cfg.boards → ∃ t, step s = .next t ∧ t.boardIdx.toNat = s.boardIdx.toNat + 1 ∧
      t = { s with sched := rest, xferPending := false, settling := true,
                   settleCnt := BitVec.ofNat 32 s.cfg.settleCycles, boardIdx := t.boardIdx, phase := .waitReady }) ∧
    (s.cfg.boards ≤ s.boardIdx.toNat + 1 → step s = .next { s with
      sched := rest, xferPending := false, settling := true, settleCnt := BitVec.ofNat 32 s.cfg.settleCycles, phase := .copy })

/-- R138: a completion outside XFER sets ERR_DONE and changes nothing else. -/
def Obligations.SpuriousDoneSetsErrDone : Prop :=
  ∀ (s : State) (rest : List Move), Turn s .dmaDone rest → s.phase ≠ .xfer →
    step s = .next { s with sched := rest, sticky := { s.sticky with errDone := true } }

/-- R140, R141: COPY_FLIP copies every plane word of the active buffer into the other, flips the index, sets PASS_DONE and goes to
IDLE; every byte of the active buffer and every other item stays. -/
def Obligations.CopyFlipCopiesAndFlips : Prop :=
  ∀ (s : State) (rest : List Move), Turn s .sequencer rest → s.phase = .copy →
    ∃ t, step s = .next t ∧
      t = { s with sched := rest, fb := t.fb, active := t.active, sticky := { s.sticky with passDone := true }, phase := .idle } ∧
      t.active ≠ s.active ∧
      (∀ b j k, b < s.cfg.boards → j < s.cfg.slots → k < 8 →
        t.fb.plane s.cfg t.active b j k = s.fb.plane s.cfg s.active b j k ∧
        t.fb.plane s.cfg s.active b j k = s.fb.plane s.cfg s.active b j k) ∧
      ∀ a, inBuffer s.cfg s.active a = true → t.fb.readByte s.cfg a = s.fb.readByte s.cfg a

/-- R145: SETTLE_EXPIRE, enabled whenever SETTLING = 1. -/
def Obligations.SettleExpires : Prop :=
  ∀ (s : State) (rest : List Move), Turn s .settleTimer rest →
    (s.settling = true → step s = .next { s with sched := rest, ready := true, settling := false, settleCnt := 0 }) ∧
    (s.settling = false → step s = .next { s with sched := rest })

/-- R32, R221: counted by the clock alone, the settle delay releases the semaphore exactly when its count has run out: not
before n cycles, and at the n-th, where n is the count at the start (the clock move is the model's, log 12). -/
def Obligations.SettleDelayIsItsCount : Prop :=
  ∀ (s : State) (n : Nat) (rest : List Move), s.cfg.legal = true → s.rstN = true → s.settling = true → s.ready = false →
    1 ≤ s.settleCnt.toNat → s.sched = List.replicate s.settleCnt.toNat .clock ++ rest →
    (n < s.settleCnt.toNat → ∃ t, Host.Core.run core n s = .next t ∧ t.ready = false ∧ t.settling = true ∧
      t.settleCnt.toNat = s.settleCnt.toNat - n) ∧
    (n = s.settleCnt.toNat →
      Host.Core.run core n s = .next { s with sched := rest, ready := true, settling := false, settleCnt := 0 })

/-- R148: after a pass with a SHOW queued, START is enabled at once, and BUSY has held throughout. -/
def Obligations.QueuedPassStartsAtOnce : Prop :=
  ∀ (s : State) (rest : List Move), Turn s .sequencer (.sequencer :: rest) → s.phase = .copy → s.req = true →
    s.busy = true ∧ ∃ t u, step s = .next t ∧ t.busy = true ∧ step t = .next u ∧ u.busy = true ∧ u.phase = .waitReady ∧
      u.boardIdx = 0 ∧ u.req = false ∧ u.active = t.active ∧ u.fb = t.fb

/-- R150: in a quiescent state neither the sequencer nor the settle timer has a step: their moves, and the clock's, change
nothing. -/
def Obligations.QuiescentIsStill : Prop :=
  ∀ (s : State) (m : Move) (rest : List Move), quiescent s = true → Turn s m rest →
    (m = .sequencer ∨ m = .settleTimer ∨ m = .clock) → step s = .next { s with sched := rest }

/-- R149: every change of the phase is a row of the table. -/
def Obligations.PhaseTable : Prop :=
  ∀ s t : State, step s = .next t → t.phase ≠ s.phase →
    (s.phase = .idle ∧ t.phase = .waitReady ∧ s.req = true ∧ s.sched.head? = some .sequencer) ∨
    (s.phase = .waitReady ∧ t.phase = .xfer ∧ s.ready = true ∧ s.sched.head? = some .sequencer) ∨
    (s.phase = .xfer ∧ t.phase = .waitReady ∧ s.boardIdx.toNat + 1 < s.cfg.boards ∧ s.sched.head? = some .dmaDone) ∨
    (s.phase = .xfer ∧ t.phase = .copy ∧ s.cfg.boards ≤ s.boardIdx.toNat + 1 ∧ s.sched.head? = some .dmaDone) ∨
    (s.phase = .copy ∧ t.phase = .idle ∧ s.sched.head? = some .sequencer) ∨
    (t.phase = .idle ∧ s.sched.head? = some .resetAssert)

/-- R23: nothing but the copy step (and reset) changes the active index. -/
def Obligations.ActiveChangesOnlyAtFlip : Prop :=
  ∀ s t : State, step s = .next t → t.active ≠ s.active →
    (s.phase = .copy ∧ s.sched.head? = some .sequencer ∧ s.rstN = true) ∨ s.sched.head? = some .resetAssert

/-- R29: the semaphore is released by the settle timer alone and taken by ACQUIRE (and cleared by reset) alone; no host access
reaches it. -/
def Obligations.ReadyOnlyByTimerAndAcquire : Prop :=
  ∀ s t : State, step s = .next t → t.ready ≠ s.ready →
    (t.ready = true ∧ s.settling = true ∧ (s.sched.head? = some .settleTimer ∨ s.sched.head? = some .clock)) ∨
    (t.ready = false ∧ ((s.phase = .waitReady ∧ t.phase = .xfer ∧ s.sched.head? = some .sequencer) ∨
      s.sched.head? = some .resetAssert))

/-- R34, R35: the select lines and the descriptor window's buffer and board are loaded at ACQUIRE, set to 0 by reset, and held by
every other step; line i carries bit i of the selected board. -/
def Obligations.SelectionHoldsBetweenTransfers : Prop :=
  ∀ s t : State, step s = .next t →
    (s.phase = .waitReady ∧ t.phase = .xfer → t.sel = s.boardIdx ∧ t.descBuf = s.active ∧ t.descBoard = s.boardIdx) ∧
    (s.sched.head? = some .resetAssert → t.sel = 0 ∧ t.descBuf = 0 ∧ t.descBoard = 0) ∧
    (¬ (s.phase = .waitReady ∧ t.phase = .xfer) → s.sched.head? ≠ some .resetAssert →
      t.sel = s.sel ∧ t.descBuf = s.descBuf ∧ t.descBoard = s.descBoard) ∧
    ∀ i, t.selLine i = t.sel.getLsbD i

/-- R31, R73: while BUSY holds, no step changes the frame store but the copy step and reset. -/
def Obligations.NoEditWhileBusy : Prop :=
  ∀ s t : State, step s = .next t → s.busy = true → t.fb ≠ s.fb →
    (s.phase = .copy ∧ s.sched.head? = some .sequencer) ∨ s.sched.head? = some .resetAssert

/-- R142: a run without reset, whose host issues no ENCODE and no frame-store write (SHOWs, reads and register writes it may
issue), keeps every plane word of the active buffer, through any number of passes and flips; and every transfer it starts sends
the stream that the buffer active at the start has of its board. -/
def Obligations.CopyForwardKeepsTheFrame : Prop :=
  ∀ (n : Nat) (s t : State), s.cfg.legal = true → (∀ m ∈ s.sched, m ≠ .resetAssert) →
    (∀ a ∈ s.hostQ, ¬ Edits s.cfg a) → Host.Core.run core n s = .next t →
    t.cfg = s.cfg ∧ SameFrame s.cfg t.fb s.fb t.active s.active ∧
    (s.boardIdx.toNat < s.cfg.boards → ∃ new, t.transfers = new ++ s.transfers ∧
      ∀ x ∈ new, x.sel.toNat < s.cfg.boards ∧ x.stream = s.fb.stream s.cfg s.active x.sel.toNat)

/-- R143, R139, R140: the undisturbed pass from IDLE with a request makes one transfer for each board 0, 1, … in that order,
each with its board on the select lines and the active buffer's stream, then flips once; both buffers hold the frame sent. -/
def Obligations.PassSendsEveryBoardInOrder : Prop :=
  ∀ (s : State) (rest : List Move), Inv s → s.rstN = true → s.phase = .idle → s.req = true →
    s.sched = passMoves s.cfg.boards ++ rest →
    ∃ t, Host.Core.run core (3 * s.cfg.boards + 2) s = .next t ∧
      t.transfers = passTransfers s s.cfg.boards ++ s.transfers ∧
      t.phase = .idle ∧ t.req = false ∧ t.active = otherBuffer s.active ∧ t.sticky = s.sticky.set .passDone ∧
      t.sched = rest ∧ t.data = s.data ∧ t.irqEn = s.irqEn ∧
      SameFrame s.cfg t.fb s.fb t.active s.active ∧ SameFrame s.cfg t.fb s.fb s.active s.active

/-- R135, R136: the chain has SLOTS fragments, each a nonzero multiple of 32 inside the frame-store window and 32 above the one
before, and then the null sentinel. -/
def Obligations.DescriptorChain : Prop :=
  ∀ (s : State), s.cfg.legal = true → s.descBoard.toNat < s.cfg.boards →
    descWord s s.cfg.slots = 0 ∧
    ∀ i, i < s.cfg.slots →
      (descWord s i).toNat = fbAddr s.cfg s.descBuf s.descBoard.toNat i 0 ∧ (descWord s i).toNat % 32 = 0 ∧ descWord s i ≠ 0 ∧
      inFb s.cfg (descWord s i).toNat = true ∧
      (i + 1 < s.cfg.slots → (descWord s (i + 1)).toNat = (descWord s i).toNat + 32)

/-- R139, R55: an engine that keeps its contract, and follows the chain from DESC_BASE through the engine port, delivers
Stream(S.DESC_BUF, S.DESC_BOARD), word for word, and finds the sentinel. -/
def Obligations.EngineDeliversTheStream : Prop :=
  ∀ (s : State) (fuel : Nat), Inv s → s.phase ≠ .copy → s.cfg.slots < fuel →
    engineWalk s fuel s.cfg.descBase = some (s.fb.stream s.cfg s.descBuf s.descBoard.toNat)

/-! ### Invariants -/

/-- R147 (and R30, R134): the state invariant is kept by every step, from every state that meets it. -/
def Obligations.StepKeepsInv : Prop := ∀ s t : State, Inv s → step s = .next t → Inv t

/-- R240: every reset state of a legal configuration meets the invariant, State.reset among them. -/
def Obligations.ResetMeetsInv : Prop :=
  (∀ (c : Config) (epoch : Nat), c.legal = true → Inv (State.resetWith c epoch)) ∧ Inv State.reset

/-- R73, R139: while a transfer runs, the frame store still holds the stream its ACQUIRE recorded and the select lines still
carry its board, in every step from every state where that and the invariant hold. -/
def Obligations.StepKeepsTheStream : Prop :=
  ∀ s t : State, Inv s → StreamKept s → step s = .next t → StreamKept t

/-- R200, R8: a block of legal configuration never stops, and no step changes its configuration. -/
def Obligations.StepNeverStops : Prop :=
  ∀ s : State, s.cfg.legal = true → ∃ t, step s = .next t ∧ t.cfg = s.cfg

/-- R10: a configuration that breaks the constraints is refused, and only such a one. -/
def Obligations.IllegalConfigurationRefused : Prop :=
  ∀ s : State,
    step s = .refused .illegalConfiguration ↔
      ¬ (1 ≤ s.cfg.boards ∧ s.cfg.boards ≤ 16 ∧ 1 ≤ s.cfg.strips ∧ s.cfg.strips + s.cfg.off ≤ 32 ∧ s.cfg.off ≤ 1 ∧
         1 ≤ s.cfg.numPixels ∧ s.cfg.numPixels ≤ 65535 ∧ 1 ≤ s.cfg.settleCycles ∧ s.cfg.settleCycles < 2 ^ 32 ∧
         s.cfg.csrBase % 32 = 0 ∧ s.cfg.fbBase % 32 = 0 ∧ s.cfg.fbBase ≠ 0 ∧ s.cfg.descBase % 4 = 0 ∧
         s.cfg.csrBase + 32 ≤ 2 ^ 32 ∧
         s.cfg.fbBase + 2 * s.cfg.boards * (s.cfg.numPixels * 3) * 32 ≤ 2 ^ 32 ∧
         s.cfg.descBase + (s.cfg.numPixels * 3 + 1) * 4 ≤ 2 ^ 32 ∧
         (∀ a, ¬ (inCsr s.cfg a = true ∧ inFb s.cfg a = true)) ∧
         (∀ a, ¬ (inCsr s.cfg a = true ∧ inDesc s.cfg a = true)) ∧
         (∀ a, ¬ (inFb s.cfg a = true ∧ inDesc s.cfg a = true)))

/-! ### Registers and flags -/

/-- R39, with BUSY's condition from R31 and PHASE's codes from R27: the fields of STATUS, and its value after reset. -/
def Obligations.StatusFields : Prop :=
  (∀ s : State,
    (s.statusWord.getLsbD 0 = true ↔ s.phase ≠ .idle ∨ s.req = true) ∧
    s.statusWord.getLsbD 1 = s.req ∧ s.statusWord.getLsbD 2 = s.ready ∧
    s.statusWord.getLsbD 3 = s.xferPending ∧ (s.statusWord.extractLsb' 4 1).toNat = s.active.val ∧
    s.statusWord.extractLsb' 5 2 =
      (match s.phase with
        | .idle => 0#2
        | .waitReady => 1#2
        | .xfer => 2#2
        | .copy => 3#2) ∧
    s.statusWord.getLsbD 7 = s.settling ∧
    s.statusWord.extractLsb' 8 4 = s.boardIdx ∧ s.statusWord.extractLsb' 12 4 = s.sel ∧
    s.statusWord.getLsbD 16 = s.sticky.passDone ∧ s.statusWord.getLsbD 17 = s.sticky.errCmd ∧
    s.statusWord.getLsbD 18 = s.sticky.errAddr ∧ s.statusWord.getLsbD 19 = s.sticky.errBusy ∧
    s.statusWord.getLsbD 20 = s.sticky.showOvf ∧ s.statusWord.getLsbD 21 = s.sticky.errDone ∧
    s.statusWord.extractLsb' 22 10 = 0) ∧
  ∀ (c : Config) (epoch : Nat), (State.resetWith c epoch).statusWord = 0x00000080#32

/-- R177: a register read answers the register's word and has no side effect. -/
def Obligations.RegisterReads : Prop :=
  ∀ (s : State) (rest : List Move) (q : List Access) (r : Reg), HostTurn s (regReadAccess s.cfg r) rest q →
    step s = .next (s.hostAnswered rest q (regReadAccess s.cfg r) (.data
      (match r with
        | .cmd => 0
        | .data => s.data
        | .status => s.statusWord
        | .irqEn => s.irqEn.toWord
        | .param => BitVec.ofNat 32 (s.cfg.numPixels + s.cfg.strips * 2 ^ 16 + s.cfg.boards * 2 ^ 24 + s.cfg.off * 2 ^ 31)
        | .settle => BitVec.ofNat 32 s.cfg.settleCycles
        | .fbBase => BitVec.ofNat 32 s.cfg.fbBase
        | .descBase => BitVec.ofNat 32 s.cfg.descBase)))

/-- R179: what a write of each register other than CMD does; the read-only ones ignore it. -/
def Obligations.RegisterWrites : Prop :=
  ∀ (s : State) (rest : List Move) (q : List Access) (r : Reg) (v : Word), r ≠ .cmd →
    HostTurn s (regWriteAccess s.cfg r v) rest q →
    ∃ t, step s = .next t ∧
      t = { s.hostAnswered rest q (regWriteAccess s.cfg r v) .done with
            data := t.data, irqEn := t.irqEn, sticky := t.sticky } ∧
      t.data = (if r = .data then v else s.data) ∧
      t.irqEn.toWord = (if r = .irqEn then v &&& 0x003F0000#32 else s.irqEn.toWord) ∧
      ∀ f : Flag, t.sticky.get f = (s.sticky.get f && !(r == .status && v.getLsbD f.pos))

/-- R40: a write of STATUS clears each sticky flag whose bit is 1 and leaves the others; bits [15:0] and [31:22] do nothing, and
so does the rest of the state. -/
def Obligations.StatusWriteClears : Prop :=
  ∀ (s : State) (rest : List Move) (q : List Access) (v : Word), HostTurn s (regWriteAccess s.cfg .status v) rest q →
    ∃ t, step s = .next t ∧ t = { s.hostAnswered rest q (regWriteAccess s.cfg .status v) .done with sticky := t.sticky } ∧
      t.sticky.toWord = s.sticky.toWord &&& ~~~v

/-- R46: a sticky flag is cleared by nothing but a write of 1 to its STATUS bit and reset. -/
def Obligations.FlagsAreSticky : Prop :=
  ∀ (s t : State) (f : Flag), step s = .next t → s.sticky.get f = true → t.sticky.get f = false →
    s.sched.head? = some .resetAssert ∨
    (s.sched.head? = some .host ∧ ∃ v, s.hostQ.head? = some (regWriteAccess s.cfg .status v) ∧ v.getLsbD f.pos = true)

/-- R46, R203: what sets each sticky flag, and nothing else sets it. -/
def Obligations.FlagsAreSetByTheirEvents : Prop :=
  ∀ (s t : State) (f : Flag), step s = .next t → s.sticky.get f = false → t.sticky.get f = true →
    match f with
    | .passDone => s.sched.head? = some .sequencer ∧ s.phase = .copy
    | .errDone => s.sched.head? = some .dmaDone ∧ s.phase ≠ .xfer
    | .errCmd => s.sched.head? = some .host ∧ ∃ w r, s.hostQ.head? = some (regWriteAccess s.cfg .cmd w) ∧ decode w = .error r
    | .showOvf => s.sched.head? = some .host ∧ s.req = true ∧
        ∃ w, s.hostQ.head? = some (regWriteAccess s.cfg .cmd w) ∧ decode w = .ok .showPixels
    | .errAddr => s.sched.head? = some .host ∧ s.busy = false ∧
        ∃ w b st p, s.hostQ.head? = some (regWriteAccess s.cfg .cmd w) ∧ decode w = .ok (.encodePixel b st p) ∧
          (s.cfg.boards ≤ b ∨ s.cfg.strips ≤ st ∨ s.cfg.numPixels ≤ p)
    | .errBusy => s.sched.head? = some .host ∧ s.busy = true ∧
        ((∃ w b st p, s.hostQ.head? = some (regWriteAccess s.cfg .cmd w) ∧ decode w = .ok (.encodePixel b st p)) ∨
         ∃ a v, inFb s.cfg a = true ∧ s.hostQ.head? = some (writeAt a v))

/-- R210: irq is 1 exactly while some flag of STATUS [21:16] and its enable in IRQ_EN are both 1; after reset it is 0. -/
def Obligations.InterruptLevel : Prop :=
  (∀ s : State, s.irq = true ↔
    ∃ i, 16 ≤ i ∧ i ≤ 21 ∧ s.statusWord.getLsbD i = true ∧ (readReg s .irqEn).getLsbD i = true) ∧
  ∀ (c : Config) (epoch : Nat), (State.resetWith c epoch).irq = false

/-- R42: the fields PARAM reports, in a legal configuration; that a write of it changes nothing; and the reference values. -/
def Obligations.ParamFields : Prop :=
  (∀ s : State, s.cfg.legal = true →
    ((readReg s .param).extractLsb' 0 16).toNat = s.cfg.numPixels ∧
    ((readReg s .param).extractLsb' 16 6).toNat = s.cfg.strips ∧ (readReg s .param).extractLsb' 22 2 = 0 ∧
    ((readReg s .param).extractLsb' 24 5).toNat = s.cfg.boards ∧ (readReg s .param).extractLsb' 29 2 = 0 ∧
    ((readReg s .param).extractLsb' 31 1).toNat = s.cfg.off) ∧
  (∀ (s : State) (rest : List Move) (q : List Access) (v : Word), HostTurn s (regWriteAccess s.cfg .param v) rest q →
    step s = .next (s.hostAnswered rest q (regWriteAccess s.cfg .param v) .done)) ∧
  paramWord (Config.referenceWith 0) = 0x02100064#32 ∧ paramWord (Config.referenceWith 1) = 0x82100064#32

/-! ### Bus accesses -/

/-- R62, R63: every aligned address of the FB window names exactly one plane word, and every plane word has exactly one address. -/
def Obligations.PlaneAddressesAreExact : Prop :=
  ∀ c : Config, c.legal = true →
    (∀ (u : Buffer) (b j k : Nat), b < c.boards → j < c.slots → k < 8 →
      inFb c (fbAddr c u b j k) = true ∧ fbAddr c u b j k % 4 = 0 ∧
        fbIndex c (fbAddr c u b j k) = { u := u.val, b := b, j := j, k := k }) ∧
    ∀ a, inFb c a = true → a % 4 = 0 →
      ∃ u : Buffer, (fbIndex c a).u = u.val ∧ (fbIndex c a).b < c.boards ∧ (fbIndex c a).j < c.slots ∧ (fbIndex c a).k < 8 ∧
        fbAddr c u (fbIndex c a).b (fbIndex c a).j (fbIndex c a).k = a

/-- R175: a host read of a plane word holds in COPY; in every other phase it answers the word, of either buffer, and has no side
effect. -/
def Obligations.FrameStoreRead : Prop :=
  ∀ (s : State) (rest : List Move) (q : List Access) (u : Buffer) (b j k : Nat),
    b < s.cfg.boards → j < s.cfg.slots → k < 8 → HostTurn s (readAt (fbAddr s.cfg u b j k)) rest q →
    (s.phase = .copy → step s = .next { s with sched := rest }) ∧
    (s.phase ≠ .copy →
      step s = .next (s.hostAnswered rest q (readAt (fbAddr s.cfg u b j k)) (.data (s.fb.plane s.cfg u b j k))))

/-- R176: a host write of a plane word holds in COPY; in every other phase it is refused with ERR_BUSY while BUSY; else the word
takes the value whole, every other byte of the frame store and everything else stays. -/
def Obligations.FrameStoreWrite : Prop :=
  ∀ (s : State) (rest : List Move) (q : List Access) (u : Buffer) (b j k : Nat) (v : Word),
    b < s.cfg.boards → j < s.cfg.slots → k < 8 → HostTurn s (writeAt (fbAddr s.cfg u b j k) v) rest q →
    (s.phase = .copy → step s = .next { s with sched := rest }) ∧
    (s.phase ≠ .copy → s.busy = true → step s = .next { s.hostAnswered rest q (writeAt (fbAddr s.cfg u b j k) v) .done with
      sticky := { s.sticky with errBusy := true } }) ∧
    (s.busy = false → ∃ t, step s = .next t ∧
      t = { s.hostAnswered rest q (writeAt (fbAddr s.cfg u b j k) v) .done with fb := t.fb } ∧
      t.fb.plane s.cfg u b j k = v ∧
      ∀ a, (a < fbAddr s.cfg u b j k ∨ fbAddr s.cfg u b j k + 4 ≤ a) → t.fb.readByte s.cfg a = s.fb.readByte s.cfg a)

/-- R178, R135: a read of descriptor word i on either port holds in COPY; in every other phase it answers the address of slot i's
fragment of the latched buffer and board, or 0 at the end, with no side effect; a host write of the window is a bus error and
changes nothing, in every phase. -/
def Obligations.DescriptorWindow : Prop :=
  ∀ (s : State) (rest : List Move) (q : List Access) (i : Nat) (v : Word), i ≤ s.cfg.slots →
    (HostTurn s (readAt (s.cfg.descBase + 4 * i)) rest q →
      (s.phase = .copy → step s = .next { s with sched := rest }) ∧
      (s.phase ≠ .copy → step s = .next (s.hostAnswered rest q (readAt (s.cfg.descBase + 4 * i)) (.data
        (if i < s.cfg.slots then
          BitVec.ofNat 32 (s.cfg.fbBase + ((s.descBuf.val * s.cfg.boards + s.descBoard.toNat) * s.cfg.slots + i) * 32)
        else 0))))) ∧
    (EngineTurn s (readAt (s.cfg.descBase + 4 * i)) rest q →
      (s.phase = .copy → step s = .next { s with sched := rest }) ∧
      (s.phase ≠ .copy → step s = .next (s.engineAnswered rest q (readAt (s.cfg.descBase + 4 * i)) (.data
        (if i < s.cfg.slots then
          BitVec.ofNat 32 (s.cfg.fbBase + ((s.descBuf.val * s.cfg.boards + s.descBoard.toNat) * s.cfg.slots + i) * 32)
        else 0))))) ∧
    (HostTurn s (writeAt (s.cfg.descBase + 4 * i) v) rest q →
      step s = .next (s.hostAnswered rest q (writeAt (s.cfg.descBase + 4 * i) v) .busError))

/-- R174: a host access to the FB or DESC window, whatever its direction but a descriptor write, holds while PHASE = COPY; an
engine read does too; after the copy step none holds. A register access never holds. -/
def Obligations.AccessesHoldDuringCopy : Prop :=
  ∀ (s : State) (a : Access) (rest : List Move) (q : List Access), s.phase = .copy → a.wellSized = true →
    (inFb s.cfg a.addr.toNat = true ∨ (inDesc s.cfg a.addr.toNat = true ∧ a.op = .read) →
      (HostTurn s a rest q → step s = .next { s with sched := rest }) ∧
      (EngineTurn s a rest q → a.op = .read → step s = .next { s with sched := rest })) ∧
    (inCsr s.cfg a.addr.toNat = true → HostTurn s a rest q →
      ∃ t r, step s = .next t ∧ t.hostQ = q ∧ t.hostLog = (a, r) :: s.hostLog) ∧
    ∀ x, holds (seqCopyFlip s) x = false

/-- R173, R66, R202: an access of a wrong size or alignment in a window answers an error and changes nothing, in every phase, on
the host port; on the engine port too. -/
def Obligations.BadSizeOrAlignmentIsBusError : Prop :=
  ∀ (s : State) (a : Access) (rest : List Move) (q : List Access), a.size ≠ 4 ∨ a.addr.toNat % 4 ≠ 0 →
    (inCsr s.cfg a.addr.toNat = true ∨ inFb s.cfg a.addr.toNat = true ∨ inDesc s.cfg a.addr.toNat = true →
      HostTurn s a rest q → step s = .next (s.hostAnswered rest q a .busError)) ∧
    (EngineTurn s a rest q → step s = .next (s.engineAnswered rest q a .busError))

/-- R181: on the engine port a write of any size, an access outside the FB and DESC windows, and a read of a wrong size or
alignment are bus errors. -/
def Obligations.EnginePortErrors : Prop :=
  ∀ (s : State) (a : Access) (rest : List Move) (q : List Access), EngineTurn s a rest q →
    (∃ v, a.op = .write v) ∨ (inFb s.cfg a.addr.toNat = false ∧ inDesc s.cfg a.addr.toNat = false) ∨
      a.size ≠ 4 ∨ a.addr.toNat % 4 ≠ 0 →
    step s = .next (s.engineAnswered rest q a .busError)

/-- R180: an engine read of an aligned word of the FB or DESC window holds in COPY; in every other phase it answers what a host
read of it would answer at this state, and has no side effect. -/
def Obligations.EngineReadsAsTheHost : Prop :=
  ∀ (s : State) (n : Nat) (rest : List Move) (q : List Access), n % 4 = 0 → n < 2 ^ 32 →
    inFb s.cfg n = true ∨ inDesc s.cfg n = true → EngineTurn s (readAt n) rest q →
    (s.phase = .copy → step s = .next { s with sched := rest }) ∧
    (s.phase ≠ .copy → ∃ w, step s = .next (s.engineAnswered rest q (readAt n) (.data w)) ∧
      ∀ (restH : List Move) (qH : List Access),
        step { s with sched := .host :: restH, hostQ := readAt n :: qH } =
          .next ({ s with sched := .host :: restH, hostQ := readAt n :: qH }.hostAnswered restH qH (readAt n) (.data w)))

/-- R69: no read on either port has a side effect: it changes the schedule, the port's queue and the port's log, and nothing
else. -/
def Obligations.ReadsHaveNoSideEffect : Prop :=
  ∀ (s t : State) (a : Access) (rest : List Move) (q : List Access), a.op = .read → step s = .next t →
    (HostTurn s a rest q → t = { s with sched := rest, hostQ := t.hostQ, hostLog := t.hostLog }) ∧
    (EngineTurn s a rest q → t = { s with sched := rest, engQ := t.engQ, engLog := t.engLog })

/-- R60: a host access outside the three windows is not PTBP's: nothing of the block changes (what the port records is the
model's choice, log 9). -/
def Obligations.OtherAddressesAreNotServed : Prop :=
  ∀ (s : State) (a : Access) (rest : List Move) (q : List Access), HostTurn s a rest q →
    inCsr s.cfg a.addr.toNat = false → inFb s.cfg a.addr.toNat = false → inDesc s.cfg a.addr.toNat = false →
    step s = .next (s.hostAnswered rest q a .notSelected)

/-! ### Reset -/

/-- R240, R22: the assertion of reset, at any step and in any phase, sets every item of R22 to its reset value and gives the
frame store a new draw. The model's choices: the form of a draw and its number, one more than the last (log 3); the level of
rst_n, that an assertion while reset is asserted draws again, and that the queues and the logs survive (log 13). -/
def Obligations.ResetSetsEveryItem : Prop :=
  ∀ (s : State) (rest : List Move), s.cfg.legal = true → s.sched = .resetAssert :: rest →
    ∃ t, step s = .next t ∧
      t = { s with
            sched := rest, rstN := false, fb := t.fb, active := 0, phase := .idle, boardIdx := 0, ready := false,
            xferPending := false, settling := true, settleCnt := BitVec.ofNat 32 s.cfg.settleCycles, req := false, sel := 0,
            descBuf := 0, descBoard := 0, data := 0, irqEn := FlagSet.none, sticky := FlagSet.none } ∧
      t.statusWord = 0x00000080#32 ∧ t.irq = false ∧
      ∀ u o, o < s.cfg.bufSize →
        t.fb.readByte s.cfg (bufBase s.cfg u + o) = Config.frameDraw (s.fb.epoch + 1) u o

/-- R240: while reset stays asserted no other agent's step is enabled and no access is served. The model's choices: such an
agent's move leaves all but the schedule (log 6); an access not served stays in its queue, and the release of rst_n is a move of
its own that changes only the level (log 13). -/
def Obligations.NothingMovesInReset : Prop :=
  ∀ (s : State) (m : Move) (rest : List Move), s.cfg.legal = true → s.rstN = false → s.sched = m :: rest →
    (m ≠ .resetAssert → m ≠ .resetRelease → step s = .next { s with sched := rest }) ∧
    (m = .resetRelease → step s = .next { s with sched := rest, rstN := true })

/-! ### The end of a run -/

/-- R150: what ends a run; an ended run stays ended, with nothing changed but the schedule, the level of rst_n, the engine port's
queue and log, and ERR_DONE when a completion comes; a run whose engine never completes its transfer does not end. That the host's
remaining accesses are those of hostQ is the model's choice (log 7). -/
def Obligations.EndOfARun : Prop :=
  (∀ s : State, runEnded s = true ↔ s.hostQ = [] ∧ s.phase = .idle ∧ s.req = false ∧ s.settling = false) ∧
  ∀ (n : Nat) (s t : State), s.cfg.legal = true → (∀ m ∈ s.sched, m ≠ .resetAssert) → Host.Core.run core n s = .next t →
    (runEnded s = true → runEnded t = true ∧
      t = { s with sched := t.sched, rstN := t.rstN, engQ := t.engQ, engLog := t.engLog, sticky := t.sticky } ∧
      (∀ f, f ≠ .errDone → t.sticky.get f = s.sticky.get f) ∧
      ((∀ m ∈ s.sched, m ≠ .dmaDone) → t.sticky = s.sticky)) ∧
    (s.phase = .xfer → (∀ m ∈ s.sched, m ≠ .dmaDone) → t.phase = .xfer ∧ runEnded t = false)

/-- R150, R143: the host's accesses performed, an undisturbed pass followed by the settle timer's move ends the run. -/
def Obligations.PassEndsTheRun : Prop :=
  ∀ (s : State) (rest : List Move), Inv s → s.rstN = true → s.phase = .idle → s.req = true → s.hostQ = [] →
    s.sched = passMoves s.cfg.boards ++ .settleTimer :: rest →
    ∃ t, Host.Core.run core (3 * s.cfg.boards + 3) s = .next t ∧ runEnded t = true ∧ t.ready = true ∧ t.sched = rest
end

