-- ==== Sys2Proof/Laws/Memory.lean ====
section
/-! SUPPORT. The laws of the memory and of the frame store over it: read after write, the canonical form, bytes and words,
and what the copy does. -/

namespace Sys2Proof.Machine

/-! ### The memory of written bytes -/

@[simp] theorem Memory.lookup_nil (a : Nat) : Memory.lookup [] a = none := rfl

theorem Memory.lookup_cons (c : Host.Cell) (m : Memory) (a : Nat) :
    Memory.lookup (c :: m) a = if c.1 = a then some c.2 else Memory.lookup m a := rfl

theorem Memory.lookup_write_same (m : Memory) (a : Nat) (v : Byte) : Memory.lookup (Memory.write m a v) a = some v := by
  induction m with
  | nil => simp [Memory.write, Memory.lookup_cons]
  | cons c m ih =>
    unfold Memory.write
    split
    · simp [Memory.lookup_cons]
    · split
      · simp [Memory.lookup_cons]
      · next h => simp [Memory.lookup_cons, h, ih]

theorem Memory.lookup_write_other (m : Memory) {a x : Nat} (v : Byte) (h : x ≠ a) :
    Memory.lookup (Memory.write m a v) x = Memory.lookup m x := by
  have h' : ¬ a = x := fun e => h e.symm
  induction m with
  | nil => simp [Memory.write, Memory.lookup_cons, h']
  | cons c m ih =>
    unfold Memory.write
    split
    · simp [Memory.lookup_cons, h']
    · split
      · next hc => simp [Memory.lookup_cons, hc, h']
      · simp [Memory.lookup_cons, ih]

theorem Memory.mem_write {m : Memory} {a : Nat} {v : Byte} {x : Host.Cell} (h : x ∈ Memory.write m a v) :
    x = (a, v) ∨ x ∈ m := by
  induction m with
  | nil => simpa [Memory.write] using h
  | cons c m ih =>
    unfold Memory.write at h
    split at h
    · simpa using h
    · split at h
      · rcases List.mem_cons.mp h with h | h
        · exact .inl h
        · exact .inr (List.mem_cons_of_mem _ h)
      · rcases List.mem_cons.mp h with h | h
        · exact .inr (by simp [h])
        · rcases ih h with h | h
          · exact .inl h
          · exact .inr (List.mem_cons_of_mem _ h)

/-- A write keeps the canonical form. -/
theorem Memory.write_wf {m : Memory} (h : Memory.wf m) (a : Nat) (v : Byte) : Memory.wf (Memory.write m a v) := by
  induction m with
  | nil => simp [Memory.write, Memory.wf]
  | cons c m ih =>
    obtain ⟨hc, hm⟩ := List.pairwise_cons.mp h
    unfold Memory.write
    split
    · next hlt =>
      refine List.pairwise_cons.mpr ⟨fun x hx => ?_, h⟩
      rcases List.mem_cons.mp hx with rfl | hx
      · exact hlt
      · exact Nat.lt_trans hlt (hc x hx)
    · split
      · next he => exact List.pairwise_cons.mpr ⟨fun x hx => he ▸ hc x hx, hm⟩
      · refine List.pairwise_cons.mpr ⟨fun x hx => ?_, ih hm⟩
        rcases Memory.mem_write hx with rfl | hx
        · simp only; omega
        · exact hc x hx

theorem Memory.lookup_eq_none_of_lt {m : Memory} {a : Nat} (h : ∀ x ∈ m, a < x.1) : Memory.lookup m a = none := by
  induction m with
  | nil => rfl
  | cons c m ih =>
    have hc := h c (by simp)
    have : ¬ c.1 = a := by omega
    simp [Memory.lookup_cons, this, ih fun x hx => h x (List.mem_cons_of_mem _ hx)]

theorem Memory.lookup_of_mem {m : Memory} (h : Memory.wf m) {x : Host.Cell} (hx : x ∈ m) : Memory.lookup m x.1 = some x.2 := by
  induction m with
  | nil => simp at hx
  | cons c m ih =>
    obtain ⟨hc, hm⟩ := List.pairwise_cons.mp h
    rcases List.mem_cons.mp hx with rfl | hx
    · simp [Memory.lookup_cons]
    · have : ¬ c.1 = x.1 := by have := hc x hx; omega
      simp [Memory.lookup_cons, this, ih hm hx]

theorem Memory.mem_of_lookup {m : Memory} {a : Nat} {v : Byte} (h : Memory.lookup m a = some v) : (a, v) ∈ m := by
  induction m with
  | nil => simp at h
  | cons c m ih =>
    rw [Memory.lookup_cons] at h
    split at h
    · next hc => simp only [Option.some.injEq] at h; subst hc; subst h; simp
    · exact List.mem_cons_of_mem _ (ih h)

/-- Two memories in canonical form that answer every lookup alike are the same list. -/
theorem Memory.eq_of_lookup {m n : Memory} (hm : Memory.wf m) (hn : Memory.wf n)
    (h : ∀ a, Memory.lookup m a = Memory.lookup n a) : m = n := by
  have anti : ∀ x y : Host.Cell, x.1 < y.1 → y.1 < x.1 → x = y := fun x y h1 h2 => by omega
  refine List.Perm.eq_of_pairwise (le := fun x y => x.1 < y.1) (fun x y _ _ => anti x y) hm hn ?_
  refine (List.perm_ext_iff_of_nodup ?_ ?_).mpr fun x => ?_
  · exact hm.imp fun h e => by subst e; omega
  · exact hn.imp fun h e => by subst e; omega
  · constructor
    · intro hx; exact Memory.mem_of_lookup ((h x.1).symm.trans (Memory.lookup_of_mem hm hx))
    · intro hx; exact Memory.mem_of_lookup ((h x.1).trans (Memory.lookup_of_mem hn hx))

/-- Writing the byte an address already lists leaves the memory as it is. -/
theorem Memory.write_eq_self {m : Memory} (hm : Memory.wf m) {a : Nat} {v : Byte} (h : Memory.lookup m a = some v) :
    Memory.write m a v = m := by
  refine Memory.eq_of_lookup (Memory.write_wf hm a v) hm fun x => ?_
  by_cases hx : x = a
  · subst hx; rw [Memory.lookup_write_same, h]
  · exact Memory.lookup_write_other m v hx

theorem Memory.lookup_append (m n : Memory) (a : Nat) :
    Memory.lookup (m ++ n) a = (Memory.lookup m a).or (Memory.lookup n a) := by
  induction m with
  | nil => simp
  | cons c m ih =>
    rw [List.cons_append, Memory.lookup_cons, Memory.lookup_cons]
    split <;> simp [ih]

theorem Memory.lookup_filter (m : Memory) (p : Nat → Bool) (a : Nat) :
    Memory.lookup (m.filter fun x => p x.1) a = if p a then Memory.lookup m a else none := by
  induction m with
  | nil => simp
  | cons c m ih =>
    by_cases hp : p c.1
    · rw [List.filter_cons_of_pos (by simpa using hp), Memory.lookup_cons, Memory.lookup_cons, ih]
      by_cases hc : c.1 = a
      · subst hc; simp [hp]
      · simp [hc]
    · rw [List.filter_cons_of_neg (by simpa using hp), Memory.lookup_cons, ih]
      by_cases hc : c.1 = a
      · subst hc; simp [hp]
      · simp [hc]

/-- Moving every cell by an injective change of address. -/
theorem Memory.lookup_map (m : Memory) (g : Nat → Nat) (a : Nat) (hg : ∀ x ∈ m, g x.1 = g a → x.1 = a) :
    Memory.lookup (m.map fun x => (g x.1, x.2)) (g a) = Memory.lookup m a := by
  induction m with
  | nil => rfl
  | cons c m ih =>
    rw [List.map_cons, Memory.lookup_cons, Memory.lookup_cons, ih fun x hx => hg x (List.mem_cons_of_mem _ hx)]
    by_cases hc : c.1 = a
    · simp [hc]
    · have : ¬ g c.1 = g a := fun e => hc (hg c (by simp) e)
      simp [hc, this]

theorem Memory.lookup_eq_none_of_not_mem {m : Memory} {a : Nat} (h : ∀ x ∈ m, x.1 ≠ a) : Memory.lookup m a = none := by
  induction m with
  | nil => rfl
  | cons c m ih =>
    simp [Memory.lookup_cons, h c (by simp), ih fun x hx => h x (List.mem_cons_of_mem _ hx)]

/-! ### Bytes and words of the frame store -/

@[simp] theorem FrameStore.writeByte_cells (f : FrameStore) (a : Nat) (v : Byte) :
    (f.writeByte a v).cells = f.cells.write a v := rfl

@[simp] theorem FrameStore.unlisted_writeByte (c : Config) (f : FrameStore) (a x : Nat) (v : Byte) :
    (f.writeByte a v).unlisted c x = f.unlisted c x := rfl

@[simp] theorem FrameStore.readByte_writeByte_same (c : Config) (f : FrameStore) (a : Nat) (v : Byte) :
    (f.writeByte a v).readByte c a = v := by
  simp [FrameStore.readByte, Memory.lookup_write_same]

theorem FrameStore.readByte_writeByte_other (c : Config) (f : FrameStore) {a x : Nat} (v : Byte) (h : x ≠ a) :
    (f.writeByte a v).readByte c x = f.readByte c x := by
  simp [FrameStore.readByte, Memory.lookup_write_other _ _ h]

theorem byteLane_wordOfLanes (w : Word) : wordOfLanes (byteLane w 0) (byteLane w 1) (byteLane w 2) (byteLane w 3) = w := by
  refine BitVec.eq_of_getLsbD_eq fun i hi => ?_
  simp only [wordOfLanes, byteLane, BitVec.getLsbD_append, BitVec.getLsbD_extractLsb']
  repeat' split
  all_goals
    rw [decide_eq_true (by omega), Bool.true_and]
    congr 1
    omega

/-- The four bytes of a word, read back as written. -/
theorem FrameStore.readByte_writeWord (c : Config) (f : FrameStore) (a x : Nat) (v : Word) :
    (f.writeWord a v).readByte c x = if a ≤ x ∧ x < a + 4 then byteLane v (x - a) else f.readByte c x := by
  unfold FrameStore.writeWord
  by_cases h3 : x = a + 3
  · subst h3; simp
  rw [FrameStore.readByte_writeByte_other _ _ _ h3]
  by_cases h2 : x = a + 2
  · subst h2; simp
  rw [FrameStore.readByte_writeByte_other _ _ _ h2]
  by_cases h1 : x = a + 1
  · subst h1; simp
  rw [FrameStore.readByte_writeByte_other _ _ _ h1]
  by_cases h0 : x = a
  · subst h0; simp
  rw [FrameStore.readByte_writeByte_other _ _ _ h0, if_neg (by omega)]

/-- What a word write lists. -/
theorem FrameStore.lookup_writeWord (f : FrameStore) (a x : Nat) (v : Word) :
    (f.writeWord a v).cells.lookup x = if a ≤ x ∧ x < a + 4 then some (byteLane v (x - a)) else f.cells.lookup x := by
  unfold FrameStore.writeWord
  simp only [FrameStore.writeByte_cells]
  by_cases h3 : x = a + 3
  · subst h3; simp [Memory.lookup_write_same]
  rw [Memory.lookup_write_other _ _ h3]
  by_cases h2 : x = a + 2
  · subst h2; simp [Memory.lookup_write_same]
  rw [Memory.lookup_write_other _ _ h2]
  by_cases h1 : x = a + 1
  · subst h1; simp [Memory.lookup_write_same]
  rw [Memory.lookup_write_other _ _ h1]
  by_cases h0 : x = a
  · subst h0; simp [Memory.lookup_write_same]
  rw [Memory.lookup_write_other _ _ h0, if_neg (by omega)]

/-- Two frame stores in canonical form with the same draws that list the same bytes are equal. -/
theorem FrameStore.eq_of_lookup {f g : FrameStore} (hf : Memory.wf f.cells) (hg : Memory.wf g.cells)
    (he : f.epoch = g.epoch) (h0 : f.src0 = g.src0) (h1 : f.src1 = g.src1)
    (h : ∀ a, f.cells.lookup a = g.cells.lookup a) : f = g := by
  obtain ⟨fc, fe, f0, f1⟩ := f
  obtain ⟨gc, ge, g0, g1⟩ := g
  simp only at he h0 h1
  subst he; subst h0; subst h1
  have e : fc = gc := Memory.eq_of_lookup hf hg h
  rw [e]

/-- Read after write at the same address. -/
@[simp] theorem FrameStore.readWord_writeWord_same (c : Config) (f : FrameStore) (a : Nat) (v : Word) :
    (f.writeWord a v).readWord c a = v := by
  unfold FrameStore.readWord
  simp only [FrameStore.readByte_writeWord]
  rw [if_pos (by omega), if_pos (by omega), if_pos (by omega), if_pos (by omega)]
  rw [show a - a = 0 by omega, show a + 1 - a = 1 by omega, show a + 2 - a = 2 by omega, show a + 3 - a = 3 by omega]
  exact byteLane_wordOfLanes v

/-- A write leaves every word that does not overlap it alone. -/
theorem FrameStore.readWord_writeWord_other (c : Config) (f : FrameStore) {a x : Nat} (v : Word)
    (h : x + 4 ≤ a ∨ a + 4 ≤ x) : (f.writeWord a v).readWord c x = f.readWord c x := by
  unfold FrameStore.readWord
  simp only [FrameStore.readByte_writeWord]
  rw [if_neg (by omega), if_neg (by omega), if_neg (by omega), if_neg (by omega)]

theorem FrameStore.writeWord_wf {f : FrameStore} (h : Memory.wf f.cells) (a : Nat) (v : Word) :
    Memory.wf (f.writeWord a v).cells :=
  Memory.write_wf (Memory.write_wf (Memory.write_wf (Memory.write_wf h _ _) _ _) _ _) _ _

theorem FrameStore.mem_writeWord {f : FrameStore} {a : Nat} {v : Word} {x : Host.Cell}
    (h : x ∈ (f.writeWord a v).cells) : (a ≤ x.1 ∧ x.1 < a + 4) ∨ x ∈ f.cells := by
  rcases Memory.mem_write h with rfl | h
  · exact .inl (by simp)
  rcases Memory.mem_write h with rfl | h
  · exact .inl (by simp)
  rcases Memory.mem_write h with rfl | h
  · exact .inl (by simp)
  rcases Memory.mem_write h with rfl | h
  · exact .inl (by simp)
  · exact .inr h

/-! ### The copy of a buffer -/

theorem buffer_zero_or_one (u : Buffer) : u = 0 ∨ u = 1 := by revert u; decide

theorem otherBuffer_ne (u : Buffer) : otherBuffer u ≠ u := by revert u; decide

@[simp] theorem otherBuffer_otherBuffer (u : Buffer) : otherBuffer (otherBuffer u) = u := by revert u; decide

theorem buffer_cases (u v : Buffer) : v = u ∨ v = otherBuffer u := by revert u v; decide

theorem bufBase_zero (c : Config) : bufBase c 0 = c.fbBase := by simp [bufBase]

theorem bufBase_one (c : Config) : bufBase c 1 = c.fbBase + c.bufSize := by simp [bufBase]

theorem inBuffer_iff (c : Config) (u : Buffer) (a : Nat) :
    inBuffer c u a = true ↔ bufBase c u ≤ a ∧ a < bufBase c u + c.bufSize := by
  simp [inBuffer]

theorem bufferOf_eq {c : Config} {u : Buffer} {a : Nat} (h : inBuffer c u a = true) : bufferOf c a = u := by
  rw [inBuffer_iff] at h
  have h1 := bufBase_one c
  have h0 := bufBase_zero c
  unfold bufferOf
  fin_cases u
  · rw [if_pos (by simp only [Fin.zero_eta, Fin.isValue] at h; omega)]; rfl
  · rw [if_neg (by simp only [Fin.mk_one, Fin.isValue] at h; omega)]; rfl

theorem not_inBuffer_other {c : Config} {u : Buffer} {a : Nat} (h : inBuffer c u a = true) :
    inBuffer c (otherBuffer u) a = false := by
  by_contra hc
  have h1 := bufferOf_eq h
  have h2 := bufferOf_eq (Bool.not_eq_false _ ▸ hc : inBuffer c (otherBuffer u) a = true)
  exact otherBuffer_ne u (h2.symm.trans h1)

theorem inBuffer_move {c : Config} {u v : Buffer} {a : Nat} (h : inBuffer c u a = true) :
    inBuffer c v (a - bufBase c u + bufBase c v) = true := by
  rw [inBuffer_iff] at *; omega

@[simp] theorem FrameStore.copyFrom_epoch (c : Config) (f : FrameStore) (u : Buffer) : (f.copyFrom c u).epoch = f.epoch := rfl

@[simp] theorem FrameStore.copyFrom_src (c : Config) (f : FrameStore) (u v : Buffer) : (f.copyFrom c u).src v = f.src u := by
  simp [FrameStore.copyFrom, FrameStore.src]

theorem FrameStore.copyFrom_lookup_own (c : Config) (f : FrameStore) {u : Buffer} {a : Nat} (h : inBuffer c u a = true) :
    (f.copyFrom c u).cells.lookup a = f.cells.lookup a := by
  have hown : Memory.lookup (f.cells.filter fun x => inBuffer c u x.1) a = f.cells.lookup a := by
    rw [Memory.lookup_filter f.cells (inBuffer c u), if_pos h]
  have hmoved : Memory.lookup ((f.cells.filter fun x => inBuffer c u x.1).map
      fun x => (x.1 - bufBase c u + bufBase c (otherBuffer u), x.2)) a = none := by
    refine Memory.lookup_eq_none_of_not_mem fun x hx e => ?_
    obtain ⟨y, hy, rfl⟩ := List.mem_map.mp hx
    have hy' : inBuffer c u y.1 = true := (List.mem_filter.mp hy).2
    have := inBuffer_move (v := otherBuffer u) hy'
    simp only at e
    rw [e, not_inBuffer_other h] at this
    exact absurd this (by simp)
  unfold FrameStore.copyFrom
  simp only
  split <;> rw [Memory.lookup_append, hown, hmoved] <;> simp

theorem FrameStore.copyFrom_lookup_other (c : Config) (f : FrameStore) {u : Buffer} {a : Nat} (h : inBuffer c u a = true) :
    (f.copyFrom c u).cells.lookup (a - bufBase c u + bufBase c (otherBuffer u)) = f.cells.lookup a := by
  have hout := not_inBuffer_other (inBuffer_move (v := otherBuffer u) h)
  rw [otherBuffer_otherBuffer] at hout
  have hown : Memory.lookup (f.cells.filter fun x => inBuffer c u x.1)
      (a - bufBase c u + bufBase c (otherBuffer u)) = none := by
    rw [Memory.lookup_filter f.cells (inBuffer c u), if_neg (by simp [hout])]
  have hmoved : Memory.lookup ((f.cells.filter fun x => inBuffer c u x.1).map
      fun x => (x.1 - bufBase c u + bufBase c (otherBuffer u), x.2)) (a - bufBase c u + bufBase c (otherBuffer u))
      = f.cells.lookup a := by
    rw [Memory.lookup_map _ (fun y => y - bufBase c u + bufBase c (otherBuffer u)) a, Memory.lookup_filter f.cells (inBuffer c u), if_pos h]
    intro x hx e
    have hx' := (inBuffer_iff c u x.1).mp (List.mem_filter.mp hx).2
    have ha := (inBuffer_iff c u a).mp h
    omega
  unfold FrameStore.copyFrom
  simp only
  split <;> rw [Memory.lookup_append, hown, hmoved] <;> simp

/-- The copied buffer keeps every byte. -/
theorem FrameStore.copyFrom_readByte_own (c : Config) (f : FrameStore) {u : Buffer} {a : Nat} (h : inBuffer c u a = true) :
    (f.copyFrom c u).readByte c a = f.readByte c a := by
  unfold FrameStore.readByte FrameStore.unlisted
  rw [FrameStore.copyFrom_lookup_own c f h, FrameStore.copyFrom_src, bufferOf_eq h, FrameStore.copyFrom_epoch]

/-- The other buffer reads, byte for byte, as the copied one. -/
theorem FrameStore.copyFrom_readByte_other (c : Config) (f : FrameStore) {u : Buffer} {a : Nat} (h : inBuffer c u a = true) :
    (f.copyFrom c u).readByte c (a - bufBase c u + bufBase c (otherBuffer u)) = f.readByte c a := by
  unfold FrameStore.readByte FrameStore.unlisted
  rw [FrameStore.copyFrom_lookup_other c f h, FrameStore.copyFrom_src, bufferOf_eq (inBuffer_move h), bufferOf_eq h,
    FrameStore.copyFrom_epoch]
  congr 2
  rw [inBuffer_iff] at h
  omega

theorem FrameStore.copyFrom_wf {c : Config} {f : FrameStore} (h : Memory.wf f.cells) (u : Buffer) :
    Memory.wf (f.copyFrom c u).cells := by
  have hown : Memory.wf (f.cells.filter fun x => inBuffer c u x.1) := h.filter _
  have hmem : ∀ x ∈ f.cells.filter (fun x => inBuffer c u x.1), bufBase c u ≤ x.1 ∧ x.1 < bufBase c u + c.bufSize :=
    fun x hx => (inBuffer_iff c u x.1).mp (List.mem_filter.mp hx).2
  have hmoved : Memory.wf ((f.cells.filter fun x => inBuffer c u x.1).map
      fun x => (x.1 - bufBase c u + bufBase c (otherBuffer u), x.2)) := by
    refine List.pairwise_map.mpr (hown.imp_of_mem fun {x y} hx hy hxy => ?_)
    have := hmem x hx
    have := hmem y hy
    simp only
    omega
  have h0 := bufBase_zero c
  have h1 := bufBase_one c
  unfold FrameStore.copyFrom
  simp only
  split
  · next hu =>
    subst hu
    refine List.pairwise_append.mpr ⟨hown, hmoved, fun x hx y hy => ?_⟩
    obtain ⟨z, hz, rfl⟩ := List.mem_map.mp hy
    have := hmem x hx
    have : bufBase c (otherBuffer 0) = bufBase c 1 := rfl
    simp only
    omega
  · next hu =>
    have hu : u = 1 := (buffer_zero_or_one u).resolve_left hu
    subst hu
    refine List.pairwise_append.mpr ⟨hmoved, hown, fun x hx y hy => ?_⟩
    obtain ⟨z, hz, rfl⟩ := List.mem_map.mp hx
    have := hmem y hy
    have := hmem z hz
    have : bufBase c (otherBuffer 1) = bufBase c 0 := rfl
    simp only
    omega

theorem FrameStore.mem_copyFrom {c : Config} {f : FrameStore} {u : Buffer} {x : Host.Cell}
    (h : x ∈ (f.copyFrom c u).cells) : inBuffer c 0 x.1 = true ∨ inBuffer c 1 x.1 = true := by
  have either : ∀ v : Buffer, inBuffer c v x.1 = true → inBuffer c 0 x.1 = true ∨ inBuffer c 1 x.1 = true := by
    intro v hv
    rcases buffer_zero_or_one v with rfl | rfl
    · exact .inl hv
    · exact .inr hv
  have hcases : x ∈ f.cells.filter (fun x => inBuffer c u x.1) ∨ x ∈ (f.cells.filter fun x => inBuffer c u x.1).map
      fun x => (x.1 - bufBase c u + bufBase c (otherBuffer u), x.2) := by
    unfold FrameStore.copyFrom at h
    simp only at h
    split at h
    · exact List.mem_append.mp h
    · exact (List.mem_append.mp h).symm
  rcases hcases with hx | hx
  · exact either u (List.mem_filter.mp hx).2
  · obtain ⟨y, hy, rfl⟩ := List.mem_map.mp hx
    exact either (otherBuffer u) (inBuffer_move (List.mem_filter.mp hy).2)

/-! ### Addresses of plane words -/

theorem inFb_iff (c : Config) (a : Nat) : inFb c a = true ↔ c.fbBase ≤ a ∧ a < c.fbBase + c.fbSize := by
  simp [inFb]

theorem inFb_of_inBuffer {c : Config} {u : Buffer} {a : Nat} (h : inBuffer c u a = true) : inFb c a = true := by
  rw [inBuffer_iff] at h
  rw [inFb_iff]
  have h0 := bufBase_zero c
  have h1 := bufBase_one c
  unfold Config.fbSize
  rcases buffer_zero_or_one u with rfl | rfl <;> omega

/-- The offset of a plane word in its buffer. -/
theorem fbAddr_eq (c : Config) (u : Buffer) (b j k : Nat) :
    fbAddr c u b j k = bufBase c u + ((b * c.slots + j) * 8 + k) * 4 := by
  simp only [fbAddr, bufBase, Config.bufSize]
  ring

theorem fbOffset_lt {c : Config} {b j k : Nat} (hb : b < c.boards) (hj : j < c.slots) (hk : k < 8) :
    ((b * c.slots + j) * 8 + k) * 4 + 4 ≤ c.bufSize := by
  have h1 : b * c.slots + j + 1 ≤ c.boards * c.slots := by
    have : (b + 1) * c.slots ≤ c.boards * c.slots := Nat.mul_le_mul_right _ hb
    rw [Nat.add_mul] at this
    omega
  unfold Config.bufSize
  omega

/-- The four bytes of a plane word lie in its buffer (R62). -/
theorem fbAddr_inBuffer {c : Config} {u : Buffer} {b j k i : Nat} (hb : b < c.boards) (hj : j < c.slots) (hk : k < 8)
    (hi : i < 4) : inBuffer c u (fbAddr c u b j k + i) = true := by
  have := fbOffset_lt hb hj hk
  rw [inBuffer_iff, fbAddr_eq]
  omega

/-- Different plane words do not overlap (R63). -/
theorem fbAddr_disjoint {c : Config} {u v : Buffer} {b b' j j' k k' : Nat} (hb : b < c.boards) (hb' : b' < c.boards)
    (hj : j < c.slots) (hj' : j' < c.slots) (hk : k < 8) (hk' : k' < 8)
    (h : (u, b, j, k) ≠ (v, b', j', k')) :
    fbAddr c u b j k + 4 ≤ fbAddr c v b' j' k' ∨ fbAddr c v b' j' k' + 4 ≤ fbAddr c u b j k := by
  have h1 := fbOffset_lt (k := k) hb hj hk
  have h2 := fbOffset_lt (k := k') hb' hj' hk'
  rw [fbAddr_eq, fbAddr_eq]
  by_cases huv : u = v
  · subst huv
    have key : (b * c.slots + j) * 8 + k ≠ (b' * c.slots + j') * 8 + k' := by
      intro e
      have hk2 : k = k' := by omega
      have hbj : b * c.slots + j = b' * c.slots + j' := by omega
      have hb2 : b = b' := by
        rcases Nat.lt_trichotomy b b' with hlt | heq | hlt
        · have : (b + 1) * c.slots ≤ b' * c.slots := Nat.mul_le_mul_right _ hlt
          rw [Nat.add_mul] at this; omega
        · exact heq
        · have : (b' + 1) * c.slots ≤ b * c.slots := Nat.mul_le_mul_right _ hlt
          rw [Nat.add_mul] at this; omega
      subst hb2
      exact h (by rw [hk2, show j = j' by omega])
    omega
  · have h0 := bufBase_zero c
    have h1 := bufBase_one c
    have hcase : u = 0 ∧ v = 1 ∨ u = 1 ∧ v = 0 := by clear h; revert u v; decide
    rcases hcase with ⟨rfl, rfl⟩ | ⟨rfl, rfl⟩ <;> omega

/-- The copied buffer keeps every plane word. -/
theorem FrameStore.copyFrom_plane_own {c : Config} (f : FrameStore) {u : Buffer} {b j k : Nat} (hb : b < c.boards)
    (hj : j < c.slots) (hk : k < 8) : (f.copyFrom c u).plane c u b j k = f.plane c u b j k := by
  have h : ∀ i, i < 4 → (f.copyFrom c u).readByte c (fbAddr c u b j k + i) = f.readByte c (fbAddr c u b j k + i) :=
    fun i hi => FrameStore.copyFrom_readByte_own c f (fbAddr_inBuffer hb hj hk hi)
  unfold FrameStore.plane FrameStore.readWord
  rw [h 1 (by omega), h 2 (by omega), h 3 (by omega), show fbAddr c u b j k = fbAddr c u b j k + 0 from rfl, h 0 (by omega)]

/-- The other buffer takes every plane word of the copied one (R140, R141). -/
theorem FrameStore.copyFrom_plane_other {c : Config} (f : FrameStore) {u : Buffer} {b j k : Nat} (hb : b < c.boards)
    (hj : j < c.slots) (hk : k < 8) : (f.copyFrom c u).plane c (otherBuffer u) b j k = f.plane c u b j k := by
  have h := fun i hi => FrameStore.copyFrom_readByte_other c f (fbAddr_inBuffer (u := u) (i := i) hb hj hk hi)
  have e : ∀ i, fbAddr c u b j k + i - bufBase c u + bufBase c (otherBuffer u) = fbAddr c (otherBuffer u) b j k + i := by
    intro i; rw [fbAddr_eq, fbAddr_eq]; omega
  simp only [e] at h
  unfold FrameStore.plane FrameStore.readWord
  rw [h 1 (by omega), h 2 (by omega), h 3 (by omega),
    show fbAddr c (otherBuffer u) b j k = fbAddr c (otherBuffer u) b j k + 0 from rfl, h 0 (by omega)]
  rfl

end Sys2Proof.Machine
end

