-- ==== Sys2Proof/Laws/Codec.lean ====
section
/-! SUPPORT. What ENCODE does to the frame store: the updates of a list of plane bits, and the 24 plane bits of a pixel. -/

namespace Sys2Proof.Machine

/-- Bit i of a word with bit pos replaced. -/
theorem getLsbD_putBit (old : Word) {pos : Nat} (b : Bool) (i : Nat) (hp : pos < 32) :
    (putBit old pos b).getLsbD i = if i = pos then b else old.getLsbD i := by
  unfold putBit
  by_cases hi : i < 32
  · by_cases h : i = pos
    · subst h; cases b <;> simp [hi]
    · rw [if_neg h]
      have h1 : (1#32 <<< pos).getLsbD i = false := by
        simp only [BitVec.getLsbD_shiftLeft, BitVec.getLsbD_one]
        by_cases hlt : i < pos
        · simp [hlt]
        · have : i - pos ≠ 0 := by omega
          simp [this]
      have h2 : ((BitVec.setWidth 32 (BitVec.ofBool b)) <<< pos).getLsbD i = false := by
        simp only [BitVec.getLsbD_shiftLeft, BitVec.getLsbD_setWidth, BitVec.getLsbD_ofBool]
        by_cases hlt : i < pos
        · simp [hlt]
        · have : i - pos ≠ 0 := by omega
          simp [this]
      rw [BitVec.getLsbD_or, BitVec.getLsbD_and, BitVec.getLsbD_not, h1, h2]
      simp [hi]
  · have : i ≠ pos := by omega
    rw [if_neg this, BitVec.getLsbD_of_ge _ _ (by omega), BitVec.getLsbD_of_ge _ _ (by omega)]

/-- Replacing a bit a second time is replacing it once. -/
theorem putBit_putBit (old : Word) {pos : Nat} (b d : Bool) (hp : pos < 32) :
    putBit (putBit old pos b) pos d = putBit old pos d := by
  refine BitVec.eq_of_getLsbD_eq fun i _ => ?_
  simp only [getLsbD_putBit _ _ _ hp]
  split <;> rfl

/-! ### Lists of updates -/

@[simp] theorem FrameStore.putPlaneBits_nil (c : Config) (pos : Nat) (f : FrameStore) : f.putPlaneBits c pos [] = f := rfl

theorem FrameStore.putPlaneBits_cons (c : Config) (pos : Nat) (f : FrameStore) (t : PlaneBit) (ts : List PlaneBit) :
    f.putPlaneBits c pos (t :: ts) = (f.putPlaneBit c pos t).putPlaneBits c pos ts := rfl

/-- The words of the updates do not overlap. -/
abbrev Apart (ts : List PlaneBit) : Prop := ts.Pairwise fun x y => x.addr + 4 ≤ y.addr ∨ y.addr + 4 ≤ x.addr

/-- A byte outside the words of the updates keeps its value. -/
theorem FrameStore.putPlaneBits_readByte_outside (c : Config) (pos : Nat) (ts : List PlaneBit) (f : FrameStore) {a : Nat}
    (h : ∀ t ∈ ts, a < t.addr ∨ t.addr + 4 ≤ a) : (f.putPlaneBits c pos ts).readByte c a = f.readByte c a := by
  induction ts generalizing f with
  | nil => rfl
  | cons t ts ih =>
    rw [FrameStore.putPlaneBits_cons, ih _ fun x hx => h x (List.mem_cons_of_mem _ hx)]
    have := h t (by simp)
    rw [FrameStore.putPlaneBit, FrameStore.readByte_writeWord, if_neg (by omega)]

/-- A word outside the words of the updates keeps its value. -/
theorem FrameStore.putPlaneBits_readWord_outside (c : Config) (pos : Nat) (ts : List PlaneBit) (f : FrameStore) {a : Nat}
    (h : ∀ t ∈ ts, a + 4 ≤ t.addr ∨ t.addr + 4 ≤ a) : (f.putPlaneBits c pos ts).readWord c a = f.readWord c a := by
  unfold FrameStore.readWord
  have e : ∀ i, i < 4 → (f.putPlaneBits c pos ts).readByte c (a + i) = f.readByte c (a + i) := fun i hi =>
    FrameStore.putPlaneBits_readByte_outside c pos ts f fun t ht => by have := h t ht; omega
  rw [e 1 (by omega), e 2 (by omega), e 3 (by omega), show a = a + 0 from rfl, e 0 (by omega)]

/-- Each updated word takes its bit, and only that. -/
theorem FrameStore.putPlaneBits_readWord_mem (c : Config) (pos : Nat) (ts : List PlaneBit) (f : FrameStore) (h : Apart ts)
    {t : PlaneBit} (ht : t ∈ ts) :
    (f.putPlaneBits c pos ts).readWord c t.addr = putBit (f.readWord c t.addr) pos t.value := by
  induction ts generalizing f with
  | nil => simp at ht
  | cons x ts ih =>
    obtain ⟨hx, hts⟩ := List.pairwise_cons.mp h
    rw [FrameStore.putPlaneBits_cons]
    rcases List.mem_cons.mp ht with rfl | ht
    · rw [FrameStore.putPlaneBits_readWord_outside c pos ts _ fun y hy => hx y hy]
      simp [FrameStore.putPlaneBit]
    · rw [ih _ hts ht]
      have := hx t ht
      rw [FrameStore.putPlaneBit, FrameStore.readWord_writeWord_other _ _ _ (by omega)]

/-- A byte outside the words of the updates is listed as before. -/
theorem FrameStore.putPlaneBits_lookup_outside (c : Config) (pos : Nat) (ts : List PlaneBit) (f : FrameStore) {a : Nat}
    (h : ∀ t ∈ ts, a < t.addr ∨ t.addr + 4 ≤ a) : (f.putPlaneBits c pos ts).cells.lookup a = f.cells.lookup a := by
  induction ts generalizing f with
  | nil => rfl
  | cons t ts ih =>
    rw [FrameStore.putPlaneBits_cons, ih _ fun x hx => h x (List.mem_cons_of_mem _ hx)]
    have := h t (by simp)
    rw [FrameStore.putPlaneBit, FrameStore.lookup_writeWord, if_neg (by omega)]

/-- The bytes of each updated word are listed, with the updated word's value. -/
theorem FrameStore.putPlaneBits_lookup_mem (c : Config) (pos : Nat) (ts : List PlaneBit) (f : FrameStore) (h : Apart ts)
    {t : PlaneBit} (ht : t ∈ ts) {a : Nat} (ha : t.addr ≤ a ∧ a < t.addr + 4) :
    (f.putPlaneBits c pos ts).cells.lookup a =
      some (byteLane (putBit (f.readWord c t.addr) pos t.value) (a - t.addr)) := by
  induction ts generalizing f with
  | nil => simp at ht
  | cons x ts ih =>
    obtain ⟨hx, hts⟩ := List.pairwise_cons.mp h
    rw [FrameStore.putPlaneBits_cons]
    rcases List.mem_cons.mp ht with rfl | ht
    · rw [FrameStore.putPlaneBits_lookup_outside c pos ts _ fun y hy => by have := hx y hy; omega, FrameStore.putPlaneBit,
        FrameStore.lookup_writeWord, if_pos ha]
    · rw [ih _ hts ht]
      have := hx t ht
      rw [FrameStore.putPlaneBit, FrameStore.readWord_writeWord_other _ _ _ (by omega)]

@[simp] theorem FrameStore.putPlaneBits_src0 (c : Config) (pos : Nat) (ts : List PlaneBit) (f : FrameStore) :
    (f.putPlaneBits c pos ts).src0 = f.src0 := by
  induction ts generalizing f with
  | nil => rfl
  | cons t ts ih => exact ih _

@[simp] theorem FrameStore.putPlaneBits_src1 (c : Config) (pos : Nat) (ts : List PlaneBit) (f : FrameStore) :
    (f.putPlaneBits c pos ts).src1 = f.src1 := by
  induction ts generalizing f with
  | nil => rfl
  | cons t ts ih => exact ih _

theorem FrameStore.putPlaneBits_wf (c : Config) (pos : Nat) (ts : List PlaneBit) {f : FrameStore}
    (h : Memory.wf f.cells) : Memory.wf (f.putPlaneBits c pos ts).cells := by
  induction ts generalizing f with
  | nil => exact h
  | cons t ts ih => exact ih (FrameStore.writeWord_wf h _ _)

theorem FrameStore.mem_putPlaneBits (c : Config) (pos : Nat) (ts : List PlaneBit) {f : FrameStore} {x : Host.Cell}
    (h : x ∈ (f.putPlaneBits c pos ts).cells) : (∃ t ∈ ts, t.addr ≤ x.1 ∧ x.1 < t.addr + 4) ∨ x ∈ f.cells := by
  induction ts generalizing f with
  | nil => exact .inr h
  | cons t ts ih =>
    rcases ih h with ⟨y, hy, hxy⟩ | h
    · exact .inl ⟨y, List.mem_cons_of_mem _ hy, hxy⟩
    · rcases FrameStore.mem_writeWord h with h | h
      · exact .inl ⟨t, by simp, h⟩
      · exact .inr h

@[simp] theorem FrameStore.putPlaneBits_epoch (c : Config) (pos : Nat) (ts : List PlaneBit) (f : FrameStore) :
    (f.putPlaneBits c pos ts).epoch = f.epoch := by
  induction ts generalizing f with
  | nil => rfl
  | cons t ts ih => exact ih _

/-! ### The plane bits of a pixel -/

theorem mem_planes (k : Nat) : k ∈ [0, 1, 2, 3, 4, 5, 6, 7] ↔ k < 8 := by
  simp only [List.mem_cons, List.not_mem_nil, or_false]
  constructor
  · rintro (h | h | h | h | h | h | h | h) <;> omega
  · intro h; omega

theorem mem_pixelBits {c : Config} {u : Buffer} {b p : Nat} {rgb : Word} {t : PlaneBit} :
    t ∈ pixelBits c u b p rgb ↔ ∃ ch k, k < 8 ∧
      t = { addr := fbAddr c u b (slotOf p ch) k, value := (channel rgb ch).getLsbD (7 - k) } := by
  have hk : ∀ k : Nat, k ∈ [0, 1, 2, 3, 4, 5, 6, 7] ↔ k < 8 := mem_planes
  unfold pixelBits channelBits
  simp only [List.mem_flatMap, List.mem_map]
  constructor
  · rintro ⟨ch, _, k, hk', rfl⟩
    exact ⟨ch, k, (hk k).mp hk', rfl⟩
  · rintro ⟨ch, k, hk', rfl⟩
    exact ⟨ch, by cases ch <;> simp, k, (hk k).mpr hk', rfl⟩

/-- The slots of a pixel in range are slots of the configuration. -/
theorem slotOf_lt {c : Config} {p : Nat} (hp : p < c.numPixels) (ch : Channel) : slotOf p ch < c.slots := by
  unfold slotOf Config.slots
  cases ch <;> simp only [Channel.index] <;> omega

theorem slotOf_inj {p : Nat} {ch ch' : Channel} (h : slotOf p ch = slotOf p ch') : ch = ch' := by
  cases ch <;> cases ch' <;> simp_all [slotOf, Channel.index]

/-- The 24 words of a pixel follow one another (R62). -/
theorem fbAddr_slotOf (c : Config) (u : Buffer) (b p : Nat) (ch : Channel) (k : Nat) :
    fbAddr c u b (slotOf p ch) k = fbAddr c u b (3 * p) 0 + (8 * ch.index + k) * 4 := by
  unfold fbAddr slotOf
  omega

theorem pixelBits_apart (c : Config) (u : Buffer) (b p : Nat) (rgb : Word) : Apart (pixelBits c u b p rgb) := by
  unfold Apart pixelBits channelBits
  refine List.pairwise_flatMap.mpr ⟨fun ch _ => List.pairwise_map.mpr ?_, ?_⟩
  · have hne : [0, 1, 2, 3, 4, 5, 6, 7].Pairwise (fun x y : Nat => x ≠ y) := by decide
    refine hne.imp fun {x y} h => ?_
    simp only [fbAddr_slotOf]
    omega
  · have hne : [Channel.red, .green, .blue].Pairwise (fun x y => x.index ≠ y.index) := by decide
    refine hne.imp fun {x y} h a ha d hd => ?_
    obtain ⟨k, hk, rfl⟩ := List.mem_map.mp ha
    obtain ⟨l, hl, rfl⟩ := List.mem_map.mp hd
    rw [mem_planes] at hk hl
    simp only [fbAddr_slotOf]
    omega

/-- What an accepted ENCODE answers. -/
theorem execEncodePixel_accepted {s : State} {b st p : Nat} (hb : s.busy = false) (h1 : b < s.cfg.boards)
    (h2 : st < s.cfg.strips) (h3 : p < s.cfg.numPixels) :
    execEncodePixel b st p s =
      .next (s.withFb (s.fb.putPlaneBits s.cfg (st + s.cfg.off) (pixelBits s.cfg s.active b p s.rgb))) := by
  simp [execEncodePixel, hb, inRange, h1, h2, h3]

/-- Everything ENCODE can do. -/
theorem execEncodePixel_cases (b st p : Nat) (s : State) :
    (s.busy = true ∧ execEncodePixel b st p s = .next (s.raise .errBusy)) ∨
    (s.busy = false ∧ (s.cfg.boards ≤ b ∨ s.cfg.strips ≤ st ∨ s.cfg.numPixels ≤ p) ∧
      execEncodePixel b st p s = .next (s.raise .errAddr)) ∨
    (s.busy = false ∧ b < s.cfg.boards ∧ st < s.cfg.strips ∧ p < s.cfg.numPixels ∧
      execEncodePixel b st p s =
        .next (s.withFb (s.fb.putPlaneBits s.cfg (st + s.cfg.off) (pixelBits s.cfg s.active b p s.rgb)))) := by
  cases hb : s.busy
  · by_cases hr : b < s.cfg.boards ∧ st < s.cfg.strips ∧ p < s.cfg.numPixels
    · exact .inr (.inr ⟨rfl, hr.1, hr.2.1, hr.2.2, execEncodePixel_accepted hb hr.1 hr.2.1 hr.2.2⟩)
    · refine .inr (.inl ⟨rfl, by omega, ?_⟩)
      have : inRange s.cfg b st p = false := by
        simp only [inRange, Bool.and_eq_false_iff, decide_eq_false_iff_not]; omega
      simp [execEncodePixel, hb, this]
  · exact .inl ⟨rfl, by simp [execEncodePixel, hb]⟩

/-- The word of channel ch, plane k, after an accepted ENCODE. -/
theorem FrameStore.putPixel_plane (c : Config) (pos : Nat) (f : FrameStore) (u : Buffer) (b p : Nat) (rgb : Word)
    (ch : Channel) {k : Nat} (hk : k < 8) :
    (f.putPlaneBits c pos (pixelBits c u b p rgb)).plane c u b (slotOf p ch) k =
      putBit (f.plane c u b (slotOf p ch) k) pos ((channel rgb ch).getLsbD (7 - k)) := by
  have hmem := (mem_pixelBits (c := c) (u := u) (b := b) (p := p) (rgb := rgb)).mpr ⟨ch, k, hk, rfl⟩
  have h := FrameStore.putPlaneBits_readWord_mem c pos _ f (pixelBits_apart c u b p rgb) hmem
  unfold FrameStore.plane
  exact h

/-- Every other plane word keeps its value. -/
theorem FrameStore.putPixel_plane_other (c : Config) (pos : Nat) (f : FrameStore) {u v : Buffer} {b b' p j k : Nat}
    (rgb : Word) (hb : b < c.boards) (hb' : b' < c.boards) (hp : p < c.numPixels) (hj : j < c.slots) (hk : k < 8)
    (h : ¬ (v = u ∧ b' = b ∧ j / 3 = p)) :
    (f.putPlaneBits c pos (pixelBits c u b p rgb)).plane c v b' j k = f.plane c v b' j k := by
  refine FrameStore.putPlaneBits_readWord_outside c pos _ f fun t ht => ?_
  obtain ⟨ch, k', hk', rfl⟩ := mem_pixelBits.mp ht
  refine fbAddr_disjoint hb' hb hj (slotOf_lt hp ch) hk hk' fun e => h ?_
  simp only [Prod.mk.injEq] at e
  refine ⟨e.1, e.2.1, ?_⟩
  rw [e.2.2.1]
  cases ch <;> simp only [slotOf, Channel.index] <;> omega

/-! ### Channels -/

/-- Bit k of a channel is a bit of the colour (R111). -/
theorem getLsbD_channel (x : Word) (ch : Channel) {k : Nat} (hk : k < 8) :
    (channel x ch).getLsbD k = x.getLsbD (16 - 8 * ch.index + k) := by
  have hmask : (0xFF#32).getLsbD k = true := by
    have : ∀ i : Fin 8, (0xFF#32).getLsbD i.val = true := by decide
    exact this ⟨k, hk⟩
  cases ch
  case blue =>
    simp only [channel, Channel.index, BitVec.getLsbD_and, hmask, Bool.and_true]
    rw [show 16 - 8 * 2 + k = k by omega]
  all_goals simp only [channel, Channel.index, BitVec.getLsbD_and, BitVec.getLsbD_ushiftRight, hmask, Bool.and_true]

/-- The colour operand has DATA's bits below 24 (R93). -/
theorem getLsbD_rgb (s : State) {i : Nat} (hi : i < 24) : s.rgb.getLsbD i = s.data.getLsbD i := by
  simp only [State.rgb, BitVec.getLsbD_setWidth, BitVec.getLsbD_extractLsb']
  simp [hi, show i < 32 by omega]

/-- The colour operand as R112 writes it. -/
theorem rgb_eq (s : State) : s.rgb = s.data &&& 0x00FFFFFF#32 := by
  refine BitVec.eq_of_getLsbD_eq fun i hi => ?_
  have hm : (0x00FFFFFF#32).getLsbD i = decide (i < 24) := by
    have : ∀ i : Fin 32, (0x00FFFFFF#32).getLsbD i.val = decide (i.val < 24) := by decide
    exact this ⟨i, hi⟩
  by_cases h : i < 24
  · rw [getLsbD_rgb s h, BitVec.getLsbD_and, hm]; simp [h]
  · rw [BitVec.getLsbD_and, hm]
    simp [State.rgb, BitVec.getLsbD_setWidth, BitVec.getLsbD_extractLsb', h]

/-- Of two colours put to one pixel, the later one is what the frame store holds. -/
theorem FrameStore.putPixel_last (c : Config) {pos : Nat} (hpos : pos < 32) (f : FrameStore) (hwf : Memory.wf f.cells)
    (u : Buffer) (b p : Nat) (x y : Word) :
    (f.putPlaneBits c pos (pixelBits c u b p x)).putPlaneBits c pos (pixelBits c u b p y) =
      f.putPlaneBits c pos (pixelBits c u b p y) := by
  set f1 := f.putPlaneBits c pos (pixelBits c u b p x) with hf1
  have hwf1 : Memory.wf f1.cells := FrameStore.putPlaneBits_wf _ _ _ hwf
  refine FrameStore.eq_of_lookup (FrameStore.putPlaneBits_wf _ _ _ hwf1) (FrameStore.putPlaneBits_wf _ _ _ hwf)
    (by simp [hf1]) (by simp [hf1]) (by simp [hf1]) fun a => ?_
  by_cases ha : ∃ t ∈ pixelBits c u b p y, t.addr ≤ a ∧ a < t.addr + 4
  · obtain ⟨t, ht, hta⟩ := ha
    rw [FrameStore.putPlaneBits_lookup_mem _ _ _ _ (pixelBits_apart _ _ _ _ _) ht hta,
      FrameStore.putPlaneBits_lookup_mem _ _ _ _ (pixelBits_apart _ _ _ _ _) ht hta]
    obtain ⟨ch, k, hk, rfl⟩ := mem_pixelBits.mp ht
    simp only
    have := FrameStore.putPixel_plane c pos f u b p x ch hk
    rw [← hf1] at this
    unfold FrameStore.plane at this
    rw [this, putBit_putBit _ _ _ hpos]
  · have hout : ∀ t ∈ pixelBits c u b p y, a < t.addr ∨ t.addr + 4 ≤ a := by
      intro t ht
      by_contra hc
      exact ha ⟨t, ht, by omega⟩
    have hout1 : ∀ t ∈ pixelBits c u b p x, a < t.addr ∨ t.addr + 4 ≤ a := by
      intro t ht
      obtain ⟨ch, k, hk, rfl⟩ := mem_pixelBits.mp ht
      exact hout { addr := fbAddr c u b (slotOf p ch) k, value := (channel y ch).getLsbD (7 - k) }
        (mem_pixelBits.mpr ⟨ch, k, hk, rfl⟩)
    rw [FrameStore.putPlaneBits_lookup_outside _ _ _ _ hout, FrameStore.putPlaneBits_lookup_outside _ _ _ _ hout, hf1,
      FrameStore.putPlaneBits_lookup_outside _ _ _ _ hout1]

end Sys2Proof.Machine
end

