-- ==== Sys2Proof/Laws/Config.lean ====
section
/-! SUPPORT. What a legal configuration gives (R8, R10), and that the window addresses fit 32 bits. -/

namespace Sys2Proof

/-- The constraints of R8 and R10, as facts of arithmetic. -/
structure Config.Facts (c : Config) : Prop where
  boards_pos : 1 ≤ c.boards
  boards_le : c.boards ≤ 16
  strips_pos : 1 ≤ c.strips
  strips_off : c.strips + c.off ≤ 32
  off_le : c.off ≤ 1
  pixels_pos : 1 ≤ c.numPixels
  pixels_le : c.numPixels ≤ 65535
  settle_pos : 1 ≤ c.settleCycles
  settle_lt : c.settleCycles < 2 ^ 32
  csr_aligned : c.csrBase % 32 = 0
  fb_aligned : c.fbBase % 32 = 0
  fb_pos : 1 ≤ c.fbBase
  desc_aligned : c.descBase % 4 = 0
  csr_end : c.csrBase + 32 ≤ 2 ^ 32
  fb_end : c.fbBase + c.fbSize ≤ 2 ^ 32
  desc_end : c.descBase + c.descSize ≤ 2 ^ 32
  csr_fb : c.csrBase + 32 ≤ c.fbBase ∨ c.fbBase + c.fbSize ≤ c.csrBase
  csr_desc : c.csrBase + 32 ≤ c.descBase ∨ c.descBase + c.descSize ≤ c.csrBase
  fb_desc : c.fbBase + c.fbSize ≤ c.descBase ∨ c.descBase + c.descSize ≤ c.fbBase

theorem Config.legal_iff (c : Config) : c.legal = true ↔ c.Facts := by
  unfold Config.legal Config.ranges Config.aligned Config.windows Config.disjoint Config.csrSize
  simp only [Bool.and_eq_true, Bool.or_eq_true, decide_eq_true_eq, beq_iff_eq]
  constructor
  · rintro ⟨⟨⟨⟨⟨⟨⟨⟨⟨h1, h2⟩, h3⟩, h4⟩, h5⟩, h6⟩, h7⟩, h8⟩, h9⟩, ⟨⟨⟨h10, h11⟩, h12⟩, h13⟩, ⟨⟨⟨⟨⟨h14, h15⟩, h16⟩, h17⟩, h18⟩, h19⟩⟩
    exact ⟨h1, h2, h3, h4, h5, h6, h7, h8, h9, h10, h11, h12, h13, h14, h15, h16, h17, h18, h19⟩
  · rintro ⟨h1, h2, h3, h4, h5, h6, h7, h8, h9, h10, h11, h12, h13, h14, h15, h16, h17, h18, h19⟩
    exact ⟨⟨⟨⟨⟨⟨⟨⟨⟨h1, h2⟩, h3⟩, h4⟩, h5⟩, h6⟩, h7⟩, h8⟩, h9⟩, ⟨⟨⟨h10, h11⟩, h12⟩, h13⟩, ⟨⟨⟨⟨⟨h14, h15⟩, h16⟩, h17⟩, h18⟩, h19⟩⟩

theorem Config.facts {c : Config} (h : c.legal = true) : c.Facts := (Config.legal_iff c).mp h

namespace Machine

theorem inCsr_iff (c : Config) (a : Nat) : inCsr c a = true ↔ c.csrBase ≤ a ∧ a < c.csrBase + 32 := by
  simp only [inCsr, Bool.and_eq_true, decide_eq_true_eq]
  exact Iff.rfl

theorem inDesc_iff (c : Config) (a : Nat) : inDesc c a = true ↔ c.descBase ≤ a ∧ a < c.descBase + (c.slots + 1) * 4 := by
  simp only [inDesc, Bool.and_eq_true, decide_eq_true_eq]
  exact Iff.rfl

/-- No address lies in two windows of a legal configuration (R10). -/
theorem windows_disjoint {c : Config} (h : c.legal = true) (a : Nat) :
    (inCsr c a = true → inFb c a = false ∧ inDesc c a = false) ∧ (inFb c a = true → inCsr c a = false ∧ inDesc c a = false) ∧
    (inDesc c a = true → inCsr c a = false ∧ inFb c a = false) := by
  have f := Config.facts h
  have h1 := f.csr_fb
  have h2 := f.csr_desc
  have h3 := f.fb_desc
  unfold Config.descSize at h2 h3
  simp only [← Bool.not_eq_true, inCsr_iff, inFb_iff, inDesc_iff]
  omega

theorem slots_lt {c : Config} (h : c.legal = true) : c.slots < 2 ^ 18 := by
  have := (Config.facts h).pixels_le
  unfold Config.slots
  omega

theorem slots_pos {c : Config} (h : c.legal = true) : 0 < c.slots := by
  have := (Config.facts h).pixels_pos
  unfold Config.slots
  omega

/-- Every plane-word address lies in the FB window, with its four bytes, and is aligned (R62). -/
theorem fbAddr_facts {c : Config} (h : c.legal = true) {u : Buffer} {b j k : Nat} (hb : b < c.boards) (hj : j < c.slots)
    (hk : k < 8) : fbAddr c u b j k % 4 = 0 ∧ inFb c (fbAddr c u b j k) = true ∧ inFb c (fbAddr c u b j k + 3) = true ∧
      fbAddr c u b j k < 2 ^ 32 := by
  have f := Config.facts h
  have h0 : inFb c (fbAddr c u b j k) = true := inFb_of_inBuffer (u := u) (fbAddr_inBuffer (i := 0) hb hj hk (by omega))
  have h3 : inFb c (fbAddr c u b j k + 3) = true := inFb_of_inBuffer (u := u) (fbAddr_inBuffer (i := 3) hb hj hk (by omega))
  refine ⟨?_, h0, h3, ?_⟩
  · have := f.fb_aligned
    unfold fbAddr
    omega
  · have := (inFb_iff c _).mp h0
    have := f.fb_end
    omega

theorem toNat_ofNat32 {a : Nat} (h : a < 2 ^ 32) : (BitVec.ofNat 32 a).toNat = a := by
  rw [BitVec.toNat_ofNat]
  exact Nat.mod_eq_of_lt h

end Machine

end Sys2Proof
end

