-- ==== Sys2Proof/Laws/State.lean ====
section
/-! SUPPORT. What each named update of State does to each field, one lemma per field per update, so that no proof unfolds a
record update; and what it does to BUSY. -/

namespace Sys2Proof.Machine

section
variable (s : State) (f : Flag)

@[simp] theorem State.raise_cfg : (s.raise f).cfg = s.cfg := rfl
@[simp] theorem State.raise_fb : (s.raise f).fb = s.fb := rfl
@[simp] theorem State.raise_active : (s.raise f).active = s.active := rfl
@[simp] theorem State.raise_phase : (s.raise f).phase = s.phase := rfl
@[simp] theorem State.raise_boardIdx : (s.raise f).boardIdx = s.boardIdx := rfl
@[simp] theorem State.raise_ready : (s.raise f).ready = s.ready := rfl
@[simp] theorem State.raise_xferPending : (s.raise f).xferPending = s.xferPending := rfl
@[simp] theorem State.raise_settling : (s.raise f).settling = s.settling := rfl
@[simp] theorem State.raise_settleCnt : (s.raise f).settleCnt = s.settleCnt := rfl
@[simp] theorem State.raise_req : (s.raise f).req = s.req := rfl
@[simp] theorem State.raise_sel : (s.raise f).sel = s.sel := rfl
@[simp] theorem State.raise_descBuf : (s.raise f).descBuf = s.descBuf := rfl
@[simp] theorem State.raise_descBoard : (s.raise f).descBoard = s.descBoard := rfl
@[simp] theorem State.raise_data : (s.raise f).data = s.data := rfl
@[simp] theorem State.raise_irqEn : (s.raise f).irqEn = s.irqEn := rfl
@[simp] theorem State.raise_sticky : (s.raise f).sticky = s.sticky.set f := rfl
@[simp] theorem State.raise_rstN : (s.raise f).rstN = s.rstN := rfl
@[simp] theorem State.raise_sched : (s.raise f).sched = s.sched := rfl
@[simp] theorem State.raise_hostQ : (s.raise f).hostQ = s.hostQ := rfl
@[simp] theorem State.raise_engQ : (s.raise f).engQ = s.engQ := rfl
@[simp] theorem State.raise_hostLog : (s.raise f).hostLog = s.hostLog := rfl
@[simp] theorem State.raise_engLog : (s.raise f).engLog = s.engLog := rfl
@[simp] theorem State.raise_transfers : (s.raise f).transfers = s.transfers := rfl
@[simp] theorem State.raise_busy : (s.raise f).busy = s.busy := rfl

end

section
variable (s : State) (g : FrameStore)

@[simp] theorem State.withFb_cfg : (s.withFb g).cfg = s.cfg := rfl
@[simp] theorem State.withFb_fb : (s.withFb g).fb = g := rfl
@[simp] theorem State.withFb_active : (s.withFb g).active = s.active := rfl
@[simp] theorem State.withFb_phase : (s.withFb g).phase = s.phase := rfl
@[simp] theorem State.withFb_boardIdx : (s.withFb g).boardIdx = s.boardIdx := rfl
@[simp] theorem State.withFb_ready : (s.withFb g).ready = s.ready := rfl
@[simp] theorem State.withFb_xferPending : (s.withFb g).xferPending = s.xferPending := rfl
@[simp] theorem State.withFb_settling : (s.withFb g).settling = s.settling := rfl
@[simp] theorem State.withFb_settleCnt : (s.withFb g).settleCnt = s.settleCnt := rfl
@[simp] theorem State.withFb_req : (s.withFb g).req = s.req := rfl
@[simp] theorem State.withFb_sel : (s.withFb g).sel = s.sel := rfl
@[simp] theorem State.withFb_descBuf : (s.withFb g).descBuf = s.descBuf := rfl
@[simp] theorem State.withFb_descBoard : (s.withFb g).descBoard = s.descBoard := rfl
@[simp] theorem State.withFb_data : (s.withFb g).data = s.data := rfl
@[simp] theorem State.withFb_irqEn : (s.withFb g).irqEn = s.irqEn := rfl
@[simp] theorem State.withFb_sticky : (s.withFb g).sticky = s.sticky := rfl
@[simp] theorem State.withFb_rstN : (s.withFb g).rstN = s.rstN := rfl
@[simp] theorem State.withFb_sched : (s.withFb g).sched = s.sched := rfl
@[simp] theorem State.withFb_hostQ : (s.withFb g).hostQ = s.hostQ := rfl
@[simp] theorem State.withFb_engQ : (s.withFb g).engQ = s.engQ := rfl
@[simp] theorem State.withFb_hostLog : (s.withFb g).hostLog = s.hostLog := rfl
@[simp] theorem State.withFb_engLog : (s.withFb g).engLog = s.engLog := rfl
@[simp] theorem State.withFb_transfers : (s.withFb g).transfers = s.transfers := rfl
@[simp] theorem State.withFb_busy : (s.withFb g).busy = s.busy := rfl

end

section
variable (s : State) (a : Access) (r : Response)

@[simp] theorem State.completeHost_cfg : (s.completeHost a r).cfg = s.cfg := rfl
@[simp] theorem State.completeHost_fb : (s.completeHost a r).fb = s.fb := rfl
@[simp] theorem State.completeHost_active : (s.completeHost a r).active = s.active := rfl
@[simp] theorem State.completeHost_phase : (s.completeHost a r).phase = s.phase := rfl
@[simp] theorem State.completeHost_boardIdx : (s.completeHost a r).boardIdx = s.boardIdx := rfl
@[simp] theorem State.completeHost_ready : (s.completeHost a r).ready = s.ready := rfl
@[simp] theorem State.completeHost_xferPending : (s.completeHost a r).xferPending = s.xferPending := rfl
@[simp] theorem State.completeHost_settling : (s.completeHost a r).settling = s.settling := rfl
@[simp] theorem State.completeHost_settleCnt : (s.completeHost a r).settleCnt = s.settleCnt := rfl
@[simp] theorem State.completeHost_req : (s.completeHost a r).req = s.req := rfl
@[simp] theorem State.completeHost_sel : (s.completeHost a r).sel = s.sel := rfl
@[simp] theorem State.completeHost_descBuf : (s.completeHost a r).descBuf = s.descBuf := rfl
@[simp] theorem State.completeHost_descBoard : (s.completeHost a r).descBoard = s.descBoard := rfl
@[simp] theorem State.completeHost_data : (s.completeHost a r).data = s.data := rfl
@[simp] theorem State.completeHost_irqEn : (s.completeHost a r).irqEn = s.irqEn := rfl
@[simp] theorem State.completeHost_sticky : (s.completeHost a r).sticky = s.sticky := rfl
@[simp] theorem State.completeHost_rstN : (s.completeHost a r).rstN = s.rstN := rfl
@[simp] theorem State.completeHost_sched : (s.completeHost a r).sched = s.sched := rfl
@[simp] theorem State.completeHost_hostQ : (s.completeHost a r).hostQ = s.hostQ.tail := rfl
@[simp] theorem State.completeHost_engQ : (s.completeHost a r).engQ = s.engQ := rfl
@[simp] theorem State.completeHost_hostLog : (s.completeHost a r).hostLog = (a, r) :: s.hostLog := rfl
@[simp] theorem State.completeHost_engLog : (s.completeHost a r).engLog = s.engLog := rfl
@[simp] theorem State.completeHost_transfers : (s.completeHost a r).transfers = s.transfers := rfl
@[simp] theorem State.completeHost_busy : (s.completeHost a r).busy = s.busy := rfl

end

section
variable (s : State) (a : Access) (r : Response)

@[simp] theorem State.completeEngine_cfg : (s.completeEngine a r).cfg = s.cfg := rfl
@[simp] theorem State.completeEngine_fb : (s.completeEngine a r).fb = s.fb := rfl
@[simp] theorem State.completeEngine_active : (s.completeEngine a r).active = s.active := rfl
@[simp] theorem State.completeEngine_phase : (s.completeEngine a r).phase = s.phase := rfl
@[simp] theorem State.completeEngine_boardIdx : (s.completeEngine a r).boardIdx = s.boardIdx := rfl
@[simp] theorem State.completeEngine_ready : (s.completeEngine a r).ready = s.ready := rfl
@[simp] theorem State.completeEngine_xferPending : (s.completeEngine a r).xferPending = s.xferPending := rfl
@[simp] theorem State.completeEngine_settling : (s.completeEngine a r).settling = s.settling := rfl
@[simp] theorem State.completeEngine_settleCnt : (s.completeEngine a r).settleCnt = s.settleCnt := rfl
@[simp] theorem State.completeEngine_req : (s.completeEngine a r).req = s.req := rfl
@[simp] theorem State.completeEngine_sel : (s.completeEngine a r).sel = s.sel := rfl
@[simp] theorem State.completeEngine_descBuf : (s.completeEngine a r).descBuf = s.descBuf := rfl
@[simp] theorem State.completeEngine_descBoard : (s.completeEngine a r).descBoard = s.descBoard := rfl
@[simp] theorem State.completeEngine_data : (s.completeEngine a r).data = s.data := rfl
@[simp] theorem State.completeEngine_irqEn : (s.completeEngine a r).irqEn = s.irqEn := rfl
@[simp] theorem State.completeEngine_sticky : (s.completeEngine a r).sticky = s.sticky := rfl
@[simp] theorem State.completeEngine_rstN : (s.completeEngine a r).rstN = s.rstN := rfl
@[simp] theorem State.completeEngine_sched : (s.completeEngine a r).sched = s.sched := rfl
@[simp] theorem State.completeEngine_hostQ : (s.completeEngine a r).hostQ = s.hostQ := rfl
@[simp] theorem State.completeEngine_engQ : (s.completeEngine a r).engQ = s.engQ.tail := rfl
@[simp] theorem State.completeEngine_hostLog : (s.completeEngine a r).hostLog = s.hostLog := rfl
@[simp] theorem State.completeEngine_engLog : (s.completeEngine a r).engLog = (a, r) :: s.engLog := rfl
@[simp] theorem State.completeEngine_transfers : (s.completeEngine a r).transfers = s.transfers := rfl
@[simp] theorem State.completeEngine_busy : (s.completeEngine a r).busy = s.busy := rfl

end

section
variable (s : State)

@[simp] theorem State.popSched_cfg : (s.popSched).cfg = s.cfg := rfl
@[simp] theorem State.popSched_fb : (s.popSched).fb = s.fb := rfl
@[simp] theorem State.popSched_active : (s.popSched).active = s.active := rfl
@[simp] theorem State.popSched_phase : (s.popSched).phase = s.phase := rfl
@[simp] theorem State.popSched_boardIdx : (s.popSched).boardIdx = s.boardIdx := rfl
@[simp] theorem State.popSched_ready : (s.popSched).ready = s.ready := rfl
@[simp] theorem State.popSched_xferPending : (s.popSched).xferPending = s.xferPending := rfl
@[simp] theorem State.popSched_settling : (s.popSched).settling = s.settling := rfl
@[simp] theorem State.popSched_settleCnt : (s.popSched).settleCnt = s.settleCnt := rfl
@[simp] theorem State.popSched_req : (s.popSched).req = s.req := rfl
@[simp] theorem State.popSched_sel : (s.popSched).sel = s.sel := rfl
@[simp] theorem State.popSched_descBuf : (s.popSched).descBuf = s.descBuf := rfl
@[simp] theorem State.popSched_descBoard : (s.popSched).descBoard = s.descBoard := rfl
@[simp] theorem State.popSched_data : (s.popSched).data = s.data := rfl
@[simp] theorem State.popSched_irqEn : (s.popSched).irqEn = s.irqEn := rfl
@[simp] theorem State.popSched_sticky : (s.popSched).sticky = s.sticky := rfl
@[simp] theorem State.popSched_rstN : (s.popSched).rstN = s.rstN := rfl
@[simp] theorem State.popSched_sched : (s.popSched).sched = s.sched.tail := rfl
@[simp] theorem State.popSched_hostQ : (s.popSched).hostQ = s.hostQ := rfl
@[simp] theorem State.popSched_engQ : (s.popSched).engQ = s.engQ := rfl
@[simp] theorem State.popSched_hostLog : (s.popSched).hostLog = s.hostLog := rfl
@[simp] theorem State.popSched_engLog : (s.popSched).engLog = s.engLog := rfl
@[simp] theorem State.popSched_transfers : (s.popSched).transfers = s.transfers := rfl
@[simp] theorem State.popSched_busy : (s.popSched).busy = s.busy := rfl

end

section
variable (s : State)

@[simp] theorem seqStart_cfg : (seqStart s).cfg = s.cfg := rfl
@[simp] theorem seqStart_fb : (seqStart s).fb = s.fb := rfl
@[simp] theorem seqStart_active : (seqStart s).active = s.active := rfl
@[simp] theorem seqStart_phase : (seqStart s).phase = .waitReady := rfl
@[simp] theorem seqStart_boardIdx : (seqStart s).boardIdx = 0 := rfl
@[simp] theorem seqStart_ready : (seqStart s).ready = s.ready := rfl
@[simp] theorem seqStart_xferPending : (seqStart s).xferPending = s.xferPending := rfl
@[simp] theorem seqStart_settling : (seqStart s).settling = s.settling := rfl
@[simp] theorem seqStart_settleCnt : (seqStart s).settleCnt = s.settleCnt := rfl
@[simp] theorem seqStart_req : (seqStart s).req = false := rfl
@[simp] theorem seqStart_sel : (seqStart s).sel = s.sel := rfl
@[simp] theorem seqStart_descBuf : (seqStart s).descBuf = s.descBuf := rfl
@[simp] theorem seqStart_descBoard : (seqStart s).descBoard = s.descBoard := rfl
@[simp] theorem seqStart_data : (seqStart s).data = s.data := rfl
@[simp] theorem seqStart_irqEn : (seqStart s).irqEn = s.irqEn := rfl
@[simp] theorem seqStart_sticky : (seqStart s).sticky = s.sticky := rfl
@[simp] theorem seqStart_rstN : (seqStart s).rstN = s.rstN := rfl
@[simp] theorem seqStart_sched : (seqStart s).sched = s.sched := rfl
@[simp] theorem seqStart_hostQ : (seqStart s).hostQ = s.hostQ := rfl
@[simp] theorem seqStart_engQ : (seqStart s).engQ = s.engQ := rfl
@[simp] theorem seqStart_hostLog : (seqStart s).hostLog = s.hostLog := rfl
@[simp] theorem seqStart_engLog : (seqStart s).engLog = s.engLog := rfl
@[simp] theorem seqStart_transfers : (seqStart s).transfers = s.transfers := rfl

end

section
variable (s : State)

@[simp] theorem seqAcquire_cfg : (seqAcquire s).cfg = s.cfg := rfl
@[simp] theorem seqAcquire_fb : (seqAcquire s).fb = s.fb := rfl
@[simp] theorem seqAcquire_active : (seqAcquire s).active = s.active := rfl
@[simp] theorem seqAcquire_phase : (seqAcquire s).phase = .xfer := rfl
@[simp] theorem seqAcquire_boardIdx : (seqAcquire s).boardIdx = s.boardIdx := rfl
@[simp] theorem seqAcquire_ready : (seqAcquire s).ready = false := rfl
@[simp] theorem seqAcquire_xferPending : (seqAcquire s).xferPending = true := rfl
@[simp] theorem seqAcquire_settling : (seqAcquire s).settling = s.settling := rfl
@[simp] theorem seqAcquire_settleCnt : (seqAcquire s).settleCnt = s.settleCnt := rfl
@[simp] theorem seqAcquire_req : (seqAcquire s).req = s.req := rfl
@[simp] theorem seqAcquire_sel : (seqAcquire s).sel = s.boardIdx := rfl
@[simp] theorem seqAcquire_descBuf : (seqAcquire s).descBuf = s.active := rfl
@[simp] theorem seqAcquire_descBoard : (seqAcquire s).descBoard = s.boardIdx := rfl
@[simp] theorem seqAcquire_data : (seqAcquire s).data = s.data := rfl
@[simp] theorem seqAcquire_irqEn : (seqAcquire s).irqEn = s.irqEn := rfl
@[simp] theorem seqAcquire_sticky : (seqAcquire s).sticky = s.sticky := rfl
@[simp] theorem seqAcquire_rstN : (seqAcquire s).rstN = s.rstN := rfl
@[simp] theorem seqAcquire_sched : (seqAcquire s).sched = s.sched := rfl
@[simp] theorem seqAcquire_hostQ : (seqAcquire s).hostQ = s.hostQ := rfl
@[simp] theorem seqAcquire_engQ : (seqAcquire s).engQ = s.engQ := rfl
@[simp] theorem seqAcquire_hostLog : (seqAcquire s).hostLog = s.hostLog := rfl
@[simp] theorem seqAcquire_engLog : (seqAcquire s).engLog = s.engLog := rfl
@[simp] theorem seqAcquire_transfers : (seqAcquire s).transfers = acquireTransfer s :: s.transfers := rfl

end

section
variable (s : State)

@[simp] theorem seqCopyFlip_cfg : (seqCopyFlip s).cfg = s.cfg := rfl
@[simp] theorem seqCopyFlip_fb : (seqCopyFlip s).fb = s.fb.copyFrom s.cfg s.active := rfl
@[simp] theorem seqCopyFlip_active : (seqCopyFlip s).active = otherBuffer s.active := rfl
@[simp] theorem seqCopyFlip_phase : (seqCopyFlip s).phase = .idle := rfl
@[simp] theorem seqCopyFlip_boardIdx : (seqCopyFlip s).boardIdx = s.boardIdx := rfl
@[simp] theorem seqCopyFlip_ready : (seqCopyFlip s).ready = s.ready := rfl
@[simp] theorem seqCopyFlip_xferPending : (seqCopyFlip s).xferPending = s.xferPending := rfl
@[simp] theorem seqCopyFlip_settling : (seqCopyFlip s).settling = s.settling := rfl
@[simp] theorem seqCopyFlip_settleCnt : (seqCopyFlip s).settleCnt = s.settleCnt := rfl
@[simp] theorem seqCopyFlip_req : (seqCopyFlip s).req = s.req := rfl
@[simp] theorem seqCopyFlip_sel : (seqCopyFlip s).sel = s.sel := rfl
@[simp] theorem seqCopyFlip_descBuf : (seqCopyFlip s).descBuf = s.descBuf := rfl
@[simp] theorem seqCopyFlip_descBoard : (seqCopyFlip s).descBoard = s.descBoard := rfl
@[simp] theorem seqCopyFlip_data : (seqCopyFlip s).data = s.data := rfl
@[simp] theorem seqCopyFlip_irqEn : (seqCopyFlip s).irqEn = s.irqEn := rfl
@[simp] theorem seqCopyFlip_sticky : (seqCopyFlip s).sticky = s.sticky.set .passDone := rfl
@[simp] theorem seqCopyFlip_rstN : (seqCopyFlip s).rstN = s.rstN := rfl
@[simp] theorem seqCopyFlip_sched : (seqCopyFlip s).sched = s.sched := rfl
@[simp] theorem seqCopyFlip_hostQ : (seqCopyFlip s).hostQ = s.hostQ := rfl
@[simp] theorem seqCopyFlip_engQ : (seqCopyFlip s).engQ = s.engQ := rfl
@[simp] theorem seqCopyFlip_hostLog : (seqCopyFlip s).hostLog = s.hostLog := rfl
@[simp] theorem seqCopyFlip_engLog : (seqCopyFlip s).engLog = s.engLog := rfl
@[simp] theorem seqCopyFlip_transfers : (seqCopyFlip s).transfers = s.transfers := rfl

end

section
variable (s : State)

@[simp] theorem settleExpire_cfg : (settleExpire s).cfg = s.cfg := rfl
@[simp] theorem settleExpire_fb : (settleExpire s).fb = s.fb := rfl
@[simp] theorem settleExpire_active : (settleExpire s).active = s.active := rfl
@[simp] theorem settleExpire_phase : (settleExpire s).phase = s.phase := rfl
@[simp] theorem settleExpire_boardIdx : (settleExpire s).boardIdx = s.boardIdx := rfl
@[simp] theorem settleExpire_ready : (settleExpire s).ready = true := rfl
@[simp] theorem settleExpire_xferPending : (settleExpire s).xferPending = s.xferPending := rfl
@[simp] theorem settleExpire_settling : (settleExpire s).settling = false := rfl
@[simp] theorem settleExpire_settleCnt : (settleExpire s).settleCnt = 0 := rfl
@[simp] theorem settleExpire_req : (settleExpire s).req = s.req := rfl
@[simp] theorem settleExpire_sel : (settleExpire s).sel = s.sel := rfl
@[simp] theorem settleExpire_descBuf : (settleExpire s).descBuf = s.descBuf := rfl
@[simp] theorem settleExpire_descBoard : (settleExpire s).descBoard = s.descBoard := rfl
@[simp] theorem settleExpire_data : (settleExpire s).data = s.data := rfl
@[simp] theorem settleExpire_irqEn : (settleExpire s).irqEn = s.irqEn := rfl
@[simp] theorem settleExpire_sticky : (settleExpire s).sticky = s.sticky := rfl
@[simp] theorem settleExpire_rstN : (settleExpire s).rstN = s.rstN := rfl
@[simp] theorem settleExpire_sched : (settleExpire s).sched = s.sched := rfl
@[simp] theorem settleExpire_hostQ : (settleExpire s).hostQ = s.hostQ := rfl
@[simp] theorem settleExpire_engQ : (settleExpire s).engQ = s.engQ := rfl
@[simp] theorem settleExpire_hostLog : (settleExpire s).hostLog = s.hostLog := rfl
@[simp] theorem settleExpire_engLog : (settleExpire s).engLog = s.engLog := rfl
@[simp] theorem settleExpire_transfers : (settleExpire s).transfers = s.transfers := rfl

end

section
variable (s : State)

@[simp] theorem resetBlock_cfg : (resetBlock s).cfg = s.cfg := rfl
@[simp] theorem resetBlock_fb : (resetBlock s).fb = FrameStore.drawn (s.fb.epoch + 1) := rfl
@[simp] theorem resetBlock_active : (resetBlock s).active = 0 := rfl
@[simp] theorem resetBlock_phase : (resetBlock s).phase = .idle := rfl
@[simp] theorem resetBlock_boardIdx : (resetBlock s).boardIdx = 0 := rfl
@[simp] theorem resetBlock_ready : (resetBlock s).ready = false := rfl
@[simp] theorem resetBlock_xferPending : (resetBlock s).xferPending = false := rfl
@[simp] theorem resetBlock_settling : (resetBlock s).settling = true := rfl
@[simp] theorem resetBlock_settleCnt : (resetBlock s).settleCnt = BitVec.ofNat 32 s.cfg.settleCycles := rfl
@[simp] theorem resetBlock_req : (resetBlock s).req = false := rfl
@[simp] theorem resetBlock_sel : (resetBlock s).sel = 0 := rfl
@[simp] theorem resetBlock_descBuf : (resetBlock s).descBuf = 0 := rfl
@[simp] theorem resetBlock_descBoard : (resetBlock s).descBoard = 0 := rfl
@[simp] theorem resetBlock_data : (resetBlock s).data = 0 := rfl
@[simp] theorem resetBlock_irqEn : (resetBlock s).irqEn = FlagSet.none := rfl
@[simp] theorem resetBlock_sticky : (resetBlock s).sticky = FlagSet.none := rfl
@[simp] theorem resetBlock_rstN : (resetBlock s).rstN = false := rfl
@[simp] theorem resetBlock_sched : (resetBlock s).sched = s.sched := rfl
@[simp] theorem resetBlock_hostQ : (resetBlock s).hostQ = s.hostQ := rfl
@[simp] theorem resetBlock_engQ : (resetBlock s).engQ = s.engQ := rfl
@[simp] theorem resetBlock_hostLog : (resetBlock s).hostLog = s.hostLog := rfl
@[simp] theorem resetBlock_engLog : (resetBlock s).engLog = s.engLog := rfl
@[simp] theorem resetBlock_transfers : (resetBlock s).transfers = s.transfers := rfl

end

/-- A quiescent state, item by item (R150). -/
theorem quiescent_iff (s : State) :
    quiescent s = true ↔ (s.phase = .idle ∧ s.req = false) ∧ s.settling = false := by
  simp [quiescent, State.busy]

end Sys2Proof.Machine
end

