-- ==== Sys2Proof/Laws/Step.lean ====
section
/-! SUPPORT. What a step can do: the step of a block whose reset is released is the move of the agent the schedule names; what
each agent's move can change; and the case analysis over all of them that the invariants rest on. -/

namespace Sys2Proof.Machine

/-! ### Reaching the move -/

/-- The step is the scheduled agent's move on the rest of the schedule. -/
theorem step_turn {s : State} {m : Move} {rest : List Move} (h : Turn s m rest) :
    step s = agentMove { s with sched := rest } m := by
  have h1 : s.popSched = { s with sched := rest } := by simp [State.popSched, h.next]
  unfold step scheduledStep
  rw [if_pos h.legal, h.next]
  simp only [h1, takeMove]
  rw [if_pos h.released]

/-- A block of illegal configuration has no step. -/
theorem step_illegal {s : State} (h : s.cfg.legal = false) : step s = .refused .illegalConfiguration := by
  simp [step, h]

/-- Everything a step can be: idle, a move in reset, or a move of an agent whose turn it is. -/
theorem step_cases {s t : State} (h : step s = .next t) :
    s.cfg.legal = true ∧
    ((s.sched = [] ∧ t = s) ∨
     (∃ rest, s.sched = .resetAssert :: rest ∧ t = resetBlock { s with sched := rest }) ∨
     (∃ rest, s.sched = .resetRelease :: rest ∧ t = resetRelease { s with sched := rest }) ∨
     (∃ m rest, s.sched = m :: rest ∧ s.rstN = false ∧ m ≠ .resetAssert ∧ m ≠ .resetRelease ∧ t = { s with sched := rest }) ∨
     (∃ m rest, Turn s m rest ∧ m ≠ .resetAssert ∧ m ≠ .resetRelease ∧
       agentMove { s with sched := rest } m = .next t)) := by
  by_cases hl : s.cfg.legal = true
  swap
  · rw [step_illegal (by simpa using hl)] at h
    exact absurd h (by simp)
  refine ⟨hl, ?_⟩
  unfold step at h
  rw [if_pos hl] at h
  unfold scheduledStep at h
  cases hs : s.sched with
  | nil => rw [hs] at h; simp only [Host.Outcome.next.injEq] at h; exact .inl ⟨rfl, h.symm⟩
  | cons m rest =>
    rw [hs] at h
    have hp : s.popSched = { s with sched := rest } := by simp [State.popSched, hs]
    simp only [hp] at h
    refine .inr ?_
    by_cases hr : s.rstN = true
    · have ha : agentMove { s with sched := rest } m = .next t := by
        simpa [takeMove, hr] using h
      by_cases h1 : m = .resetAssert
      · subst h1
        simp only [agentMove, Host.Outcome.next.injEq] at ha
        exact .inl ⟨rest, rfl, ha.symm⟩
      · by_cases h2 : m = .resetRelease
        · subst h2
          simp only [agentMove, Host.Outcome.next.injEq] at ha
          exact .inr (.inl ⟨rest, rfl, ha.symm⟩)
        · exact .inr (.inr (.inr ⟨m, rest, ⟨hl, hr, hs⟩, h1, h2, ha⟩))
    · have hr : s.rstN = false := by simpa using hr
      unfold takeMove at h
      rw [if_neg (by simp [hr])] at h
      cases m <;> simp only [Host.Outcome.next.injEq] at h
      case resetAssert => exact .inl ⟨rest, rfl, h.symm⟩
      case resetRelease => exact .inr (.inl ⟨rest, rfl, h.symm⟩)
      all_goals exact .inr (.inr (.inl ⟨_, rest, rfl, hr, by simp, by simp, h.symm⟩))

/-! ### What a command can change -/

/-- Every command completes, with its frame and the flag it may set. -/
theorem exec_cases (i : Instr) (s : State) :
    (i = .nop ∧ exec i s = .next s) ∨
    (i = .showPixels ∧ s.req = true ∧ exec i s = .next (s.raise .showOvf)) ∨
    (i = .showPixels ∧ s.req = false ∧ exec i s = .next { s with req := true }) ∨
    (∃ b st p, i = .encodePixel b st p ∧
      ((s.busy = true ∧ exec i s = .next (s.raise .errBusy)) ∨
       (s.busy = false ∧ (s.cfg.boards ≤ b ∨ s.cfg.strips ≤ st ∨ s.cfg.numPixels ≤ p) ∧
        exec i s = .next (s.raise .errAddr)) ∨
       (s.busy = false ∧ b < s.cfg.boards ∧ st < s.cfg.strips ∧ p < s.cfg.numPixels ∧
        exec i s = .next (s.withFb (s.fb.putPlaneBits s.cfg (st + s.cfg.off)
          (pixelBits s.cfg s.active b p s.rgb)))))) := by
  cases i with
  | nop => exact .inl ⟨rfl, rfl⟩
  | showPixels =>
    cases h : s.req
    · exact .inr (.inr (.inl ⟨rfl, rfl, by simp [exec, execShowPixels, h]⟩))
    · exact .inr (.inl ⟨rfl, rfl, by simp [exec, execShowPixels, h]⟩)
  | encodePixel b st p => exact .inr (.inr (.inr ⟨b, st, p, rfl, execEncodePixel_cases b st p s⟩))

/-- Everything a CMD write can do. -/
theorem runCommand_cases (w : Word) (s : State) :
    (∃ r, decode w = .error r ∧ runCommand w s = .next (s.raise .errCmd)) ∨
    (∃ i, decode w = .ok i ∧ runCommand w s = exec i s) := by
  unfold runCommand
  cases decode w with
  | ok i => exact .inr ⟨i, rfl, rfl⟩
  | error r => exact .inl ⟨r, rfl, rfl⟩

/-! ### What the host port can change -/

/-- Everything the host port's move can do. -/
theorem hostMove_cases {s t : State} (h : hostMove s = .next t) :
    (s.hostQ = [] ∧ t = s) ∨
    ∃ a q, s.hostQ = a :: q ∧
      ((holds s (hostSelect s.cfg a) = true ∧ t = s) ∨
       (holds s (hostSelect s.cfg a) = false ∧
        performHost (s.completeHost a (respond s (hostSelect s.cfg a))) (hostSelect s.cfg a) = .next t)) := by
  unfold hostMove at h
  cases hq : s.hostQ with
  | nil => rw [hq] at h; simp only [Host.Outcome.next.injEq] at h; exact .inl ⟨rfl, h.symm⟩
  | cons a q =>
    rw [hq] at h
    refine .inr ⟨a, q, rfl, ?_⟩
    cases hh : holds s (hostSelect s.cfg a)
    · simp only [hh, Bool.false_eq_true, if_false] at h; exact .inr ⟨rfl, h⟩
    · simp only [hh, if_true, Host.Outcome.next.injEq] at h; exact .inl ⟨rfl, h.symm⟩

/-- A host access changes at most the frame store, the request slot, the flags, DATA and IRQ_EN, and its queue and log; and
while BUSY it does not change the frame store (R31, R59). -/
structure HostFrame (s t : State) : Prop where
  frame : t = { s with
    fb := t.fb, req := t.req, sticky := t.sticky, data := t.data, irqEn := t.irqEn, hostQ := t.hostQ, hostLog := t.hostLog }
  noEdit : s.busy = true → t.fb = s.fb

theorem withFb_frame {s : State} (f : FrameStore) (hb : s.busy = false) : HostFrame s (s.withFb f) :=
  ⟨rfl, fun h => absurd h (by simp [hb])⟩

theorem raise_frame (s : State) (f : Flag) : HostFrame s (s.raise f) := ⟨rfl, fun _ => rfl⟩

theorem same_frame (s : State) : HostFrame s s := ⟨rfl, fun _ => rfl⟩

theorem exec_frame {i : Instr} {s t : State} (h : exec i s = .next t) : HostFrame s t := by
  rcases exec_cases i s with ⟨_, e⟩ | ⟨_, _, e⟩ | ⟨_, _, e⟩ | ⟨b, st, p, _, ⟨_, e⟩ | ⟨_, _, e⟩ | ⟨hb, _, _, _, e⟩⟩ <;>
    rw [e] at h <;> simp only [Host.Outcome.next.injEq] at h <;> subst h
  · exact same_frame s
  · exact raise_frame s _
  · exact ⟨rfl, fun _ => rfl⟩
  · exact raise_frame s _
  · exact raise_frame s _
  · exact withFb_frame _ hb

theorem performHost_frame {s t : State} {x : Selected} (h : performHost s x = .next t) : HostFrame s t := by
  cases x with
  | command w =>
    simp only [performHost] at h
    rcases runCommand_cases w s with ⟨r, _, e⟩ | ⟨i, _, e⟩ <;> rw [e] at h
    · simp only [Host.Outcome.next.injEq] at h
      subst h
      exact raise_frame s _
    · exact exec_frame h
  | regWrite r v =>
    simp only [performHost, Host.Outcome.next.injEq] at h
    subst h
    cases r <;> exact ⟨rfl, fun _ => rfl⟩
  | fbWrite a v =>
    simp only [performHost, serve, fbWrite, Host.Outcome.next.injEq] at h
    subst h
    split
    · exact raise_frame s _
    · next hb => exact withFb_frame _ (by simpa using hb)
  | regRead r => simp only [performHost, serve, Host.Outcome.next.injEq] at h; subst h; exact same_frame s
  | fbRead a => simp only [performHost, serve, Host.Outcome.next.injEq] at h; subst h; exact same_frame s
  | descRead i => simp only [performHost, serve, Host.Outcome.next.injEq] at h; subst h; exact same_frame s
  | busError => simp only [performHost, serve, Host.Outcome.next.injEq] at h; subst h; exact same_frame s
  | notSelected => simp only [performHost, serve, Host.Outcome.next.injEq] at h; subst h; exact same_frame s

theorem hostMove_frame {s t : State} (h : hostMove s = .next t) : HostFrame s t := by
  rcases hostMove_cases h with ⟨_, rfl⟩ | ⟨a, q, _, ⟨_, rfl⟩ | ⟨_, h⟩⟩
  · exact same_frame t
  · exact same_frame t
  · have f := performHost_frame h
    refine ⟨?_, f.noEdit⟩
    have e := f.frame
    simpa only [State.completeHost_cfg, State.completeHost_active, State.completeHost_phase, State.completeHost_boardIdx,
      State.completeHost_ready, State.completeHost_xferPending, State.completeHost_settling, State.completeHost_settleCnt,
      State.completeHost_sel, State.completeHost_descBuf, State.completeHost_descBoard, State.completeHost_rstN,
      State.completeHost_sched, State.completeHost_engQ, State.completeHost_engLog, State.completeHost_transfers] using e

/-- Every move of an agent answers a next state. -/
theorem agentMove_next (s : State) (m : Move) : ∃ t, agentMove s m = .next t := by
  cases m with
  | host =>
    simp only [agentMove, hostMove]
    split
    · exact ⟨_, rfl⟩
    · split
      · exact ⟨_, rfl⟩
      · next a q hq _ =>
        generalize s.completeHost a (respond s (hostSelect s.cfg a)) = s'
        cases hostSelect s.cfg a with
        | command w =>
          rcases runCommand_cases w s' with ⟨r, _, e⟩ | ⟨i, _, e⟩
          · exact ⟨_, e⟩
          · rcases exec_cases i s' with ⟨_, e'⟩ | ⟨_, _, e'⟩ | ⟨_, _, e'⟩ |
              ⟨b, st, p, _, ⟨_, e'⟩ | ⟨_, _, e'⟩ | ⟨_, _, _, _, e'⟩⟩ <;> exact ⟨_, e.trans e'⟩
        | _ => exact ⟨_, rfl⟩
  | _ => exact ⟨_, rfl⟩

/-- The engine port changes its queue and its log, and nothing else (R180). -/
theorem engineMove_frame (s : State) :
    engineMove s = { s with engQ := (engineMove s).engQ, engLog := (engineMove s).engLog } := by
  unfold engineMove
  split
  · rfl
  · simp only
    split <;> rfl

/-! ### Who changes what: the case analysis of a move -/

/-- Everything a move of an agent (other than reset) can do to the block, its effect spelled out per agent. -/
theorem agentMove_cases {s t : State} {m : Move} (h1 : m ≠ .resetAssert) (h2 : m ≠ .resetRelease)
    (h : agentMove s m = .next t) :
    (t = s) ∨
    (m = .host ∧ HostFrame s t) ∨
    (m = .engine ∧ t = { s with engQ := t.engQ, engLog := t.engLog }) ∨
    (m = .sequencer ∧ s.phase = .idle ∧ s.req = true ∧ t = seqStart s) ∨
    (m = .sequencer ∧ s.phase = .waitReady ∧ s.ready = true ∧ t = seqAcquire s) ∨
    (m = .sequencer ∧ s.phase = .copy ∧ t = seqCopyFlip s) ∨
    (m = .dmaDone ∧ s.phase = .xfer ∧ t = xferComplete s) ∨
    (m = .dmaDone ∧ s.phase ≠ .xfer ∧ t = s.raise .errDone) ∨
    ((m = .settleTimer ∨ (m = .clock ∧ s.settleCnt.toNat ≤ 1)) ∧ s.settling = true ∧ t = settleExpire s) ∨
    (m = .clock ∧ s.settling = true ∧ 1 < s.settleCnt.toNat ∧ t = { s with settleCnt := s.settleCnt - 1 }) := by
  cases m with
  | host => exact .inr (.inl ⟨rfl, hostMove_frame h⟩)
  | engine =>
    simp only [agentMove, Host.Outcome.next.injEq] at h
    subst h
    exact .inr (.inr (.inl ⟨rfl, engineMove_frame s⟩))
  | dmaDone =>
    simp only [agentMove, dmaDone, Host.Outcome.next.injEq] at h
    subst h
    split
    · next hp => exact .inr (.inr (.inr (.inr (.inr (.inr (.inl ⟨rfl, hp, rfl⟩))))))
    · next hp => exact .inr (.inr (.inr (.inr (.inr (.inr (.inr (.inl ⟨rfl, hp, rfl⟩)))))))
  | sequencer =>
    simp only [agentMove, sequencerStep, Host.Outcome.next.injEq] at h
    subst h
    cases hp : s.phase with
    | idle =>
      cases hr : s.req
      · exact .inl (by simp)
      · exact .inr (.inr (.inr (.inl ⟨rfl, rfl, rfl, by simp⟩)))
    | waitReady =>
      cases hr : s.ready
      · exact .inl (by simp)
      · exact .inr (.inr (.inr (.inr (.inl ⟨rfl, rfl, rfl, by simp⟩))))
    | xfer => exact .inl (by simp)
    | copy => exact .inr (.inr (.inr (.inr (.inr (.inl ⟨rfl, rfl, by simp⟩)))))
  | settleTimer =>
    simp only [agentMove, settleTimerStep, Host.Outcome.next.injEq] at h
    subst h
    cases hs : s.settling
    · exact .inl (by simp)
    · exact .inr (.inr (.inr (.inr (.inr (.inr (.inr (.inr (.inl ⟨.inl rfl, rfl, by simp⟩))))))))
  | clock =>
    simp only [agentMove, clockCycle, Host.Outcome.next.injEq] at h
    subst h
    cases hs : s.settling
    · exact .inl (by simp)
    · by_cases hc : s.settleCnt.toNat ≤ 1
      · exact .inr (.inr (.inr (.inr (.inr (.inr (.inr (.inr (.inl ⟨.inr ⟨rfl, hc⟩, rfl, by simp [hc]⟩))))))))
      · exact .inr (.inr (.inr (.inr (.inr (.inr (.inr (.inr (.inr ⟨rfl, rfl, by omega, by simp [hc]⟩))))))))
  | resetAssert => exact absurd rfl h1
  | resetRelease => exact absurd rfl h2

/-! ### What a step can be, for the rules of the whole machine -/

/-- A step is a move of nobody, the assertion of reset, or the move of an agent whose turn it is. -/
theorem step_kinds {s t : State} (h : step s = .next t) :
    (t = { s with sched := t.sched, rstN := t.rstN }) ∨
    (s.sched.head? = some .resetAssert ∧ ∃ rest, t = resetBlock { s with sched := rest }) ∨
    ∃ m rest, Turn s m rest ∧ s.sched.head? = some m ∧ m ≠ .resetAssert ∧ m ≠ .resetRelease ∧
      agentMove { s with sched := rest } m = .next t := by
  rcases step_cases h with ⟨_, ⟨_, rfl⟩ | ⟨rest, hs, rfl⟩ | ⟨rest, hs, rfl⟩ | ⟨m, rest, hs, _, _, _, rfl⟩ |
    ⟨m, rest, ht, h1, h2, ha⟩⟩
  · exact .inl rfl
  · exact .inr (.inl ⟨by simp [hs], rest, rfl⟩)
  · exact .inl rfl
  · exact .inl rfl
  · exact .inr (.inr ⟨m, rest, ht, by simp [ht.next], h1, h2, ha⟩)

/-- Everything COMPLETE can do (R137). -/
theorem xferComplete_cases (s : State) :
    (s.boardIdx.toNat + 1 < s.cfg.boards ∧ xferComplete s =
      { s with xferPending := false, settling := true, settleCnt := BitVec.ofNat 32 s.cfg.settleCycles,
               boardIdx := s.boardIdx + 1, phase := .waitReady }) ∨
    (s.cfg.boards ≤ s.boardIdx.toNat + 1 ∧ xferComplete s =
      { s with xferPending := false, settling := true, settleCnt := BitVec.ofNat 32 s.cfg.settleCycles,
               phase := .copy }) := by
  by_cases h : s.boardIdx.toNat + 1 < s.cfg.boards
  · exact .inl ⟨h, by simp [xferComplete, h]⟩
  · exact .inr ⟨by omega, by simp [xferComplete, h]⟩

/-- The next board's index, in a configuration of at most 16 boards: no 4-bit wrap-around (R137). -/
theorem boardIdx_succ {s : State} (hl : s.cfg.legal = true) (h : s.boardIdx.toNat + 1 < s.cfg.boards) :
    (s.boardIdx + 1).toNat = s.boardIdx.toNat + 1 := by
  have := (Config.facts hl).boards_le
  rw [BitVec.toNat_add]
  simp
  omega

/-- SETTLE_CYCLES fits the counter (R8). -/
theorem settleCycles_toNat {c : Config} (hl : c.legal = true) : (BitVec.ofNat 32 c.settleCycles).toNat = c.settleCycles :=
  toNat_ofNat32 (Config.facts hl).settle_lt

/-! ### What an access leaves of its port, and which flags it touches -/

/-- A command leaves the ports as they are. -/
theorem exec_ports {i : Instr} {s t : State} (h : exec i s = .next t) : t.hostQ = s.hostQ ∧ t.hostLog = s.hostLog := by
  rcases exec_cases i s with ⟨_, e⟩ | ⟨_, _, e⟩ | ⟨_, _, e⟩ | ⟨b, st, p, _, ⟨_, e⟩ | ⟨_, _, e⟩ | ⟨_, _, _, _, e⟩⟩ <;>
    rw [e] at h <;> simp only [Host.Outcome.next.injEq] at h <;> subst h <;> simp

/-- The effect of an access leaves the ports as they are. -/
theorem performHost_ports {s t : State} {x : Selected} (h : performHost s x = .next t) :
    t.hostQ = s.hostQ ∧ t.hostLog = s.hostLog := by
  cases x with
  | command w =>
    simp only [performHost] at h
    rcases runCommand_cases w s with ⟨r, _, e⟩ | ⟨i, _, e⟩ <;> rw [e] at h
    · simp only [Host.Outcome.next.injEq] at h
      subst h
      simp
    · exact exec_ports h
  | regWrite r v =>
    simp only [performHost, serve, Host.Outcome.next.injEq] at h
    subst h
    cases r <;> exact ⟨rfl, rfl⟩
  | fbWrite a v =>
    simp only [performHost, serve, fbWrite, Host.Outcome.next.injEq] at h
    subst h
    split <;> simp
  | _ => simp only [performHost, serve, Host.Outcome.next.injEq] at h; subst h; exact ⟨rfl, rfl⟩

/-- A host that has no access left to perform does nothing. -/
theorem hostMove_nil {s : State} (h : s.hostQ = []) : hostMove s = .next s := by
  unfold hostMove
  rw [h]

/-- The host port's move leaves its queue, or takes the head off it. -/
theorem hostMove_hostQ {s t : State} (h : hostMove s = .next t) : t.hostQ = s.hostQ ∨ t.hostQ = s.hostQ.tail := by
  rcases hostMove_cases h with ⟨_, rfl⟩ | ⟨a, q, _, ⟨_, rfl⟩ | ⟨_, h⟩⟩
  · exact .inl rfl
  · exact .inl rfl
  · exact .inr (performHost_ports h).1

/-- An access changes the frame store only while BUSY does not hold, and only as an ENCODE or a frame-store write (R112, R176). -/
theorem performHost_fb {s t : State} {x : Selected} (h : performHost s x = .next t) :
    t.fb = s.fb ∨ (s.busy = false ∧
      ((∃ w b st p, x = .command w ∧ decode w = .ok (.encodePixel b st p)) ∨ ∃ a v, x = .fbWrite a v)) := by
  cases x with
  | command w =>
    simp only [performHost] at h
    rcases runCommand_cases w s with ⟨r, _, e⟩ | ⟨i, hd, e⟩ <;> rw [e] at h
    · simp only [Host.Outcome.next.injEq] at h
      subst h
      exact .inl rfl
    · rcases exec_cases i s with ⟨_, e⟩ | ⟨_, _, e⟩ | ⟨_, _, e⟩ | ⟨b, st, p, rfl, ⟨_, e⟩ | ⟨_, _, e⟩ | ⟨hb, _, _, _, e⟩⟩ <;>
        rw [e] at h <;> simp only [Host.Outcome.next.injEq] at h <;> subst h
      case inr.inr.inr.inr.inr => exact .inr ⟨hb, .inl ⟨w, b, st, p, rfl, hd⟩⟩
      all_goals exact .inl rfl
  | regWrite r v =>
    simp only [performHost, serve, Host.Outcome.next.injEq] at h
    subst h
    cases r <;> exact .inl rfl
  | fbWrite a v =>
    cases hb : s.busy
    · exact .inr ⟨rfl, .inr ⟨a, v, rfl⟩⟩
    · exact .inl ((performHost_frame h).noEdit hb)
  | _ => simp only [performHost, serve, Host.Outcome.next.injEq] at h; subst h; exact .inl rfl

/-- What makes an access set a flag (R46, R96, R112, R130, R176). -/
def RaisedBy (s : State) (x : Selected) : Flag → Prop
  | .errCmd => ∃ w r, x = .command w ∧ decode w = .error r
  | .showOvf => s.req = true ∧ ∃ w, x = .command w ∧ decode w = .ok .showPixels
  | .errAddr => s.busy = false ∧ ∃ w b st p, x = .command w ∧ decode w = .ok (.encodePixel b st p) ∧
      (s.cfg.boards ≤ b ∨ s.cfg.strips ≤ st ∨ s.cfg.numPixels ≤ p)
  | .errBusy => s.busy = true ∧
      ((∃ w b st p, x = .command w ∧ decode w = .ok (.encodePixel b st p)) ∨ ∃ a v, x = .fbWrite a v)
  | .passDone => False
  | .errDone => False

/-- Everything an access can do to the flags: nothing; clear those a STATUS write names; set one, for its reason. -/
theorem performHost_flags {s t : State} {x : Selected} (h : performHost s x = .next t) :
    t.sticky = s.sticky ∨ (∃ v, x = .regWrite .status v ∧ t.sticky = s.sticky.without (FlagSet.ofWord v)) ∨
      ∃ f, t.sticky = s.sticky.set f ∧ RaisedBy s x f := by
  cases x with
  | command w =>
    simp only [performHost] at h
    rcases runCommand_cases w s with ⟨r, hd, e⟩ | ⟨i, hd, e⟩ <;> rw [e] at h
    · simp only [Host.Outcome.next.injEq] at h
      subst h
      exact .inr (.inr ⟨.errCmd, rfl, w, r, rfl, hd⟩)
    · rcases exec_cases i s with ⟨_, e⟩ | ⟨rfl, hq, e⟩ | ⟨_, _, e⟩ |
        ⟨b, st, p, rfl, ⟨hb, e⟩ | ⟨hb, hr, e⟩ | ⟨_, _, _, _, e⟩⟩ <;>
        rw [e] at h <;> simp only [Host.Outcome.next.injEq] at h <;> subst h
      · exact .inl rfl
      · exact .inr (.inr ⟨.showOvf, rfl, hq, w, rfl, hd⟩)
      · exact .inl rfl
      · exact .inr (.inr ⟨.errBusy, rfl, hb, .inl ⟨w, b, st, p, rfl, hd⟩⟩)
      · exact .inr (.inr ⟨.errAddr, rfl, hb, w, b, st, p, rfl, hd, hr⟩)
      · exact .inl (by simp)
  | regWrite r v =>
    simp only [performHost, serve, Host.Outcome.next.injEq] at h
    subst h
    cases r
    case status => exact .inr (.inl ⟨v, rfl, rfl⟩)
    all_goals exact .inl rfl
  | fbWrite a v =>
    simp only [performHost, serve, fbWrite, Host.Outcome.next.injEq] at h
    subst h
    split
    · next hb => exact .inr (.inr ⟨.errBusy, rfl, hb, .inr ⟨a, v, rfl⟩⟩)
    · exact .inl (by simp)
  | _ => simp only [performHost, serve, Host.Outcome.next.injEq] at h; subst h; exact .inl rfl

end Sys2Proof.Machine
end

