-- ==== Sys2Proof/Laws/Bus.lean ====
section
/-! SUPPORT. What an access selects, both ways: the row of R170 for an access of each window, and the only access that selects a
given row; and the step in which a port performs the access at the head of its queue. -/

namespace Sys2Proof.Machine

/-! ### Accesses -/

theorem readAt_addr {a : Nat} (h : a < 2 ^ 32) : (readAt a).addr.toNat = a := toNat_ofNat32 h

theorem writeAt_addr {a : Nat} (v : Word) (h : a < 2 ^ 32) : (writeAt a v).addr.toNat = a := toNat_ofNat32 h

theorem wellSized_iff (a : Access) : a.wellSized = true ↔ a.size = 4 ∧ a.addr.toNat % 4 = 0 := by
  simp [Access.wellSized]

theorem readAt_wellSized {a : Nat} (h : a < 2 ^ 32) (h4 : a % 4 = 0) : (readAt a).wellSized = true := by
  rw [wellSized_iff, readAt_addr h]; exact ⟨rfl, h4⟩

theorem writeAt_wellSized {a : Nat} (v : Word) (h : a < 2 ^ 32) (h4 : a % 4 = 0) : (writeAt a v).wellSized = true := by
  rw [wellSized_iff, writeAt_addr v h]; exact ⟨rfl, h4⟩

/-- An access is determined by its fields. -/
theorem access_eq_writeAt {a : Access} {v : Word} (hop : a.op = .write v) (hs : a.size = 4) : a = writeAt a.addr.toNat v := by
  obtain ⟨op, addr, size⟩ := a
  simp only at hop hs
  subst hop; subst hs
  simp [writeAt]

/-! ### Registers -/

@[simp] theorem Reg.ofOffset_offset (r : Reg) : Reg.ofOffset r.offset = r := by cases r <;> rfl

theorem Reg.offset_lt (r : Reg) : r.offset + 4 ≤ 32 := by cases r <;> decide

theorem Reg.offset_aligned (r : Reg) : r.offset % 4 = 0 := by cases r <;> decide

theorem Reg.offset_eq_zero (r : Reg) : r.offset = 0 ↔ r = .cmd := by cases r <;> decide

theorem Reg.offset_ofOffset {off : Nat} (h : off < 32) (h4 : off % 4 = 0) : (Reg.ofOffset off).offset = off := by
  have : off = 0 ∨ off = 4 ∨ off = 8 ∨ off = 12 ∨ off = 16 ∨ off = 20 ∨ off = 24 ∨ off = 28 := by omega
  rcases this with h | h | h | h | h | h | h | h <;> subst h <;> rfl

theorem regAddr_facts {c : Config} (h : c.legal = true) (r : Reg) :
    c.csrBase + r.offset < 2 ^ 32 ∧ (c.csrBase + r.offset) % 4 = 0 ∧ inCsr c (c.csrBase + r.offset) = true := by
  have f := Config.facts h
  have h1 := r.offset_lt
  have h2 := r.offset_aligned
  have := f.csr_end
  have := f.csr_aligned
  rw [inCsr_iff]
  omega

/-! ### What an access selects on the host port -/

theorem hostSelect_csr {c : Config} {a : Access} (h : inCsr c a.addr.toNat = true) (hw : a.wellSized = true) :
    hostSelect c a = selectCsr (a.addr.toNat - c.csrBase) a.op := by
  simp [hostSelect, h, hw]

theorem hostSelect_fb {c : Config} {a : Access} (hl : c.legal = true) (h : inFb c a.addr.toNat = true)
    (hw : a.wellSized = true) :
    (a.op = .read → hostSelect c a = .fbRead a.addr.toNat) ∧ (∀ v, a.op = .write v → hostSelect c a = .fbWrite a.addr.toNat v) := by
  have hc := ((windows_disjoint hl _).2.1 h).1
  constructor
  · intro e; simp [hostSelect, h, hw, hc, e]
  · intro v e; simp [hostSelect, h, hw, hc, e]

theorem hostSelect_desc {c : Config} {a : Access} (hl : c.legal = true) (h : inDesc c a.addr.toNat = true)
    (hw : a.wellSized = true) :
    (a.op = .read → hostSelect c a = .descRead ((a.addr.toNat - c.descBase) / 4)) ∧
    (∀ v, a.op = .write v → hostSelect c a = .busError) := by
  obtain ⟨hc, hf⟩ := (windows_disjoint hl _).2.2 h
  constructor
  · intro e; simp [hostSelect, h, hw, hc, hf, e]
  · intro v e; simp [hostSelect, h, hw, hc, hf, e]

theorem hostSelect_badSize {c : Config} {a : Access}
    (h : inCsr c a.addr.toNat = true ∨ inFb c a.addr.toNat = true ∨ inDesc c a.addr.toNat = true) (hw : a.wellSized = false) :
    hostSelect c a = .busError := by
  unfold hostSelect
  simp only [hw, Bool.false_eq_true, if_false]
  split
  · rfl
  · split
    · rfl
    · split
      · rfl
      · simp_all

theorem hostSelect_outside {c : Config} {a : Access} (h1 : inCsr c a.addr.toNat = false) (h2 : inFb c a.addr.toNat = false)
    (h3 : inDesc c a.addr.toNat = false) : hostSelect c a = .notSelected := by
  simp [hostSelect, h1, h2, h3]

theorem hostSelect_regRead {c : Config} (h : c.legal = true) (r : Reg) : hostSelect c (regReadAccess c r) = .regRead r := by
  obtain ⟨h1, h2, h3⟩ := regAddr_facts h r
  unfold regReadAccess
  rw [hostSelect_csr (by rw [readAt_addr h1]; exact h3) (readAt_wellSized h1 h2), readAt_addr h1]
  simp [readAt, selectCsr]

theorem hostSelect_command {c : Config} (h : c.legal = true) (w : Word) :
    hostSelect c (regWriteAccess c .cmd w) = .command w := by
  obtain ⟨h1, h2, h3⟩ := regAddr_facts h .cmd
  unfold regWriteAccess
  rw [hostSelect_csr (by rw [writeAt_addr w h1]; exact h3) (writeAt_wellSized w h1 h2), writeAt_addr w h1]
  simp [writeAt, selectCsr, Reg.offset]

theorem hostSelect_regWrite {c : Config} (h : c.legal = true) {r : Reg} (v : Word) (hr : r ≠ .cmd) :
    hostSelect c (regWriteAccess c r v) = .regWrite r v := by
  obtain ⟨h1, h2, h3⟩ := regAddr_facts h r
  unfold regWriteAccess
  rw [hostSelect_csr (by rw [writeAt_addr v h1]; exact h3) (writeAt_wellSized v h1 h2), writeAt_addr v h1]
  have : r.offset ≠ 0 := fun e => hr (r.offset_eq_zero.mp e)
  simp [writeAt, selectCsr, this]

/-- Everything an access can select, with the access it is. -/
theorem hostSelect_inv {c : Config} (hl : c.legal = true) (a : Access) :
    match hostSelect c a with
    | .command w => a = regWriteAccess c .cmd w
    | .regWrite r v => r ≠ .cmd ∧ a = regWriteAccess c r v
    | .fbWrite n v => inFb c n = true ∧ n % 4 = 0 ∧ a = writeAt n v
    | .regRead _ => a.op = .read
    | .fbRead n => a.op = .read ∧ inFb c n = true ∧ n % 4 = 0
    | .descRead _ => a.op = .read
    | .busError => True
    | .notSelected => True := by
  cases hw : a.wellSized
  · have : hostSelect c a = .busError ∨ hostSelect c a = .notSelected := by
      by_cases h : inCsr c a.addr.toNat = true ∨ inFb c a.addr.toNat = true ∨ inDesc c a.addr.toNat = true
      · exact .inl (hostSelect_badSize h hw)
      · simp only [not_or, Bool.not_eq_true] at h
        exact .inr (hostSelect_outside h.1 h.2.1 h.2.2)
    rcases this with e | e <;> rw [e] <;> trivial
  · obtain ⟨hs, h4⟩ := (wellSized_iff a).mp hw
    by_cases hc : inCsr c a.addr.toNat = true
    · rw [hostSelect_csr hc hw]
      have hc' := (inCsr_iff c _).mp hc
      have hoff : a.addr.toNat - c.csrBase < 32 := by omega
      have hoff4 : (a.addr.toNat - c.csrBase) % 4 = 0 := by
        have := (Config.facts hl).csr_aligned
        omega
      cases hop : a.op with
      | read => simp only [selectCsr]
      | write v =>
        have ha := access_eq_writeAt hop hs
        simp only [selectCsr]
        by_cases h0 : a.addr.toNat - c.csrBase = 0
        · rw [if_pos h0]
          simp only [regWriteAccess, Reg.offset]
          rw [show c.csrBase + 0 = a.addr.toNat by omega]
          exact ha
        · rw [if_neg h0]
          have he := Reg.offset_ofOffset hoff hoff4
          refine ⟨fun e => h0 ?_, ?_⟩
          · rw [← he, e]; rfl
          · simp only [regWriteAccess, he]
            rw [show c.csrBase + (a.addr.toNat - c.csrBase) = a.addr.toNat by omega]
            exact ha
    · by_cases hf : inFb c a.addr.toNat = true
      · cases hop : a.op with
        | read => rw [(hostSelect_fb hl hf hw).1 hop]; exact ⟨rfl, hf, h4⟩
        | write v => rw [(hostSelect_fb hl hf hw).2 v hop]; exact ⟨hf, h4, access_eq_writeAt hop hs⟩
      · by_cases hd : inDesc c a.addr.toNat = true
        · cases hop : a.op with
          | read => rw [(hostSelect_desc hl hd hw).1 hop]
          | write v => rw [(hostSelect_desc hl hd hw).2 v hop]; trivial
        · simp only [Bool.not_eq_true] at hc hf hd
          rw [hostSelect_outside hc hf hd]; trivial

/-- A read access never selects a write. -/
theorem hostSelect_read (c : Config) {a : Access} (h : a.op = .read) (s : State) : serve s (hostSelect c a) = s ∧
    ∀ w, hostSelect c a ≠ .command w := by
  unfold hostSelect
  simp only [h]
  split
  · split
    · exact ⟨rfl, by simp [selectCsr]⟩
    · exact ⟨rfl, by simp⟩
  · split
    · split <;> exact ⟨rfl, by simp⟩
    · split
      · split <;> exact ⟨rfl, by simp⟩
      · exact ⟨rfl, by simp⟩

/-! ### What an access selects on the engine port -/

theorem engineSelect_fb {c : Config} {a : Access} (hop : a.op = .read) (hw : a.wellSized = true)
    (h : inFb c a.addr.toNat = true) : engineSelect c a = .fbRead a.addr.toNat := by
  simp [engineSelect, hop, hw, h]

theorem engineSelect_desc {c : Config} {a : Access} (hop : a.op = .read) (hw : a.wellSized = true)
    (hf : inFb c a.addr.toNat = false) (h : inDesc c a.addr.toNat = true) :
    engineSelect c a = .descRead ((a.addr.toNat - c.descBase) / 4) := by
  simp [engineSelect, hop, hw, hf, h]

/-! ### The step of a port whose turn it is -/

/-- The host port's head access is performed. -/
theorem hostMove_performs {s : State} {a : Access} {q : List Access} (hq : s.hostQ = a :: q)
    (hh : holds s (hostSelect s.cfg a) = false) :
    hostMove s = performHost (s.completeHost a (respond s (hostSelect s.cfg a))) (hostSelect s.cfg a) := by
  simp only [hostMove, hq, hh, Bool.false_eq_true, if_false]

/-- The host port's head access holds. -/
theorem hostMove_holds {s : State} {a : Access} {q : List Access} (hq : s.hostQ = a :: q)
    (hh : holds s (hostSelect s.cfg a) = true) : hostMove s = .next s := by
  simp only [hostMove, hq, hh, if_true]

/-- The engine port's head access is performed. -/
theorem engineMove_performs {s : State} {a : Access} {q : List Access} (hq : s.engQ = a :: q)
    (hh : holds s (engineSelect s.cfg a) = false) :
    engineMove s = s.completeEngine a (respond s (engineSelect s.cfg a)) := by
  simp only [engineMove, hq, hh, Bool.false_eq_true, if_false]

/-- The engine port's head access holds. -/
theorem engineMove_holds {s : State} {a : Access} {q : List Access} (hq : s.engQ = a :: q)
    (hh : holds s (engineSelect s.cfg a) = true) : engineMove s = s := by
  simp only [engineMove, hq, hh, if_true]

/-- The schedule plays no part in an answer. -/
theorem respond_sched (s : State) (rest : List Move) (x : Selected) : respond { s with sched := rest } x = respond s x := by
  cases x with
  | regRead r => cases r <;> rfl
  | _ => rfl

/-- The head access is performed, with its answer recorded first. -/
theorem step_host {s : State} {a : Access} {rest : List Move} {q : List Access} (h : HostTurn s a rest q)
    (hh : holds s (hostSelect s.cfg a) = false) :
    step s = performHost (s.hostAnswered rest q a (respond s (hostSelect s.cfg a))) (hostSelect s.cfg a) := by
  rw [step_turn h.toTurn]
  refine (hostMove_performs (s := { s with sched := rest }) h.access hh).trans ?_
  change performHost (State.completeHost { s with sched := rest } a
    (respond { s with sched := rest } (hostSelect s.cfg a))) (hostSelect s.cfg a) = _
  rw [respond_sched]
  simp only [State.completeHost, State.hostAnswered, h.access, List.tail_cons]

/-- The head access holds. -/
theorem step_host_holds {s : State} {a : Access} {rest : List Move} {q : List Access} (h : HostTurn s a rest q)
    (hh : holds s (hostSelect s.cfg a) = true) : step s = .next { s with sched := rest } := by
  rw [step_turn h.toTurn]
  exact hostMove_holds (s := { s with sched := rest }) h.access hh

/-- The engine port's head access is performed. -/
theorem step_engine {s : State} {a : Access} {rest : List Move} {q : List Access} (h : EngineTurn s a rest q)
    (hh : holds s (engineSelect s.cfg a) = false) :
    step s = .next (s.engineAnswered rest q a (respond s (engineSelect s.cfg a))) := by
  rw [step_turn h.toTurn]
  refine congrArg Host.Outcome.next ((engineMove_performs (s := { s with sched := rest }) h.access hh).trans ?_)
  change State.completeEngine { s with sched := rest } a
    (respond { s with sched := rest } (engineSelect s.cfg a)) = _
  rw [respond_sched]
  simp only [State.completeEngine, State.engineAnswered, h.access, List.tail_cons]

/-- The engine port's head access holds. -/
theorem step_engine_holds {s : State} {a : Access} {rest : List Move} {q : List Access} (h : EngineTurn s a rest q)
    (hh : holds s (engineSelect s.cfg a) = true) : step s = .next { s with sched := rest } := by
  rw [step_turn h.toTurn]
  exact congrArg Host.Outcome.next (engineMove_holds (s := { s with sched := rest }) h.access hh)

/-! ### What the host port can do to the frame store -/

/-- Everything a host access can do to the frame store: nothing; one plane word written (R176); one pixel encoded (R112). -/
theorem hostMove_fb {s t : State} (hl : s.cfg.legal = true) (h : hostMove s = .next t) :
    (t.fb = s.fb) ∨
    (s.busy = false ∧ ∃ n v, inFb s.cfg n = true ∧ n % 4 = 0 ∧ t.fb = s.fb.writeWord n v) ∨
    (s.busy = false ∧ ∃ b st p, b < s.cfg.boards ∧ st < s.cfg.strips ∧ p < s.cfg.numPixels ∧
      t.fb = s.fb.putPlaneBits s.cfg (st + s.cfg.off) (pixelBits s.cfg s.active b p s.rgb)) := by
  rcases hostMove_cases h with ⟨_, rfl⟩ | ⟨a, q, hq, ⟨_, rfl⟩ | ⟨_, h⟩⟩
  · exact .inl rfl
  · exact .inl rfl
  have inv := hostSelect_inv hl a
  generalize hr : respond s (hostSelect s.cfg a) = resp at h
  cases hx : hostSelect s.cfg a with
  | command w =>
    rw [hx] at h
    simp only [performHost] at h
    rcases runCommand_cases w (s.completeHost a resp) with ⟨r, _, e⟩ | ⟨i, _, e⟩ <;> rw [e] at h
    · simp only [Host.Outcome.next.injEq] at h; subst h; exact .inl rfl
    · rcases exec_cases i (s.completeHost a resp) with ⟨_, e⟩ | ⟨_, _, e⟩ | ⟨_, _, e⟩ |
        ⟨b, st, p, _, ⟨_, e⟩ | ⟨_, _, e⟩ | ⟨hb, h1, h2, h3, e⟩⟩ <;>
        rw [e] at h <;> simp only [Host.Outcome.next.injEq] at h <;> subst h
      case inr.inr.inr.inr.inr => exact .inr (.inr ⟨hb, b, st, p, h1, h2, h3, rfl⟩)
      all_goals exact .inl rfl
  | regWrite r v =>
    rw [hx] at h
    simp only [performHost, serve, Host.Outcome.next.injEq] at h
    subst h
    cases r <;> exact .inl rfl
  | fbWrite n v =>
    rw [hx] at h inv
    simp only [performHost, serve, fbWrite, Host.Outcome.next.injEq] at h
    subst h
    split
    · exact .inl rfl
    · next hb => exact .inr (.inl ⟨by simpa using hb, n, v, inv.1, inv.2.1, rfl⟩)
  | regRead r => rw [hx] at h; simp only [performHost, serve, Host.Outcome.next.injEq] at h; subst h; exact .inl rfl
  | fbRead a => rw [hx] at h; simp only [performHost, serve, Host.Outcome.next.injEq] at h; subst h; exact .inl rfl
  | descRead i => rw [hx] at h; simp only [performHost, serve, Host.Outcome.next.injEq] at h; subst h; exact .inl rfl
  | busError => rw [hx] at h; simp only [performHost, serve, Host.Outcome.next.injEq] at h; subst h; exact .inl rfl
  | notSelected => rw [hx] at h; simp only [performHost, serve, Host.Outcome.next.injEq] at h; subst h; exact .inl rfl

/-- An access that edits selects a frame-store write, or a command that decodes to ENCODE. -/
theorem hostSelect_edits {c : Config} (hl : c.legal = true) {a : Access} (h : Edits c a) :
    (∃ n v, hostSelect c a = .fbWrite n v) ∨
      ∃ w b st p, hostSelect c a = .command w ∧ decode w = .ok (.encodePixel b st p) := by
  rcases h with ⟨n, v, hn, h4, rfl⟩ | ⟨w, b, st, p, rfl, hd⟩
  · have hlt : n < 2 ^ 32 := by
      have := (Config.facts hl).fb_end
      rw [inFb_iff] at hn
      omega
    have ha := writeAt_addr v hlt
    refine .inl ⟨n, v, ?_⟩
    have e := (hostSelect_fb hl (a := writeAt n v) (by rw [ha]; exact hn) (writeAt_wellSized v hlt h4)).2 v rfl
    rw [ha] at e
    exact e
  · exact .inr ⟨w, b, st, p, hostSelect_command hl w, hd⟩

/-- A host port whose next access edits nothing leaves the frame store. -/
theorem hostMove_fb_of_not_edits {s t : State} (hl : s.cfg.legal = true) (h : hostMove s = .next t)
    (hn : ∀ a ∈ s.hostQ, ¬ Edits s.cfg a) : t.fb = s.fb := by
  rcases hostMove_cases h with ⟨_, rfl⟩ | ⟨a, q, hq, ⟨_, rfl⟩ | ⟨_, h⟩⟩
  · rfl
  · rfl
  have ha : ¬ Edits s.cfg a := hn a (by simp [hq])
  have inv := hostSelect_inv hl a
  have hf := performHost_fb h
  cases hx : hostSelect s.cfg a <;> rw [hx] at hf inv
  case command w =>
    rcases hf with e | ⟨_, ⟨w', b, st, p, e, hd⟩ | ⟨n, v, e⟩⟩
    · exact e
    · obtain rfl : w = w' := by simpa using e
      exact absurd (.inr ⟨w, b, st, p, inv, hd⟩) ha
    · simp at e
  case fbWrite n v => exact absurd (.inl ⟨n, v, inv⟩) ha
  all_goals rcases hf with e | ⟨_, ⟨_, _, _, _, e, _⟩ | ⟨_, _, e⟩⟩ <;> first | exact e | simp at e

/-- An aligned word of the FB window lies in it with its four bytes. -/
theorem inFb_word {c : Config} (hl : c.legal = true) {n x : Nat} (h : inFb c n = true) (h4 : n % 4 = 0)
    (hx : n ≤ x ∧ x < n + 4) : inFb c x = true := by
  have f := Config.facts hl
  have := f.fb_aligned
  rw [inFb_iff] at *
  unfold Config.fbSize Config.bufSize at *
  omega

/-- A host access keeps the frame store's canonical form and keeps it inside its window. -/
theorem hostMove_fb_inv {s t : State} (hl : s.cfg.legal = true) (h : hostMove s = .next t)
    (hwf : Memory.wf s.fb.cells) (hin : ∀ x ∈ s.fb.cells, inFb s.cfg x.1 = true) :
    Memory.wf t.fb.cells ∧ ∀ x ∈ t.fb.cells, inFb s.cfg x.1 = true := by
  rcases hostMove_fb hl h with e | ⟨_, n, v, hn, h4, e⟩ | ⟨_, b, st, p, h1, _, h3, e⟩ <;> rw [e]
  · exact ⟨hwf, hin⟩
  · refine ⟨FrameStore.writeWord_wf hwf n v, fun x hx => ?_⟩
    rcases FrameStore.mem_writeWord hx with hx | hx
    · exact inFb_word hl hn h4 hx
    · exact hin x hx
  · refine ⟨FrameStore.putPlaneBits_wf _ _ _ hwf, fun x hx => ?_⟩
    rcases FrameStore.mem_putPlaneBits _ _ _ hx with ⟨y, hy, hxy⟩ | hx
    · obtain ⟨ch, k, hk, rfl⟩ := mem_pixelBits.mp hy
      obtain ⟨h4, h0, _, _⟩ := fbAddr_facts hl (u := s.active) h1 (slotOf_lt h3 ch) hk
      exact inFb_word hl h0 h4 hxy
    · exact hin x hx

end Sys2Proof.Machine
end

