-- ==== Sys2Proof/Laws/Decode.lean ====
section
/-! SUPPORT. The words of the command formats as numbers and as fields (R91, R92), for the laws of decoding and encoding. -/

namespace Sys2Proof

theorem getLsbD_encodeMask {i : Nat} (hi : i < 32) :
    (0xF0E00000#32).getLsbD i = decide (28 ≤ i ∨ (21 ≤ i ∧ i < 24)) := by
  have : ∀ i : Fin 32, (0xF0E00000#32).getLsbD i.val = decide (28 ≤ i.val ∨ (21 ≤ i.val ∧ i.val < 24)) := by decide
  exact this ⟨i, hi⟩

theorem getLsbD_encodePattern {i : Nat} (hi : i < 32) : (0x10000000#32).getLsbD i = decide (i = 28) := by
  have : ∀ i : Fin 32, (0x10000000#32).getLsbD i.val = decide (i.val = 28) := by decide
  exact this ⟨i, hi⟩

/-- The ENCODE row, as fields: OP is 1 and RSV is 0 (R91, R94). -/
theorem encodeRow_iff (w : Word) :
    w &&& 0xF0E00000#32 = 0x10000000#32 ↔ w.extractLsb' 28 4 = 1#4 ∧ w.extractLsb' 21 3 = 0#3 := by
  have hone : ∀ i : Nat, i < 4 → (1#4).getLsbD i = decide (i = 0) := fun i hi => by
    have : ∀ i : Fin 4, (1#4).getLsbD i.val = decide (i.val = 0) := by decide
    exact this ⟨i, hi⟩
  constructor
  · intro h
    have hb : ∀ i, i < 32 → (28 ≤ i ∨ (21 ≤ i ∧ i < 24)) → w.getLsbD i = decide (i = 28) := fun i hi hm => by
      have := congrArg (fun x => x.getLsbD i) h
      simpa only [BitVec.getLsbD_and, getLsbD_encodeMask hi, getLsbD_encodePattern hi, hm, decide_true, Bool.and_true] using this
    constructor
    · refine BitVec.eq_of_getLsbD_eq fun i hi => ?_
      rw [BitVec.getLsbD_extractLsb', hb (28 + i) (by omega) (.inl (by omega)), hone i hi]
      simp [hi]
    · refine BitVec.eq_of_getLsbD_eq fun i hi => ?_
      rw [BitVec.getLsbD_extractLsb', hb (21 + i) (by omega) (.inr (by omega)), BitVec.getLsbD_zero]
      simp only [Bool.and_eq_false_iff, decide_eq_false_iff_not]
      omega
  · rintro ⟨h1, h2⟩
    refine BitVec.eq_of_getLsbD_eq fun i hi => ?_
    rw [BitVec.getLsbD_and, getLsbD_encodeMask hi, getLsbD_encodePattern hi]
    by_cases hop : 28 ≤ i
    · have := congrArg (fun x => x.getLsbD (i - 28)) h1
      simp only [BitVec.getLsbD_extractLsb', hone (i - 28) (by omega)] at this
      rw [show 28 + (i - 28) = i by omega] at this
      have hlt : i - 28 < 4 := by omega
      simp only [hlt, decide_true, Bool.true_and] at this
      rw [this]
      simp only [hop, true_or, decide_true, Bool.and_true, decide_eq_decide]
      omega
    · by_cases hr : 21 ≤ i ∧ i < 24
      · have := congrArg (fun x => x.getLsbD (i - 21)) h2
        simp only [BitVec.getLsbD_extractLsb', BitVec.getLsbD_zero] at this
        rw [show 21 + (i - 21) = i by omega] at this
        have hlt : i - 21 < 3 := by omega
        simp only [hlt, decide_true, Bool.true_and] at this
        rw [this]
        have : i ≠ 28 := by omega
        simp [this]
      · have : i ≠ 28 := by omega
        simp [hop, hr, this]

/-- The ENCODE row as numbers. -/
theorem encodeRow_iff_toNat (w : Word) :
    w &&& 0xF0E00000#32 = 0x10000000#32 ↔ w.toNat / 2 ^ 28 = 1 ∧ w.toNat / 2 ^ 21 % 8 = 0 := by
  rw [encodeRow_iff, ← BitVec.toNat_inj, ← BitVec.toNat_inj]
  simp only [BitVec.extractLsb'_toNat, BitVec.toNat_ofNat, Nat.shiftRight_eq_div_pow]
  have := w.isLt
  omega

/-- The word of an ENCODE as a number (R91). -/
theorem encode_toNat {b st p : Nat} (hb : b < 16) (hs : st < 32) (hp : p < 65536) :
    (encode (.encodePixel b st p)).toNat = 2 ^ 28 + b * 2 ^ 24 + st * 2 ^ 16 + p := by
  have e1 : (BitVec.ofNat 32 b <<< 24).toNat = b * 2 ^ 24 := by
    rw [BitVec.toNat_shiftLeft, BitVec.toNat_ofNat, Nat.mod_eq_of_lt (by omega : b < 2 ^ 32), Nat.shiftLeft_eq]
    exact Nat.mod_eq_of_lt (by omega)
  have e2 : (BitVec.ofNat 32 st <<< 16).toNat = st * 2 ^ 16 := by
    rw [BitVec.toNat_shiftLeft, BitVec.toNat_ofNat, Nat.mod_eq_of_lt (by omega : st < 2 ^ 32), Nat.shiftLeft_eq]
    exact Nat.mod_eq_of_lt (by omega)
  have e3 : (BitVec.ofNat 32 p).toNat = p := by
    rw [BitVec.toNat_ofNat]; exact Nat.mod_eq_of_lt (by omega)
  have e0 : (1#32 <<< 28).toNat = 2 ^ 28 := by decide
  simp only [encode, BitVec.toNat_or, e0, e1, e2, e3]
  rw [show (2 : Nat) ^ 28 = 2 ^ 28 * 1 by omega, Nat.mul_comm b, Nat.mul_comm st]
  rw [← Nat.two_pow_add_eq_or_of_lt (i := 28) (b := 2 ^ 24 * b) (by omega) 1]
  rw [show 2 ^ 28 * 1 + 2 ^ 24 * b = 2 ^ 24 * (16 + b) by omega]
  rw [← Nat.two_pow_add_eq_or_of_lt (i := 24) (b := 2 ^ 16 * st) (by omega) (16 + b)]
  rw [show 2 ^ 24 * (16 + b) + 2 ^ 16 * st = 2 ^ 16 * (256 * (16 + b) + st) by omega]
  rw [← Nat.two_pow_add_eq_or_of_lt (i := 16) (b := p) (by omega)]

/-- The fields of a word as numbers (R92). -/
theorem boardField_eq (w : Word) : boardField w = w.toNat / 2 ^ 24 % 16 := by
  simp [boardField, BitVec.extractLsb'_toNat, Nat.shiftRight_eq_div_pow]

theorem stripField_eq (w : Word) : stripField w = w.toNat / 2 ^ 16 % 32 := by
  simp [stripField, BitVec.extractLsb'_toNat, Nat.shiftRight_eq_div_pow]

theorem pixelField_eq (w : Word) : pixelField w = w.toNat % 65536 := by
  simp [pixelField, BitVec.extractLsb'_toNat]

/-- The operands of a decoded ENCODE fit their fields. -/
theorem fields_lt (w : Word) : boardField w < 16 ∧ stripField w < 32 ∧ pixelField w < 65536 := by
  rw [boardField_eq, stripField_eq, pixelField_eq]
  omega

/-- The rows of the opcode map do not overlap (R94). -/
theorem opcodeMap_disjoint : opcodeMap.Pairwise fun x y => x.pattern &&& (x.mask &&& y.mask) ≠ y.pattern &&& (x.mask &&& y.mask) := by
  decide

/-! ### The cases of the decoder -/

/-- Everything the decoder can answer, with the row of the opcode map it comes from (R94, R96). -/
theorem decode_cases (w : Word) :
    (w = 0x00000000#32 ∧ decode w = .ok .nop) ∨
    (w = 0x20000000#32 ∧ decode w = .ok .showPixels) ∨
    (w &&& 0xF0E00000#32 = 0x10000000#32 ∧ decode w = .ok (.encodePixel (boardField w) (stripField w) (pixelField w))) ∨
    (w ≠ 0x00000000#32 ∧ w ≠ 0x20000000#32 ∧ w &&& 0xF0E00000#32 ≠ 0x10000000#32 ∧
      decode w = .error (reservedReason w)) := by
  unfold decode
  split
  · exact .inl ⟨by assumption, rfl⟩
  · split
    · exact .inr (.inr (.inl ⟨by assumption, rfl⟩))
    · split
      · exact .inr (.inl ⟨by assumption, rfl⟩)
      · exact .inr (.inr (.inr ⟨by assumption, by assumption, by assumption, rfl⟩))

/-- A word of the ENCODE row decodes to ENCODE with its fields. -/
theorem decode_encodeRow {w : Word} (h : w &&& 0xF0E00000#32 = 0x10000000#32) :
    decode w = .ok (.encodePixel (boardField w) (stripField w) (pixelField w)) := by
  unfold decode
  rw [if_neg, if_pos h]
  rintro rfl
  exact absurd h (by decide)

theorem decode_nop_iff (w : Word) : decode w = .ok .nop ↔ w = 0x00000000#32 := by
  rcases decode_cases w with ⟨h, e⟩ | ⟨h, e⟩ | ⟨h, e⟩ | ⟨h, _, _, e⟩
  · exact ⟨fun _ => h, fun _ => e⟩
  · rw [e, h]; decide
  · rw [e]
    simp only [Except.ok.injEq, reduceCtorEq, false_iff]
    rintro rfl
    exact absurd h (by decide)
  · simp [e, h]

theorem decode_show_iff (w : Word) : decode w = .ok .showPixels ↔ w = 0x20000000#32 := by
  rcases decode_cases w with ⟨h, e⟩ | ⟨h, e⟩ | ⟨h, e⟩ | ⟨_, h, _, e⟩
  · rw [e, h]; decide
  · exact ⟨fun _ => h, fun _ => e⟩
  · rw [e]
    simp only [Except.ok.injEq, reduceCtorEq, false_iff]
    rintro rfl
    exact absurd h (by decide)
  · simp [e, h]

/-- What decodeTableWord reads is what the decoder reads. -/
theorem decode_tableWord {nbits w : Nat} {i : Instr} (h : decodeTableWord nbits w = some i) :
    decode (tableWord nbits w) = .ok i := by
  unfold decodeTableWord at h
  split at h
  · next j e => simp only [Option.some.injEq] at h; rw [e, h]
  · simp at h

end Sys2Proof
end

