-- ==== Sys2Proof/Laws/Flags.lean ====
section
/-! SUPPORT. The flag sets and the register words, bit by bit: where each flag stands (R39, R41), write-1-to-clear (R40), the
bits of STATUS, and the number PARAM is (R42). -/

namespace Sys2Proof.Machine

/-! ### Sets of flags -/

/-- Setting one flag. -/
theorem FlagSet.get_set (fs : FlagSet) (f g : Flag) : (fs.set f).get g = (fs.get g || decide (g = f)) := by
  cases f <;> cases g <;> simp [FlagSet.set, FlagSet.get]

@[simp] theorem FlagSet.get_none (f : Flag) : FlagSet.none.get f = false := by cases f <;> rfl

@[simp] theorem FlagSet.get_ofWord (w : Word) (f : Flag) : (FlagSet.ofWord w).get f = w.getLsbD f.pos := by cases f <;> rfl

@[simp] theorem FlagSet.get_without (fs gs : FlagSet) (f : Flag) : (fs.without gs).get f = (fs.get f && !gs.get f) := by
  cases f <;> rfl

/-- Two sets with the same flags are equal. -/
theorem FlagSet.ext_get {fs gs : FlagSet} (h : ∀ f, fs.get f = gs.get f) : fs = gs := by
  have h1 := h .passDone
  have h2 := h .errCmd
  have h3 := h .errAddr
  have h4 := h .errBusy
  have h5 := h .showOvf
  have h6 := h .errDone
  obtain ⟨a1, a2, a3, a4, a5, a6⟩ := fs
  obtain ⟨b1, b2, b3, b4, b5, b6⟩ := gs
  simp only [FlagSet.get] at *
  subst h1 h2 h3 h4 h5 h6
  rfl

/-- Two sets meet when some flag is in both (R210). -/
theorem FlagSet.meets_iff (fs gs : FlagSet) : fs.meets gs = true ↔ ∃ f, fs.get f = true ∧ gs.get f = true := by
  constructor
  · intro h
    simp only [FlagSet.meets, Bool.or_eq_true, Bool.and_eq_true] at h
    rcases h with ((((h | h) | h) | h) | h) | h
    · exact ⟨.passDone, h⟩
    · exact ⟨.errCmd, h⟩
    · exact ⟨.errAddr, h⟩
    · exact ⟨.errBusy, h⟩
    · exact ⟨.showOvf, h⟩
    · exact ⟨.errDone, h⟩
  · rintro ⟨f, h⟩
    cases f <;> simp only [FlagSet.get] at h <;> simp [FlagSet.meets, h]

/-! ### Bits of words -/

/-- A single bit at its place. -/
theorem getLsbD_bitAt (b : Bool) (i : Nat) {j : Nat} (hj : j < 32) : (bitAt b i).getLsbD j = (b && decide (j = i)) := by
  unfold bitAt
  rw [BitVec.getLsbD_shiftLeft, BitVec.getLsbD_setWidth, BitVec.getLsbD_ofBool]
  by_cases h : j = i
  · subst h; simp [hj]
  · by_cases hlt : j < i
    · simp [hlt, h]
    · have : j - i ≠ 0 := by omega
      simp [this, h]

/-- A field at its place. -/
theorem getLsbD_field {n : Nat} (x : BitVec n) (i : Nat) {j : Nat} (hj : j < 32) :
    (x.setWidth 32 <<< i).getLsbD j = (decide (i ≤ j) && x.getLsbD (j - i)) := by
  rw [BitVec.getLsbD_shiftLeft, BitVec.getLsbD_setWidth]
  by_cases h : i ≤ j
  · simp [hj, h, show ¬ j < i by omega, show j - i < 32 by omega]
  · simp [h, show j < i by omega]

/-- The bit a flag has in its word (R39, R41). -/
theorem FlagSet.getLsbD_toWord_pos (fs : FlagSet) (f : Flag) : fs.toWord.getLsbD f.pos = fs.get f := by
  have hp : f.pos < 32 := by cases f <;> decide
  simp only [FlagSet.toWord, BitVec.getLsbD_or, getLsbD_bitAt _ _ hp]
  cases f <;> simp [Flag.pos, FlagSet.get]

/-- The word of a set, bit by bit. -/
theorem FlagSet.getLsbD_toWord (fs : FlagSet) {j : Nat} (hj : j < 32) :
    fs.toWord.getLsbD j = (fs.passDone && decide (j = 16) || fs.errCmd && decide (j = 17) || fs.errAddr && decide (j = 18)
      || fs.errBusy && decide (j = 19) || fs.showOvf && decide (j = 20) || fs.errDone && decide (j = 21)) := by
  simp only [FlagSet.toWord, BitVec.getLsbD_or, getLsbD_bitAt _ _ hj]

/-- STATUS, bit by bit (R39). -/
theorem getLsbD_statusWord (s : State) {j : Nat} (hj : j < 32) :
    s.statusWord.getLsbD j =
      (s.busy && decide (j = 0) || s.req && decide (j = 1) || s.ready && decide (j = 2) || s.xferPending && decide (j = 3)
        || bufferBit s.active && decide (j = 4) || (decide (5 ≤ j) && s.phase.code.getLsbD (j - 5))
        || s.settling && decide (j = 7) || (decide (8 ≤ j) && s.boardIdx.getLsbD (j - 8))
        || (decide (12 ≤ j) && s.sel.getLsbD (j - 12)) || s.sticky.toWord.getLsbD j) := by
  unfold State.statusWord
  rw [BitVec.getLsbD_or, BitVec.getLsbD_or, BitVec.getLsbD_or, BitVec.getLsbD_or, BitVec.getLsbD_or, BitVec.getLsbD_or,
    BitVec.getLsbD_or, BitVec.getLsbD_or, BitVec.getLsbD_or, getLsbD_bitAt _ _ hj, getLsbD_bitAt _ _ hj,
    getLsbD_bitAt _ _ hj, getLsbD_bitAt _ _ hj, getLsbD_bitAt _ _ hj, getLsbD_bitAt _ _ hj,
    getLsbD_field _ _ hj, getLsbD_field _ _ hj, getLsbD_field _ _ hj]

/-- STATUS after reset (R39). -/
theorem statusWord_reset (c : Config) (epoch : Nat) : (State.resetWith c epoch).statusWord = 0x00000080#32 := by
  simp only [State.statusWord, State.resetWith, State.busy]
  decide

/-! ### PARAM -/

/-- PARAM as a number, for field values that fit (R42). -/
theorem paramWord_toNat {c : Config} (hn : c.numPixels < 2 ^ 16) (hs : c.strips < 2 ^ 8) (hb : c.boards < 2 ^ 7)
    (ho : c.off ≤ 1) :
    (paramWord c).toNat = c.numPixels + c.strips * 2 ^ 16 + c.boards * 2 ^ 24 + c.off * 2 ^ 31 := by
  have sh : ∀ x i, x * 2 ^ i < 2 ^ 32 → (BitVec.ofNat 32 x <<< i).toNat = 2 ^ i * x := by
    intro x i h
    have hx : x < 2 ^ 32 := Nat.lt_of_le_of_lt (Nat.le_mul_of_pos_right x (Nat.two_pow_pos i)) h
    rw [BitVec.toNat_shiftLeft, BitVec.toNat_ofNat, Nat.mod_eq_of_lt hx, Nat.shiftLeft_eq, Nat.mod_eq_of_lt h, Nat.mul_comm]
  have h0 : (BitVec.ofNat 32 c.numPixels).toNat = c.numPixels := toNat_ofNat32 (by omega)
  simp only [paramWord, BitVec.toNat_or, h0, sh c.strips 16 (by omega), sh c.boards 24 (by omega), sh c.off 31 (by omega)]
  rw [Nat.lor_comm c.numPixels, ← Nat.two_pow_add_eq_or_of_lt (i := 16) hn]
  rw [Nat.lor_comm (2 ^ 16 * c.strips + c.numPixels), ← Nat.two_pow_add_eq_or_of_lt (i := 24) (b := 2 ^ 16 * c.strips + c.numPixels) (by omega)]
  rw [Nat.lor_comm, ← Nat.two_pow_add_eq_or_of_lt (i := 31) (b := 2 ^ 24 * c.boards + (2 ^ 16 * c.strips + c.numPixels))
    (by omega)]
  omega

end Sys2Proof.Machine
end

