-- ==== Sys2Proof/Laws/Output.lean ====
section
/-! SUPPORT. What leaves the block: the places of plane words by address (R63), the stream of a board (R139), the descriptor
words (R135), and what an engine that follows the chain reads (R55). -/

namespace Sys2Proof.Machine

/-! ### Addresses and places -/

/-- The place of a plane word's address is its own (R63). -/
theorem fbIndex_fbAddr {c : Config} (u : Buffer) {b j k : Nat} (hb : b < c.boards) (hj : j < c.slots) (hk : k < 8) :
    fbIndex c (fbAddr c u b j k) = { u := u.val, b := b, j := j, k := k } := by
  have hw : (fbAddr c u b j k - c.fbBase) / 4 = ((u.val * c.boards + b) * c.slots + j) * 8 + k := by
    unfold fbAddr; omega
  have h8 : (((u.val * c.boards + b) * c.slots + j) * 8 + k) / 8 = (u.val * c.boards + b) * c.slots + j := by omega
  have hs : 0 < c.slots := by omega
  have hB : 0 < c.boards := by omega
  have hj1 : ((u.val * c.boards + b) * c.slots + j) / c.slots = u.val * c.boards + b := by
    rw [Nat.mul_comm, Nat.mul_add_div hs, Nat.div_eq_of_lt hj, Nat.add_zero]
  have hj2 : ((u.val * c.boards + b) * c.slots + j) % c.slots = j := by
    rw [Nat.mul_comm, Nat.mul_add_mod, Nat.mod_eq_of_lt hj]
  have hb1 : (u.val * c.boards + b) / c.boards = u.val := by
    rw [Nat.mul_comm, Nat.mul_add_div hB, Nat.div_eq_of_lt hb, Nat.add_zero]
  have hb2 : (u.val * c.boards + b) % c.boards = b := by
    rw [Nat.mul_comm, Nat.mul_add_mod, Nat.mod_eq_of_lt hb]
  simp only [fbIndex, hw]
  rw [← Nat.div_div_eq_div_mul, ← Nat.div_div_eq_div_mul, h8, hj1, hj2, hb1, hb2]
  congr 1
  omega

/-- Every aligned address of the FB window is the address of a plane word (R63). -/
theorem fbAddr_fbIndex {c : Config} (hl : c.legal = true) {a : Nat} (h : inFb c a = true) (h4 : a % 4 = 0) :
    ∃ u : Buffer, (fbIndex c a).u = u.val ∧ (fbIndex c a).b < c.boards ∧ (fbIndex c a).j < c.slots ∧ (fbIndex c a).k < 8 ∧
      fbAddr c u (fbIndex c a).b (fbIndex c a).j (fbIndex c a).k = a := by
  have f := Config.facts hl
  have hs := slots_pos hl
  have hB := f.boards_pos
  have hal := f.fb_aligned
  rw [inFb_iff] at h
  unfold Config.fbSize Config.bufSize at h
  obtain ⟨w, hw⟩ : ∃ w, w = (a - c.fbBase) / 4 := ⟨_, rfl⟩
  have ha : a = c.fbBase + w * 4 := by omega
  have hlt : w < 2 * (c.boards * c.slots) * 8 := by omega
  have h8 : w / 8 < 2 * (c.boards * c.slots) := by omega
  have hj : w / 8 % c.slots < c.slots := Nat.mod_lt _ hs
  have hq : w / 8 / c.slots < 2 * c.boards := by
    rw [Nat.div_lt_iff_lt_mul hs]
    rw [Nat.mul_assoc]
    exact h8
  have hbb : w / 8 / c.slots % c.boards < c.boards := Nat.mod_lt _ hB
  have hu : w / 8 / c.slots / c.boards < 2 := by rwa [Nat.div_lt_iff_lt_mul hB]
  refine ⟨⟨w / 8 / c.slots / c.boards, hu⟩, ?_, ?_, ?_, ?_, ?_⟩
  all_goals simp only [fbIndex, ← hw]
  · rw [← Nat.div_div_eq_div_mul, ← Nat.div_div_eq_div_mul]
  · rw [← Nat.div_div_eq_div_mul]; exact hbb
  · exact hj
  · omega
  · unfold fbAddr
    simp only
    rw [← Nat.div_div_eq_div_mul, Nat.div_add_mod' (w / 8 / c.slots) c.boards, Nat.div_add_mod' (w / 8) c.slots]
    omega

/-! ### The stream of a board -/

/-- Two buffers equal over a board have the same stream of it. -/
theorem FrameStore.stream_congr {c : Config} {f g : FrameStore} {u v : Buffer} {b : Nat}
    (h : ∀ j k, j < c.slots → k < 8 → f.plane c u b j k = g.plane c v b j k) : f.stream c u b = g.stream c v b := by
  unfold FrameStore.stream
  refine List.flatMap_congr fun j hj => List.map_congr_left fun k hk => ?_
  exact h j k (List.mem_range.mp hj) (List.mem_range.mp hk)

/-- The stream of the copied buffer survives the copy. -/
theorem FrameStore.stream_copyFrom {c : Config} (f : FrameStore) {u : Buffer} {b : Nat} (hb : b < c.boards) :
    (f.copyFrom c u).stream c u b = f.stream c u b :=
  FrameStore.stream_congr fun _ _ hj hk => FrameStore.copyFrom_plane_own f hb hj hk

/-! ### Descriptors -/

/-- A descriptor as a number (R135). -/
theorem descWord_toNat {s : State} (hl : s.cfg.legal = true) (hb : s.descBoard.toNat < s.cfg.boards) {i : Nat}
    (hi : i < s.cfg.slots) : (descWord s i).toNat = fbAddr s.cfg s.descBuf s.descBoard.toNat i 0 := by
  simp only [descWord, hi, if_true, fragAddr]
  exact toNat_ofNat32 (fbAddr_facts hl hb hi (by omega)).2.2.2

/-- The sentinel (R135). -/
theorem descWord_end (s : State) : descWord s s.cfg.slots = 0 := by simp [descWord]

/-- No descriptor of the chain is the sentinel (R136). -/
theorem descWord_ne_zero {s : State} (hl : s.cfg.legal = true) (hb : s.descBoard.toNat < s.cfg.boards) {i : Nat}
    (hi : i < s.cfg.slots) : descWord s i ≠ 0 := by
  intro e
  have h := descWord_toNat hl hb hi
  rw [e] at h
  have := (Config.facts hl).fb_pos
  unfold fbAddr at h
  simp at h
  omega

theorem descAddr_facts {c : Config} (hl : c.legal = true) {i : Nat} (hi : i ≤ c.slots) :
    c.descBase + 4 * i < 2 ^ 32 ∧ (c.descBase + 4 * i) % 4 = 0 ∧ inDesc c (c.descBase + 4 * i) = true := by
  have f := Config.facts hl
  have := f.desc_end
  have := f.desc_aligned
  unfold Config.descSize at *
  rw [inDesc_iff]
  omega

/-! ### What the engine reads -/

/-- An engine read of a descriptor (R178, R180). -/
theorem engineWord_desc {s : State} (hl : s.cfg.legal = true) (hp : s.phase ≠ .copy) {i : Nat} (hi : i ≤ s.cfg.slots) :
    engineWord s (s.cfg.descBase + 4 * i) = some (descWord s i) := by
  obtain ⟨h1, h2, h3⟩ := descAddr_facts hl hi
  have hf := ((windows_disjoint hl _).2.2 h3).2
  have e := engineSelect_desc (c := s.cfg) (a := readAt (s.cfg.descBase + 4 * i)) rfl (readAt_wellSized h1 h2)
    (by rw [readAt_addr h1]; exact hf) (by rw [readAt_addr h1]; exact h3)
  rw [readAt_addr h1, show (s.cfg.descBase + 4 * i - s.cfg.descBase) / 4 = i by omega] at e
  unfold readAt at e
  simp [engineWord, e, holds, Selected.waitsForCopy, hp, respond]

/-- An engine read of a plane word (R175, R180). -/
theorem engineWord_plane {s : State} (hl : s.cfg.legal = true) (hp : s.phase ≠ .copy) (u : Buffer) {b j k : Nat}
    (hb : b < s.cfg.boards) (hj : j < s.cfg.slots) (hk : k < 8) :
    engineWord s (fbAddr s.cfg u b j k) = some (s.fb.plane s.cfg u b j k) := by
  obtain ⟨h4, h0, _, h32⟩ := fbAddr_facts hl (u := u) hb hj hk
  have e := engineSelect_fb (c := s.cfg) (a := readAt (fbAddr s.cfg u b j k)) rfl (readAt_wellSized h32 h4)
    (by rw [readAt_addr h32]; exact h0)
  rw [readAt_addr h32] at e
  unfold readAt at e
  simp [engineWord, e, holds, Selected.waitsForCopy, hp, respond, FrameStore.plane]

/-- An engine read of the words of a fragment from word k on (R64, R55 item 3). -/
theorem engineBlock_fragment {s : State} (hl : s.cfg.legal = true) (hp : s.phase ≠ .copy) (u : Buffer) {b j : Nat}
    (hb : b < s.cfg.boards) (hj : j < s.cfg.slots) (n k : Nat) (hk : k + n ≤ 8) :
    engineBlock s (fbAddr s.cfg u b j k) n = some ((List.range' k n).map fun i => s.fb.plane s.cfg u b j i) := by
  induction n generalizing k with
  | zero => rfl
  | succ n ih =>
    have e : fbAddr s.cfg u b j k + 4 = fbAddr s.cfg u b j (k + 1) := by unfold fbAddr; omega
    simp only [engineBlock, e, engineWord_plane hl hp u hb hj (show k < 8 by omega), ih (k + 1) (by omega),
      List.range'_succ, List.map_cons]

end Sys2Proof.Machine
end

