-- ==== Sys2Proof/Laws/PerInstr.lean ====
section
/-! SUPPORT. Statements made instruction by instruction. Family EncodesItsRow: a command's word is accepted by one row of the
opcode map, its own, and by no other (R94). -/

namespace Sys2Proof.Laws.EncodesItsRow

/-- The row of the opcode map a command has (R94). -/
def rowOf : Instr → String
  | .nop => "NOP"
  | .encodePixel _ _ _ => "ENCODE"
  | .showPixels => "SHOW"

/-- The rows that accept a well-formed command's word are its own row alone. -/
def Statement (i : Instr) : Prop :=
  i.wf = true → (opcodeMap.filter fun r => r.accepts (encode i)).map OpcodeRow.mnemonic = [rowOf i]

theorem nop : Statement .nop := fun _ => by decide

theorem showPixels : Statement .showPixels := fun _ => by decide

theorem encodePixel (board strip pixel : Nat) : Statement (.encodePixel board strip pixel) := by
  intro h
  simp only [Instr.wf, Instr.boardFits, Instr.stripFits, Instr.pixelFits, Bool.and_eq_true, decide_eq_true_eq] at h
  obtain ⟨⟨h1, h2⟩, h3⟩ := h
  have e := encode_toNat (b := board) (st := strip) (p := pixel) (by omega) (by omega) (by omega)
  have hrow : encode (.encodePixel board strip pixel) &&& 0xF0E00000#32 = 0x10000000#32 := by
    rw [encodeRow_iff_toNat, e]; omega
  generalize encode (.encodePixel board strip pixel) = w at *
  have hz : w ≠ 0x00000000#32 := by rintro rfl; simp at e; omega
  have hs : w ≠ 0x20000000#32 := by rintro rfl; simp at e; omega
  have hall : w &&& 0xFFFFFFFF#32 = w := by
    rw [show (0xFFFFFFFF#32) = BitVec.allOnes 32 by decide, BitVec.and_allOnes]
  simp [opcodeMap, OpcodeRow.accepts, hall, hrow, hz, hs, rowOf]

end Sys2Proof.Laws.EncodesItsRow
end

