-- ==== Sys2Proof/Laws/Run.lean ====
section
/-! SUPPORT. Runs of several steps, taken apart one step at a time, and the induction every statement about a run goes
through. -/

namespace Sys2Proof.Machine

theorem run_zero (s : State) : Host.Core.run core 0 s = .next s := rfl

/-- A run goes on from the next state. -/
theorem run_succ (n : Nat) {s t : State} (h : step s = .next t) :
    Host.Core.run core (n + 1) s = Host.Core.run core n t := by
  have : core.step s = .next t := h
  simp only [Host.Core.run, this]

/-- A run that answers a next state took a first step. -/
theorem run_succ_inv {n : Nat} {s t : State} (h : Host.Core.run core (n + 1) s = .next t) :
    ∃ u, step s = .next u ∧ Host.Core.run core n u = .next t := by
  simp only [Host.Core.run] at h
  cases hs : core.step s with
  | next u => rw [hs] at h; exact ⟨u, hs, h⟩
  | fault r => rw [hs] at h; simp at h
  | refused r => rw [hs] at h; simp at h

/-- Two runs, one after the other, are one run. -/
theorem run_add (n m : Nat) {s t : State} (h : Host.Core.run core n s = .next t) :
    Host.Core.run core (n + m) s = Host.Core.run core m t := by
  induction n generalizing s with
  | zero => obtain rfl : s = t := Host.Outcome.next.inj h; rw [Nat.zero_add]
  | succ n ih =>
    obtain ⟨u, hu, hr⟩ := run_succ_inv h
    rw [Nat.succ_add, run_succ _ hu, ih hr]

/-- A relation that is reflexive, transitive and kept by every step that meets a condition the step keeps, is kept by every run
from a state that meets it. -/
theorem run_induction {P : State → Prop} {R : State → State → Prop} (hrefl : ∀ s, R s s)
    (htrans : ∀ s t u, R s t → R t u → R s u) (hstep : ∀ s t, P s → step s = .next t → P t ∧ R s t) {n : Nat} {s t : State}
    (hp : P s) (h : Host.Core.run core n s = .next t) : R s t := by
  induction n generalizing s with
  | zero => obtain rfl : s = t := Host.Outcome.next.inj h; exact hrefl s
  | succ n ih =>
    obtain ⟨u, hu, hr⟩ := run_succ_inv h
    obtain ⟨hpu, hru⟩ := hstep s u hp hu
    exact htrans s u t hru (ih hpu hr)

/-- One clock cycle of a running settle delay (R32, R221). -/
theorem step_clock {s : State} {rest : List Move} (h : Turn s .clock rest) (hs : s.settling = true) :
    step s = .next (if s.settleCnt.toNat ≤ 1
      then { s with sched := rest, ready := true, settling := false, settleCnt := 0 }
      else { s with sched := rest, settleCnt := s.settleCnt - 1 }) := by
  rw [step_turn h]
  simp only [agentMove, clockCycle, hs, if_true, settleExpire]

end Sys2Proof.Machine
end

