-- ==== Sys2Proof/Tests/Slice0.lean ====
section
/-! SUPPORT. Tests on fixed values, each expected result taken from spec/ (the vector or rule is named), and for every obligation
with hypotheses a state and operands that meet them together. -/

namespace Sys2Proof.Tests

open Sys2Proof Sys2Proof.Machine

/-! ### Helpers -/

/-- A small configuration: 2 boards, 3 strips at bits 1 to 3, 2 pixels, a settle delay of 3 cycles. -/
def tiny : Config where
  boards := 2
  strips := 3
  numPixels := 2
  off := 1
  settleCycles := 3
  csrBase := 0x100
  fbBase := 0x1000
  descBase := 0x4000

/-- A block of the small configuration in a phase, with a schedule. -/
def block (ph : Phase) (m : List Move) : State := { State.resetWith tiny 0 with phase := ph, sched := m }

/-- The same in XFER, as ACQUIRE of a board leaves it. -/
def inXfer (board : BitVec 4) (m : List Move) : State :=
  { block .xfer m with settling := false, settleCnt := 0, xferPending := true, boardIdx := board, sel := board,
                       descBoard := board }

/-- The same in COPY, as the completion of the last board leaves it. -/
def inCopy (m : List Move) : State :=
  { block .copy m with boardIdx := 1, sel := 1, descBoard := 1 }

/-- The state with one host access issued and the host port moving next. -/
def hosted (s : State) (a : Access) : State := { s with sched := [.host], hostQ := [a] }

/-- The state with one engine access issued and the engine port moving next. -/
def engined (s : State) (a : Access) : State := { s with sched := [.engine], engQ := [a] }

/-- The outcome is a next state that p holds of. -/
def nextHas (o : Host.Outcome State Fault Refusal) (p : State → Bool) : Bool :=
  match o with
  | .next t => p t
  | .fault _ => false
  | .refused _ => false

/-- The bytes of n words of value w from address a on. -/
def words (a : Nat) (w : Word) : Nat → Memory
  | 0 => []
  | n + 1 =>
    (a, byteLane w 0) :: (a + 1, byteLane w 1) :: (a + 2, byteLane w 2) :: (a + 3, byteLane w 3) :: words (a + 4) w n

/-- The reference block, idle, with the 24 words of board 0, pixel 5 of buffer 0 all w (from 0x2001_01E0). -/
def pixel5 (w data : Word) : State :=
  let s := State.resetWith Config.reference 0
  { s with fb := { s.fb with cells := words 0x200101E0 w 24 }, data := data }

theorem hosted_turn {s : State} (a : Access) (h1 : s.cfg.legal = true) (h2 : s.rstN = true) :
    HostTurn (hosted s a) a [] [] := { legal := h1, released := h2, next := rfl, access := rfl }

theorem engined_turn {s : State} (a : Access) (h1 : s.cfg.legal = true) (h2 : s.rstN = true) :
    EngineTurn (engined s a) a [] [] := { legal := h1, released := h2, next := rfl, access := rfl }

theorem tiny_legal : tiny.legal = true := by decide

/-! ### Syntax, configuration, words -/

/-- R92, R99: a field value that does not fit its field is no word. -/
theorem test_wellFormed_refuses_wide_board : (Instr.encodePixel 16 0 0).wf = false := by decide
theorem test_wellFormed_refuses_wide_strip : (Instr.encodePixel 0 32 0).wf = false := by decide
theorem test_wellFormed_refuses_wide_pixel : (Instr.encodePixel 0 0 65536).wf = false := by decide
theorem test_wellFormed_accepts_the_edge : (Instr.encodePixel 15 31 65535).wf = true := by decide

/-- R8, R10: the reference configuration is legal for either OFF; each of these changes of it is not. -/
theorem test_reference_is_legal :
    (Config.referenceWith 0).legal = true ∧ (Config.referenceWith 1).legal = true := by decide
theorem test_illegal_configurations :
    { Config.reference with fbBase := 0 }.legal = false ∧ { Config.reference with strips := 33 }.legal = false ∧
    { Config.referenceWith 1 with strips := 32 }.legal = false ∧ { Config.reference with boards := 17 }.legal = false ∧
    { Config.reference with numPixels := 65536 }.legal = false ∧ { Config.reference with settleCycles := 0 }.legal = false ∧
    { Config.reference with descBase := 0x20010000 }.legal = false ∧
    { Config.reference with descBase := 0xFFFFFFFC }.legal = false := by decide

/-- R91, bit by bit: format Z with OP = 0, and R101. -/
theorem test_word_nop : decode 0b00000000000000000000000000000000#32 = .ok .nop := by decide
/-- R91, bit by bit: OP 0001, BOARD 0000, RSV 000, STRIP 00011, PIXEL 0000000000000101, and R101's 0x1003_0005. -/
theorem test_word_encode :
    decode 0b00010000000000110000000000000101#32 = .ok (.encodePixel 0 3 5) ∧
    decode 0x110F0063#32 = .ok (.encodePixel 1 15 99) ∧ encode (.encodePixel 1 15 99) = 0x110F0063#32 := by decide
/-- R91, bit by bit: format Z with OP = 0010, and R101. -/
theorem test_word_show : decode 0b00100000000000000000000000000000#32 = .ok .showPixels := by decide
/-- The reserved words of 95_test_vectors.md section 2.2, with the reason R96 gives each. -/
theorem test_words_reserved :
    decode 0x00000001#32 = .error .operandBits ∧ decode 0x10200005#32 = .error .rsvBits ∧
    decode 0x10800000#32 = .error .rsvBits ∧ decode 0x20000001#32 = .error .operandBits ∧
    decode 0x21000000#32 = .error .operandBits ∧ decode 0x30000000#32 = .error .opcode ∧
    decode 0xF0000000#32 = .error .opcode ∧ decode 0xFFFFFFFF#32 = .error .opcode := by decide

/-! ### Commands -/

/-- V-E1 (OFF = 0): the words of slots 15, 16 and 17 after encode 0, 3, 5 of colour 0x12A5FF over zeros. -/
theorem test_encode_V_E1 :
    nextHas (exec (.encodePixel 0 3 5) (pixel5 0 0x0012A5FF#32)) (fun t =>
      [0, 1, 2, 3, 4, 5, 6, 7].map (t.fb.plane t.cfg 0 0 15) == [0, 0, 0, 8, 0, 0, 8, 0] &&
      [0, 1, 2, 3, 4, 5, 6, 7].map (t.fb.plane t.cfg 0 0 16) == [8, 0, 8, 0, 0, 8, 0, 8] &&
      [0, 1, 2, 3, 4, 5, 6, 7].map (t.fb.plane t.cfg 0 0 17) == [8, 8, 8, 8, 8, 8, 8, 8]) = true := by decide

/-- V-E7 and V-E9: the range refusals, and BUSY before the range. -/
theorem test_encode_refusals :
    nextHas (exec (.encodePixel 2 0 0) (pixel5 0 0)) (fun t => t.sticky == FlagSet.none.set .errAddr) = true ∧
    nextHas (exec (.encodePixel 0 16 0) (pixel5 0 0)) (fun t => t.sticky == FlagSet.none.set .errAddr) = true ∧
    nextHas (exec (.encodePixel 0 0 100) (pixel5 0 0)) (fun t => t.sticky == FlagSet.none.set .errAddr) = true ∧
    nextHas (exec (.encodePixel 2 0 0) { pixel5 0 0 with phase := .xfer })
      (fun t => t.sticky == FlagSet.none.set .errBusy) = true := by decide

/-- V-E13: NOP while BUSY. -/
theorem test_nop_busy : exec .nop (block .xfer []) = .next (block .xfer []) := rfl

/-- V-S2: SHOW in the state STATUS = 0x4 gives STATUS = 0x7. -/
theorem test_show_V_S2 :
    nextHas (exec .showPixels { State.reset with ready := true, settling := false })
      (fun t => t.statusWord == 0x00000007#32) = true := by decide
/-- V-S12: SHOW while the slot is full. -/
theorem test_show_V_S12 :
    nextHas (exec .showPixels { State.reset with req := true })
      (fun t => t.req && t.sticky == FlagSet.none.set .showOvf) = true := by decide

/-- withFetchWord: from State.reset each command is the one the next step runs. -/
theorem test_fetch_from_reset :
    nextHas (step (State.reset.withFetchWord 32 0x00000000)) (fun t => t.statusWord == 0x00000080#32) = true ∧
    nextHas (step (State.reset.withFetchWord 32 0x12000000)) (fun t => t.statusWord == 0x00040080#32) = true ∧
    nextHas (step (State.reset.withFetchWord 32 0x20000000)) (fun t => t.statusWord == 0x00000083#32) = true := by decide

/-! ### Sequencer, completion, reset -/

/-- V-S3 and V-S4: START gives STATUS 0x25, ACQUIRE of board 0 gives 0x49 and the event dma_start(0x2002_0000). -/
theorem test_start_V_S3 :
    nextHas (step { State.reset with ready := true, settling := false, req := true, sched := [.sequencer] })
      (fun t => t.statusWord == 0x00000025#32) = true := by decide
theorem test_acquire_V_S4 :
    nextHas (step { State.reset with ready := true, settling := false, phase := .waitReady, sched := [.sequencer] })
      (fun t => t.statusWord == 0x00000049#32 && t.transfers.length == 1 &&
        t.transfers.all (fun x => x.list == 0x20020000#32 && x.sel == 0)) = true := by decide
/-- V-S18: with 16 boards COMPLETE at board 15 goes to COPY, and BOARD stays 15. -/
theorem test_complete_V_S18 :
    nextHas (step { inXfer 15 [.dmaDone] with cfg := { tiny with boards := 16 } })
      (fun t => t.phase == .copy && t.boardIdx == 15) = true := by decide
/-- V-S9: COPY_FLIP gives STATUS 0x0001_1190. -/
theorem test_copyFlip_V_S9 :
    nextHas (step { State.reset with phase := .copy, boardIdx := 1, sel := 1, sched := [.sequencer] })
      (fun t => t.statusWord == 0x00011190#32) = true := by decide
/-- V-R1: reset during XFER of board 1 gives STATUS 0x80, and descriptor 0 reads 0x2001_0000. -/
theorem test_reset_V_R1 :
    nextHas (step { State.reset with phase := .xfer, active := 1, req := true, boardIdx := 1, sel := 1, descBoard := 1,
                                     sticky := FlagSet.none.set .errAddr, sched := [.resetAssert] })
      (fun t => t.statusWord == 0x00000080#32 && descWord t 0 == 0x20010000#32) = true := by decide

/-! ### Accesses -/

/-- R182: the register, descriptor and error examples, from reset in the reference configuration. -/
theorem test_access_examples :
    nextHas (step (hosted State.reset (readAt 0x40050008))) (fun t => t.hostLog.map Prod.snd == [.data 0x00000080#32]) ∧
    nextHas (step (hosted State.reset (readAt 0x40050010))) (fun t => t.hostLog.map Prod.snd == [.data 0x02100064#32]) ∧
    nextHas (step (hosted State.reset (readAt 0x20020000))) (fun t => t.hostLog.map Prod.snd == [.data 0x20010000#32]) ∧
    nextHas (step (hosted State.reset (readAt 0x200204B0))) (fun t => t.hostLog.map Prod.snd == [.data 0#32]) ∧
    nextHas (step (hosted State.reset (writeAt 0x20020000 0))) (fun t => t.hostLog.map Prod.snd == [.busError]) ∧
    nextHas (step (hosted State.reset (readAt 0x20010002))) (fun t => t.hostLog.map Prod.snd == [.busError]) ∧
    nextHas (step (engined State.reset (writeAt 0x20010000 0))) (fun t => t.engLog.map Prod.snd == [.busError]) ∧
    nextHas (step (engined State.reset (readAt 0x40050008))) (fun t => t.engLog.map Prod.snd == [.busError]) := by decide
/-- V-S14: the chain of board 1 of buffer 1. -/
theorem test_descriptors_V_S14 :
    let s := { State.reset with descBuf := 1, descBoard := 1 }
    descWord s 0 = 0x20017080#32 ∧ descWord s 299 = 0x200195E0#32 ∧ descWord s 300 = 0 := by decide
/-- V-B4 and V-B5: write-1-to-clear, and the enables that are stored. -/
theorem test_status_V_B4 :
    ((FlagSet.ofWord 0x001F0000#32).without (FlagSet.ofWord 0x00090000#32)).toWord = 0x00160000#32 ∧
    (FlagSet.ofWord 0xFFFFFFFF#32).toWord = 0x003F0000#32 := by decide

/-! ### Witnesses: states and operands that meet the hypotheses of each obligation with hypotheses -/

/-- A turn of agent m on a block of a legal configuration. -/
theorem turn {s : State} {m : Move} {rest : List Move} (h1 : s.cfg.legal = true) (h2 : s.rstN = true)
    (h3 : s.sched = m :: rest) : Turn s m rest := { legal := h1, released := h2, next := h3 }

/-- EncodeMeaning, EncodeChangesOneBitPerWord, EncodeIdempotentAndLastWins, EncodeRoundTrip: a word of the row; BUSY; out of range
by one in each field; in range at the edge of each field, in a canonical frame store. -/
theorem witness_encode :
    (0x10030005#32) &&& 0xF0E00000#32 = 0x10000000#32 ∧ tiny.legal = true ∧ (block .xfer []).busy = true ∧
    (block .idle []).busy = false ∧ (tiny.boards ≤ 2 ∧ tiny.strips ≤ 3 ∧ tiny.numPixels ≤ 2) ∧
    (1 < tiny.boards ∧ 2 < tiny.strips ∧ 1 < tiny.numPixels) ∧ Memory.wf (pixel5 0 0).fb.cells ∧
    (pixel5 0 0).cfg.legal = true ∧ (pixel5 0 0).busy = false := by decide

/-- EncodeChangesOneBitPerWord: a plane bit that an ENCODE does change. -/
theorem witness_encode_changes :
    nextHas (exec (.encodePixel 0 3 5) (pixel5 0 0x00FF0000#32)) (fun t =>
      (t.fb.plane t.cfg 0 0 15 0).getLsbD 3 != ((pixel5 0 0).fb.plane t.cfg 0 0 15 0).getLsbD 3) = true := by decide

/-- ShowMeaning: the slot empty and full. -/
theorem witness_show : (block .idle []).req = false ∧ { block .idle [] with req := true }.req = true := ⟨rfl, rfl⟩

/-- DecodeOfEncode and EncodeOfDecode: well-formed commands at the edges of their fields, and words that decode. -/
theorem witness_decode :
    (Instr.encodePixel 0 0 0).wf = true ∧ (Instr.encodePixel 15 31 65535).wf = true ∧
    decode 0x1F1FFFFF#32 = .ok (.encodePixel 15 31 65535) := by decide

/-- DecodeFollowsOpcodeMap: a word of each row, and one of none. -/
theorem witness_opcodeMap :
    (0x1F1FFFFF#32) &&& 0xF0E00000#32 = 0x10000000#32 ∧ (0#32) &&& 0xFFFFFFFF#32 = 0x00000000#32 ∧
    (0x20000000#32) &&& 0xFFFFFFFF#32 = 0x20000000#32 ∧ opcodeMap.any (fun r => r.accepts 0x30000000#32) = false := by decide

/-- ReservedWordSetsErrCmd: a reserved word written while a transfer runs (V-D2). -/
theorem witness_reserved :
    HostTurn (hosted (inXfer 0 []) (regWriteAccess tiny .cmd 0x30000000#32)) (regWriteAccess tiny .cmd 0x30000000#32) [] [] ∧
    decode 0x30000000#32 = .error .opcode := ⟨hosted_turn _ tiny_legal rfl, by decide⟩

/-- StepRunsDecodedCommand: each command written to CMD. -/
theorem witness_stepRuns :
    (HostTurn (hosted (block .idle []) (regWriteAccess tiny .cmd 0#32)) (regWriteAccess tiny .cmd 0#32) [] [] ∧
      decode 0#32 = .ok .nop) ∧
    (HostTurn (hosted (block .idle []) (regWriteAccess tiny .cmd 0x11020001#32)) (regWriteAccess tiny .cmd 0x11020001#32) [] [] ∧
      decode 0x11020001#32 = .ok (.encodePixel 1 2 1)) ∧
    (HostTurn (hosted (block .idle []) (regWriteAccess tiny .cmd 0x20000000#32)) (regWriteAccess tiny .cmd 0x20000000#32) [] [] ∧
      decode 0x20000000#32 = .ok .showPixels) :=
  ⟨⟨hosted_turn _ tiny_legal rfl, by decide⟩, ⟨hosted_turn _ tiny_legal rfl, by decide⟩,
    ⟨hosted_turn _ tiny_legal rfl, by decide⟩⟩

/-- FetchWordIsNext: the reset state and a word of each row. -/
theorem witness_fetch :
    State.reset.cfg.legal = true ∧ decodeTableWord 32 0 = some .nop ∧
    decodeTableWord 32 0x11020001 = some (.encodePixel 1 2 1) ∧ decodeTableWord 32 0x20000000 = some .showPixels := by decide

/-- SequencerStart: an idle block with a request and without. -/
theorem witness_start :
    (Turn { block .idle [.sequencer] with req := true } .sequencer [] ∧
      { block .idle [.sequencer] with req := true }.phase = .idle ∧ { block .idle [.sequencer] with req := true }.req = true) ∧
    Turn (block .idle [.sequencer]) .sequencer [] ∧ (block .idle [.sequencer]).phase = .idle ∧
      (block .idle [.sequencer]).req = false :=
  ⟨⟨turn tiny_legal rfl rfl, rfl, rfl⟩, turn tiny_legal rfl rfl, rfl, rfl⟩

/-- SequencerWaitsForReady: the wait, and the release by the settle timer and by the clock. -/
theorem witness_waits :
    (Turn (block .waitReady [.sequencer]) .sequencer [] ∧ (block .waitReady [.sequencer]).phase = .waitReady ∧
      (block .waitReady [.sequencer]).ready = false) ∧
    Turn (block .waitReady [.settleTimer]) .settleTimer [] ∧
    nextHas (step (block .waitReady [.settleTimer])) (fun t => t.ready) = true ∧
    nextHas (step { block .waitReady [.clock] with settleCnt := 1 }) (fun t => t.ready) = true :=
  ⟨⟨turn tiny_legal rfl rfl, rfl, rfl⟩, turn tiny_legal rfl rfl, by decide, by decide⟩

/-- SequencerAcquire: the wait is over. -/
theorem witness_acquire :
    let s := { block .waitReady [.sequencer] with ready := true, settling := false, settleCnt := 0 }
    Turn s .sequencer [] ∧ s.phase = .waitReady ∧ s.ready = true := ⟨turn tiny_legal rfl rfl, rfl, rfl⟩

/-- TransferCompletes: at a board that is not the last, and at the last one. -/
theorem witness_completes :
    (Turn (inXfer 0 [.dmaDone]) .dmaDone [] ∧ (inXfer 0 [.dmaDone]).phase = .xfer ∧
      (inXfer 0 [.dmaDone]).boardIdx.toNat + 1 < (inXfer 0 [.dmaDone]).cfg.boards) ∧
    Turn (inXfer 1 [.dmaDone]) .dmaDone [] ∧ (inXfer 1 [.dmaDone]).phase = .xfer ∧
      (inXfer 1 [.dmaDone]).cfg.boards ≤ (inXfer 1 [.dmaDone]).boardIdx.toNat + 1 :=
  ⟨⟨turn tiny_legal rfl rfl, rfl, by decide⟩, turn tiny_legal rfl rfl, rfl, by decide⟩

/-- SpuriousDoneSetsErrDone: V-S16. -/
theorem witness_spurious :
    Turn (block .idle [.dmaDone]) .dmaDone [] ∧ (block .idle [.dmaDone]).phase ≠ .xfer := ⟨turn tiny_legal rfl rfl, by decide⟩

/-- CopyFlipCopiesAndFlips, with the edges of board, slot and plane, and the first byte of the buffer. -/
theorem witness_copyFlip :
    Turn (inCopy [.sequencer]) .sequencer [] ∧ (inCopy [.sequencer]).phase = .copy ∧ 1 < tiny.boards ∧ 5 < tiny.slots ∧
      inBuffer tiny 0 0x1000 = true := ⟨turn tiny_legal rfl rfl, rfl, by decide, by decide, by decide⟩

/-- SettleExpires: a delay that runs, and none. -/
theorem witness_settle :
    (Turn (block .idle [.settleTimer]) .settleTimer [] ∧ (block .idle [.settleTimer]).settling = true) ∧
    Turn { block .idle [.settleTimer] with settling := false } .settleTimer [] ∧
      { block .idle [.settleTimer] with settling := false }.settling = false :=
  ⟨⟨turn tiny_legal rfl rfl, rfl⟩, turn tiny_legal rfl rfl, rfl⟩

/-- SettleDelayIsItsCount: the reset delay of 3 cycles, before its end (n = 2) and at it (n = 3). -/
theorem witness_delay :
    let s := block .idle (List.replicate 3 .clock)
    s.cfg.legal = true ∧ s.rstN = true ∧ s.settling = true ∧ s.ready = false ∧ 1 ≤ s.settleCnt.toNat ∧
      s.sched = List.replicate s.settleCnt.toNat .clock ++ [] ∧ 2 < s.settleCnt.toNat ∧ 3 = s.settleCnt.toNat := by decide

/-- QueuedPassStartsAtOnce: a SHOW queued, in COPY. -/
theorem witness_queued :
    let s := { inCopy [.sequencer, .sequencer] with req := true }
    Turn s .sequencer (.sequencer :: []) ∧ s.phase = .copy ∧ s.req = true := ⟨turn tiny_legal rfl rfl, rfl, rfl⟩

/-- QuiescentIsStill: a quiescent block, for each of the three moves. -/
theorem witness_quiescent :
    let s (m : Move) := { block .idle [m] with settling := false, settleCnt := 0, ready := true }
    quiescent (s .sequencer) = true ∧ Turn (s .sequencer) .sequencer [] ∧ quiescent (s .settleTimer) = true ∧
      Turn (s .settleTimer) .settleTimer [] ∧ quiescent (s .clock) = true ∧ Turn (s .clock) .clock [] :=
  ⟨rfl, turn tiny_legal rfl rfl, rfl, turn tiny_legal rfl rfl, rfl, turn tiny_legal rfl rfl⟩

/-- PhaseTable: a step of every row of R149. -/
theorem witness_phases :
    nextHas (step { block .idle [.sequencer] with req := true }) (fun t => t.phase == .waitReady) = true ∧
    nextHas (step { block .waitReady [.sequencer] with ready := true }) (fun t => t.phase == .xfer) = true ∧
    nextHas (step (inXfer 0 [.dmaDone])) (fun t => t.phase == .waitReady) = true ∧
    nextHas (step (inXfer 1 [.dmaDone])) (fun t => t.phase == .copy) = true ∧
    nextHas (step (inCopy [.sequencer])) (fun t => t.phase == .idle) = true ∧
    nextHas (step (inXfer 1 [.resetAssert])) (fun t => t.phase == .idle) = true := by decide

/-- ActiveChangesOnlyAtFlip: the flip, and a reset with buffer 1 active. -/
theorem witness_active :
    nextHas (step (inCopy [.sequencer])) (fun t => t.active != (inCopy []).active) = true ∧
    nextHas (step { block .idle [.resetAssert] with active := 1 }) (fun t => t.active != 1) = true := by decide

/-- ReadyOnlyByTimerAndAcquire: a release by each clock, a take, and a reset. -/
theorem witness_ready :
    nextHas (step (block .idle [.settleTimer])) (fun t => t.ready) = true ∧
    nextHas (step { block .idle [.clock] with settleCnt := 1 }) (fun t => t.ready) = true ∧
    nextHas (step { block .waitReady [.sequencer] with ready := true }) (fun t => !t.ready) = true ∧
    nextHas (step { block .idle [.resetAssert] with ready := true }) (fun t => !t.ready) = true := by decide

/-- SelectionHoldsBetweenTransfers: ACQUIRE of board 1, a reset, and a step that is neither. -/
theorem witness_selection :
    nextHas (step { block .waitReady [.sequencer] with ready := true, boardIdx := 1 }) (fun t => t.phase == .xfer && t.sel == 1)
      = true ∧
    nextHas (step (inXfer 1 [.resetAssert])) (fun t => t.sel == 0) = true ∧
    nextHas (step (inXfer 1 [.dmaDone])) (fun t => t.sel == 1 && t.phase != .xfer) = true := by decide

/-- NoEditWhileBusy: a busy block whose frame store a step changes. -/
theorem witness_noEdit :
    (inCopy [.sequencer]).busy = true ∧
    nextHas (step (inCopy [.sequencer])) (fun t => t.fb != (inCopy []).fb) = true := by decide

/-- The one-board small configuration in COPY with a request; the host polls STATUS, writes DATA and issues a SHOW. -/
def forwarding : State :=
  { block .copy ([.sequencer, .host, .host] ++ passMoves 1 ++ [.host] ++ passMoves 1) with
    cfg := { tiny with boards := 1 }
    req := true
    hostQ := [regReadAccess tiny .status, regWriteAccess tiny .data 0x123456#32, regWriteAccess tiny .cmd 0x20000000#32] }

/-- None of its accesses edits (a SHOW word is no ENCODE word). -/
theorem forwarding_edits_nothing : ∀ a ∈ forwarding.hostQ, ¬ Edits forwarding.cfg a := by
  have hl : forwarding.cfg.legal = true := by decide
  have h1 : hostSelect forwarding.cfg (regReadAccess tiny .status) = .regRead .status := by decide
  have h2 : hostSelect forwarding.cfg (regWriteAccess tiny .data 0x123456#32) = .regWrite .data 0x123456#32 := by decide
  have h3 : hostSelect forwarding.cfg (regWriteAccess tiny .cmd 0x20000000#32) = .command 0x20000000#32 := by decide
  have hd : decode 0x20000000#32 = .ok .showPixels := by decide
  intro a ha he
  simp only [forwarding, List.mem_cons, List.not_mem_nil, or_false] at ha
  have hs := hostSelect_edits hl he
  rcases ha with rfl | rfl | rfl
  · simp [h1] at hs
  · simp [h2] at hs
  · rw [h3] at hs
    rcases hs with ⟨n, v, e⟩ | ⟨w, b, st, p, e, e'⟩
    · simp at e
    · obtain rfl : 0x20000000#32 = w := by simpa using e
      simp [hd] at e'

/-- CopyForwardKeepsTheFrame: three flips, for the last of which the host's SHOW is needed, with a poll and a DATA write between. -/
theorem witness_copyForward :
    forwarding.cfg.legal = true ∧ (∀ m ∈ forwarding.sched, m ≠ .resetAssert) ∧ (∀ a ∈ forwarding.hostQ, ¬ Edits forwarding.cfg a) ∧
    forwarding.boardIdx.toNat < forwarding.cfg.boards ∧
    nextHas (Host.Core.run core 14 forwarding)
      (fun t => t.active == 1 && t.transfers.length == 2 && t.hostQ.isEmpty && t.phase == .idle) = true :=
  ⟨by decide, by decide, forwarding_edits_nothing, by decide, by decide⟩

/-- The reset block of the small configuration meets the invariant, whatever its schedule and its request. -/
theorem inv_idle (m : List Move) (r : Bool) : Inv { block .idle m with req := r } where
  cfgLegal := tiny_legal
  fbCanonical := List.Pairwise.nil
  fbInWindow := fun x hx => absurd hx (List.not_mem_nil)
  readySettled := by simp [block, State.resetWith]
  pendingIffXfer := by simp [block, State.resetWith]
  xferGated := by simp [block]
  boardInRange := by show (0#4).toNat < 2; decide
  descActive := by simp [block]
  descBoardInRange := by show (0#4).toNat < 2; decide
  xferBoard := by simp [block]
  copyBoard := by simp [block]
  settleRunning := fun _ => by show 1 ≤ (BitVec.ofNat 32 3).toNat ∧ (BitVec.ofNat 32 3).toNat ≤ 3; decide
  settleDone := by simp [block, State.resetWith]
  semaphoreKept := .inr (.inl rfl)

/-- The block in the transfer of a board meets the invariant. -/
theorem inv_xfer (m : List Move) : Inv (inXfer 1 m) where
  cfgLegal := tiny_legal
  fbCanonical := List.Pairwise.nil
  fbInWindow := fun x hx => absurd hx (List.not_mem_nil)
  readySettled := by simp [inXfer, block, State.resetWith]
  pendingIffXfer := by simp [inXfer, block]
  xferGated := by simp [inXfer, block, State.resetWith]
  boardInRange := by show (1#4).toNat < 2; decide
  descActive := fun _ => rfl
  descBoardInRange := by show (1#4).toNat < 2; decide
  xferBoard := fun _ => ⟨rfl, rfl⟩
  copyBoard := by simp [inXfer, block]
  settleRunning := by simp [inXfer]
  settleDone := fun _ => rfl
  semaphoreKept := .inr (.inr rfl)

/-- PassSendsEveryBoardInOrder: the pass of two boards from the reset state with a request. -/
theorem witness_pass :
    let s := { block .idle (passMoves 2 ++ [.clock]) with req := true }
    Inv s ∧ s.rstN = true ∧ s.phase = .idle ∧ s.req = true ∧ s.sched = passMoves s.cfg.boards ++ [.clock] :=
  ⟨inv_idle _ true, rfl, rfl, rfl, rfl⟩

/-- DescriptorChain: the first and the last slot of the last board. -/
theorem witness_chain :
    (inXfer 1 []).cfg.legal = true ∧ (inXfer 1 []).descBoard.toNat < (inXfer 1 []).cfg.boards ∧
    0 + 1 < (inXfer 1 []).cfg.slots ∧ 5 < (inXfer 1 []).cfg.slots := by decide

/-- EngineDeliversTheStream: a running transfer, with just enough fuel. -/
theorem witness_deliver : Inv (inXfer 1 []) ∧ (inXfer 1 []).phase ≠ .copy ∧ (inXfer 1 []).cfg.slots < 7 :=
  ⟨inv_xfer [], by decide, by decide⟩

/-- StepKeepsInv: a state that meets the invariant and takes a step. -/
theorem witness_stepInv : Inv (inXfer 1 [.dmaDone]) ∧ nextHas (step (inXfer 1 [.dmaDone])) (fun t => t.phase == .copy) = true :=
  ⟨inv_xfer _, by decide⟩

/-- ResetMeetsInv, StepNeverStops: a legal configuration. -/
theorem witness_legal : tiny.legal = true ∧ State.reset.cfg.legal = true := by decide

/-- StepKeepsTheStream: a transfer that runs, with what its ACQUIRE recorded, in a step that leaves it running. -/
theorem witness_streamKept :
    let s := { inXfer 1 [.clock] with
      transfers := [{ list := 0x4000#32, sel := 1, stream := (inXfer 1 []).fb.stream tiny 0 1 }] }
    Inv s ∧ StreamKept s ∧ s.phase = .xfer ∧ nextHas (step s) (fun t => t.phase == .xfer) = true := by
  refine ⟨?_, fun _ => rfl, rfl, by decide⟩
  have h := inv_xfer [.clock]
  exact { h with }

/-- IllegalConfigurationRefused: a block whose frame store and descriptors overlap. -/
theorem witness_illegal :
    (match step { block .idle [] with cfg := { tiny with descBase := 0x1000 } } with
      | .refused .illegalConfiguration => true
      | .refused (.notModelled _) => false
      | .next _ => false
      | .fault _ => false) = true := by decide

/-- RegisterReads, RegisterWrites, StatusWriteClears, ParamFields: the first and the last register, STATUS and PARAM. -/
theorem witness_registers :
    HostTurn (hosted (block .idle []) (regReadAccess tiny .cmd)) (regReadAccess tiny .cmd) [] [] ∧
    HostTurn (hosted (block .copy []) (regReadAccess tiny .descBase)) (regReadAccess tiny .descBase) [] [] ∧
    HostTurn (hosted (block .idle []) (regWriteAccess tiny .data 5)) (regWriteAccess tiny .data 5) [] [] ∧
    HostTurn (hosted (block .idle []) (regWriteAccess tiny .status 0x003F0000#32)) (regWriteAccess tiny .status 0x003F0000#32) [] [] ∧
    HostTurn (hosted (block .idle []) (regWriteAccess tiny .param 5)) (regWriteAccess tiny .param 5) [] [] ∧
    HostTurn (hosted (block .idle []) (regWriteAccess tiny .descBase 5)) (regWriteAccess tiny .descBase 5) [] [] :=
  ⟨hosted_turn _ tiny_legal rfl, hosted_turn _ tiny_legal rfl, hosted_turn _ tiny_legal rfl, hosted_turn _ tiny_legal rfl,
    hosted_turn _ tiny_legal rfl, hosted_turn _ tiny_legal rfl⟩

/-- FlagsAreSticky: a flag cleared by a STATUS write, and one cleared by reset. -/
theorem witness_flagCleared :
    nextHas (step (hosted { block .idle [] with sticky := FlagSet.none.set .errDone } (regWriteAccess tiny .status 0x00200000#32)))
      (fun t => !t.sticky.get .errDone) = true ∧
    nextHas (step { block .idle [.resetAssert] with sticky := FlagSet.none.set .passDone }) (fun t => !t.sticky.get .passDone)
      = true := by decide

/-- FlagsAreSetByTheirEvents: each of the six flags set by its event, ERR_BUSY by both of its. -/
theorem witness_flagSet :
    nextHas (step (inCopy [.sequencer])) (fun t => t.sticky.get .passDone) = true ∧
    nextHas (step (block .idle [.dmaDone])) (fun t => t.sticky.get .errDone) = true ∧
    nextHas (step (hosted (block .idle []) (regWriteAccess tiny .cmd 0x30000000#32))) (fun t => t.sticky.get .errCmd) = true ∧
    nextHas (step (hosted { block .idle [] with req := true } (regWriteAccess tiny .cmd 0x20000000#32)))
      (fun t => t.sticky.get .showOvf) = true ∧
    nextHas (step (hosted (block .idle []) (regWriteAccess tiny .cmd 0x12000000#32))) (fun t => t.sticky.get .errAddr) = true ∧
    nextHas (step (hosted (inXfer 0 []) (regWriteAccess tiny .cmd 0x10000000#32))) (fun t => t.sticky.get .errBusy) = true ∧
    nextHas (step (hosted (inXfer 0 []) (writeAt 0x1000 0))) (fun t => t.sticky.get .errBusy) = true := by decide

/-- InterruptLevel: V-I2, a flag masked and a flag enabled. -/
theorem witness_irq :
    { block .idle [] with sticky := FlagSet.none.set .passDone, irqEn := FlagSet.ofWord 0x00080000#32 }.irq = false ∧
    { block .idle [] with sticky := FlagSet.none.set .errBusy, irqEn := FlagSet.ofWord 0x00080000#32 }.irq = true := by decide

/-- PlaneAddressesAreExact: the first and the last plane word of the window, and their addresses. -/
theorem witness_places :
    tiny.legal = true ∧ (1 < tiny.boards ∧ 5 < tiny.slots) ∧ fbAddr tiny 0 0 0 0 = 0x1000 ∧ fbAddr tiny 1 1 5 7 = 0x12FC ∧
    inFb tiny 0x1000 = true ∧ inFb tiny 0x12FC = true ∧ 0x12FC % 4 = 0 ∧ inFb tiny 0x1300 = false := by decide

/-- FrameStoreRead and FrameStoreWrite: the last plane word, read in XFER and in COPY, written in COPY, idle and while BUSY. -/
theorem witness_frameStore :
    (1 < tiny.boards ∧ 5 < tiny.slots) ∧
    HostTurn (hosted (inXfer 0 []) (readAt (fbAddr tiny 1 1 5 7))) (readAt (fbAddr tiny 1 1 5 7)) [] [] ∧
    (inXfer 0 []).phase ≠ .copy ∧
    HostTurn (hosted (inCopy []) (readAt (fbAddr tiny 1 1 5 7))) (readAt (fbAddr tiny 1 1 5 7)) [] [] ∧
    HostTurn (hosted (inCopy []) (writeAt (fbAddr tiny 1 1 5 7) 5)) (writeAt (fbAddr tiny 1 1 5 7) 5) [] [] ∧
    (inCopy []).phase = .copy ∧
    HostTurn (hosted (block .idle []) (writeAt (fbAddr tiny 1 1 5 7) 5)) (writeAt (fbAddr tiny 1 1 5 7) 5) [] [] ∧
    (block .idle []).busy = false ∧
    HostTurn (hosted (inXfer 0 []) (writeAt (fbAddr tiny 0 0 0 0) 5)) (writeAt (fbAddr tiny 0 0 0 0) 5) [] [] ∧
    (inXfer 0 []).busy = true :=
  ⟨by decide, hosted_turn _ tiny_legal rfl, by decide, hosted_turn _ tiny_legal rfl, hosted_turn _ tiny_legal rfl, rfl,
    hosted_turn _ tiny_legal rfl, rfl, hosted_turn _ tiny_legal rfl, rfl⟩

/-- DescriptorWindow: the last descriptor and the sentinel, read on either port, in XFER and in COPY, and a write. -/
theorem witness_descriptors :
    HostTurn (hosted (inXfer 1 []) (readAt (tiny.descBase + 4 * 5))) (readAt (tiny.descBase + 4 * 5)) [] [] ∧
    HostTurn (hosted (inCopy []) (readAt (tiny.descBase + 4 * 6))) (readAt (tiny.descBase + 4 * 6)) [] [] ∧
    EngineTurn (engined (inXfer 1 []) (readAt (tiny.descBase + 4 * 6))) (readAt (tiny.descBase + 4 * 6)) [] [] ∧
    EngineTurn (engined (inCopy []) (readAt (tiny.descBase + 4 * 5))) (readAt (tiny.descBase + 4 * 5)) [] [] ∧
    HostTurn (hosted (inCopy []) (writeAt (tiny.descBase + 4 * 6) 1)) (writeAt (tiny.descBase + 4 * 6) 1) [] [] ∧
    6 ≤ tiny.slots ∧ (inXfer 1 []).phase ≠ .copy ∧ (inCopy []).phase = .copy :=
  ⟨hosted_turn _ tiny_legal rfl, hosted_turn _ tiny_legal rfl, engined_turn _ tiny_legal rfl, engined_turn _ tiny_legal rfl,
    hosted_turn _ tiny_legal rfl, by decide, by decide, rfl⟩

/-- AccessesHoldDuringCopy: a frame-store write, a descriptor read and a register access in COPY, and an engine read. -/
theorem witness_holds :
    (inCopy []).phase = .copy ∧
    (HostTurn (hosted (inCopy []) (writeAt 0x1000 1)) (writeAt 0x1000 1) [] [] ∧ (writeAt 0x1000 1).wellSized = true ∧
      inFb tiny (writeAt 0x1000 1).addr.toNat = true) ∧
    (HostTurn (hosted (inCopy []) (readAt 0x4018)) (readAt 0x4018) [] [] ∧ (readAt 0x4018).wellSized = true ∧
      inDesc tiny (readAt 0x4018).addr.toNat = true ∧ (readAt 0x4018).op = .read) ∧
    (EngineTurn (engined (inCopy []) (readAt 0x12FC)) (readAt 0x12FC) [] [] ∧ (readAt 0x12FC).wellSized = true ∧
      inFb tiny (readAt 0x12FC).addr.toNat = true ∧ (readAt 0x12FC).op = .read) ∧
    HostTurn (hosted (inCopy []) (readAt 0x108)) (readAt 0x108) [] [] ∧ (readAt 0x108).wellSized = true ∧
      inCsr tiny (readAt 0x108).addr.toNat = true :=
  ⟨rfl, ⟨hosted_turn _ tiny_legal rfl, by decide, by decide⟩, ⟨hosted_turn _ tiny_legal rfl, by decide, by decide, rfl⟩,
    ⟨engined_turn _ tiny_legal rfl, by decide, by decide, rfl⟩, hosted_turn _ tiny_legal rfl, by decide, by decide⟩

/-- BadSizeOrAlignmentIsBusError: a narrow and a misaligned access on each port, in COPY too. -/
theorem witness_badSize :
    let narrow : Access := { op := .read, addr := 0x1000#32, size := 1 }
    let odd : Access := { op := .write 0, addr := 0x102#32, size := 4 }
    (narrow.size ≠ 4 ∧ inFb tiny narrow.addr.toNat = true ∧ HostTurn (hosted (inCopy []) narrow) narrow [] []) ∧
    (odd.addr.toNat % 4 ≠ 0 ∧ inCsr tiny odd.addr.toNat = true ∧ HostTurn (hosted (block .idle []) odd) odd [] []) ∧
    EngineTurn (engined (inCopy []) narrow) narrow [] [] :=
  ⟨⟨by decide, by decide, hosted_turn _ tiny_legal rfl⟩, ⟨by decide, by decide, hosted_turn _ tiny_legal rfl⟩,
    engined_turn _ tiny_legal rfl⟩

/-- EnginePortErrors: a write in the frame store, a read of the register window, and a misaligned read. -/
theorem witness_engineErrors :
    (EngineTurn (engined (block .idle []) (writeAt 0x1000 1)) (writeAt 0x1000 1) [] [] ∧ (writeAt 0x1000 1).op = .write 1) ∧
    EngineTurn (engined (block .idle []) (readAt 0x108)) (readAt 0x108) [] [] ∧
      inFb tiny (readAt 0x108).addr.toNat = false ∧ inDesc tiny (readAt 0x108).addr.toNat = false ∧
    EngineTurn (engined (block .idle []) (readAt 0x1001)) (readAt 0x1001) [] [] ∧ (readAt 0x1001).addr.toNat % 4 ≠ 0 :=
  ⟨⟨engined_turn _ tiny_legal rfl, rfl⟩, engined_turn _ tiny_legal rfl, by decide, by decide, engined_turn _ tiny_legal rfl,
    by decide⟩

/-- EngineReadsAsTheHost: the last plane word and the sentinel. -/
theorem witness_engineReads :
    (0x12FC % 4 = 0 ∧ inFb tiny 0x12FC = true ∧ EngineTurn (engined (inXfer 1 []) (readAt 0x12FC)) (readAt 0x12FC) [] []) ∧
    (0x4018 % 4 = 0 ∧ inDesc tiny 0x4018 = true ∧ EngineTurn (engined (inXfer 1 []) (readAt 0x4018)) (readAt 0x4018) [] []) ∧
    (inXfer 1 []).phase ≠ .copy ∧
    EngineTurn (engined (inCopy []) (readAt 0x1000)) (readAt 0x1000) [] [] ∧ inFb tiny 0x1000 = true ∧
    (inCopy []).phase = .copy :=
  ⟨⟨rfl, by decide, engined_turn _ tiny_legal rfl⟩, ⟨rfl, by decide, engined_turn _ tiny_legal rfl⟩, by decide,
    engined_turn _ tiny_legal rfl, by decide, rfl⟩

/-- ReadsHaveNoSideEffect: a STATUS read on the host port, with its next state, and an engine read. -/
theorem witness_reads :
    (readAt 0x108).op = .read ∧ HostTurn (hosted (block .idle []) (readAt 0x108)) (readAt 0x108) [] [] ∧
    nextHas (step (hosted (block .idle []) (readAt 0x108))) (fun t => t.hostLog.length == 1) = true ∧
    EngineTurn (engined (block .idle []) (readAt 0x4000)) (readAt 0x4000) [] [] ∧
    nextHas (step (engined (block .idle []) (readAt 0x4000))) (fun t => t.engLog.length == 1) = true :=
  ⟨rfl, hosted_turn _ tiny_legal rfl, by decide, engined_turn _ tiny_legal rfl, by decide⟩

/-- OtherAddressesAreNotServed: the addresses just outside the register window. -/
theorem witness_notServed :
    HostTurn (hosted (block .idle []) (readAt 0x120)) (readAt 0x120) [] [] ∧ inCsr tiny (readAt 0x120).addr.toNat = false ∧
      inFb tiny (readAt 0x120).addr.toNat = false ∧ inDesc tiny (readAt 0x120).addr.toNat = false ∧
      inCsr tiny (readAt 0xFC).addr.toNat = false :=
  ⟨hosted_turn _ tiny_legal rfl, by decide, by decide, by decide, by decide⟩

/-- ResetSetsEveryItem: reset in a transfer, with the last byte of a buffer. -/
theorem witness_reset :
    (inXfer 1 [.resetAssert]).cfg.legal = true ∧ (inXfer 1 [.resetAssert]).sched = .resetAssert :: [] ∧ 0x17F < tiny.bufSize := by
  decide

/-- NothingMovesInReset: a host access issued in reset, and the release. -/
theorem witness_inReset :
    let s := { hosted (block .idle []) (readAt 0x108) with rstN := false }
    s.cfg.legal = true ∧ s.rstN = false ∧ s.sched = .host :: [] ∧ Move.host ≠ .resetAssert ∧ Move.host ≠ .resetRelease ∧
    { s with sched := [.resetRelease] }.sched = .resetRelease :: [] := by decide

/-- EndOfARun: an ended run, with a stray completion and an engine read still to come; and a transfer that does not complete. -/
theorem witness_endOfARun :
    let s := { engined (block .idle []) (readAt 0x1000) with
      settling := false, settleCnt := 0, ready := true, sched := [.dmaDone, .engine] }
    s.cfg.legal = true ∧ (∀ m ∈ s.sched, m ≠ .resetAssert) ∧ runEnded s = true ∧
    nextHas (Host.Core.run core 2 s) (fun t => t.sticky.errDone && t.engQ.isEmpty) = true ∧
    (∀ m ∈ ({ s with sched := [.engine] } : State).sched, m ≠ .dmaDone) ∧
    (inXfer 1 [.sequencer]).phase = .xfer ∧ (∀ m ∈ (inXfer 1 [.sequencer]).sched, m ≠ .dmaDone ∧ m ≠ .resetAssert) ∧
    nextHas (Host.Core.run core 1 (inXfer 1 [.sequencer])) (fun t => !runEnded t) = true := by decide

/-- PassEndsTheRun: the pass of two boards from the reset state with a request. -/
theorem witness_passEnds :
    let s := { block .idle (passMoves 2 ++ [.settleTimer]) with req := true }
    Inv s ∧ s.rstN = true ∧ s.phase = .idle ∧ s.req = true ∧ s.hostQ = [] ∧ s.sched = passMoves s.cfg.boards ++ .settleTimer :: [] :=
  ⟨inv_idle _ true, rfl, rfl, rfl, rfl, rfl⟩

/-- R150: a host access still to perform, a request, or a settle delay, and the run has not ended. -/
theorem test_run_not_ended :
    let s := { block .idle [] with settling := false, settleCnt := 0 }
    runEnded s = true ∧ runEnded { s with hostQ := [readAt 0x108] } = false ∧ runEnded { s with req := true } = false ∧
    runEnded (block .idle []) = false ∧ runEnded (inCopy []) = false := by decide

end Sys2Proof.Tests
end

section
/-! PROOF. A configuration is refused exactly when it breaks R8 or R10: no move of a legal block is a refusal, and windows that
hold at least one address each lie apart exactly when they share none. -/

namespace Sys2Proof.Machine

/-! ### Which steps are refused -/

/-- Every move completes, also in reset (R200, R240). -/
theorem takeMove_next (s : State) (m : Move) : ∃ t, takeMove s m = .next t := by
  unfold takeMove
  split
  · exact agentMove_next s m
  · cases m <;> exact ⟨_, rfl⟩

/-- A block of legal configuration never stops (R200). -/
theorem step_next {s : State} (h : s.cfg.legal = true) : ∃ t, step s = .next t := by
  unfold step scheduledStep
  rw [if_pos h]
  split
  · exact ⟨s, rfl⟩
  · exact takeMove_next _ _

theorem step_refused_iff (s : State) : step s = .refused .illegalConfiguration ↔ ¬ s.cfg.legal = true := by
  constructor
  · intro hr hl
    obtain ⟨t, ht⟩ := step_next hl
    rw [ht] at hr
    cases hr
  · exact fun h => step_illegal (Bool.eq_false_iff.mpr h)

/-! ### Disjoint windows, by their addresses and by their bounds (R10) -/

/-- Two ranges of at least one address share none exactly when one ends before the other begins: the greater of the two first
addresses would be shared. -/
theorem ranges_share_none_iff {a m b n : Nat} (hm : 0 < m) (hn : 0 < n) :
    (∀ x, ¬ ((a ≤ x ∧ x < a + m) ∧ (b ≤ x ∧ x < b + n))) ↔ a + m ≤ b ∨ b + n ≤ a := by
  constructor
  · intro h
    have := h (max a b)
    omega
  · intro h x
    omega

theorem fbSize_eq (c : Config) : c.fbSize = 2 * c.boards * (c.numPixels * 3) * 32 := by
  unfold Config.fbSize Config.bufSize Config.slots
  ring

theorem fbSize_pos {c : Config} (hb : 1 ≤ c.boards) (hp : 1 ≤ c.numPixels) : 0 < c.fbSize := by
  rw [fbSize_eq]
  positivity

theorem descSize_pos (c : Config) : 0 < c.descSize := Nat.mul_pos (Nat.succ_pos _) (by decide)

theorem csr_fb_share_none_iff {c : Config} (h : 0 < c.fbSize) :
    (∀ a, ¬ (inCsr c a = true ∧ inFb c a = true)) ↔ c.csrBase + 32 ≤ c.fbBase ∨ c.fbBase + c.fbSize ≤ c.csrBase := by
  simp only [inCsr_iff, inFb_iff]
  exact ranges_share_none_iff (by decide) h

theorem csr_desc_share_none_iff (c : Config) :
    (∀ a, ¬ (inCsr c a = true ∧ inDesc c a = true)) ↔
      c.csrBase + 32 ≤ c.descBase ∨ c.descBase + c.descSize ≤ c.csrBase := by
  simp only [inCsr_iff, inDesc_iff]
  exact ranges_share_none_iff (by decide) (descSize_pos c)

theorem fb_desc_share_none_iff {c : Config} (h : 0 < c.fbSize) :
    (∀ a, ¬ (inFb c a = true ∧ inDesc c a = true)) ↔
      c.fbBase + c.fbSize ≤ c.descBase ∨ c.descBase + c.descSize ≤ c.fbBase := by
  simp only [inFb_iff, inDesc_iff]
  exact ranges_share_none_iff h (descSize_pos c)

/-- Settles O38: a step is refused exactly when the configuration is not legal, and `Config.Facts` are the constraints of R8 and
R10, with the windows' disjointness turned from their bounds to their addresses. -/
theorem illegalConfigurationRefused : Obligations.IllegalConfigurationRefused := by
  intro s
  rw [step_refused_iff, not_iff_not, Config.legal_iff, ← fbSize_eq]
  constructor
  · intro f
    have hfb := fbSize_pos f.boards_pos f.pixels_pos
    exact ⟨f.boards_pos, f.boards_le, f.strips_pos, f.strips_off, f.off_le, f.pixels_pos, f.pixels_le, f.settle_pos,
      f.settle_lt, f.csr_aligned, f.fb_aligned, Nat.one_le_iff_ne_zero.mp f.fb_pos, f.desc_aligned, f.csr_end, f.fb_end,
      f.desc_end, (csr_fb_share_none_iff hfb).mpr f.csr_fb, (csr_desc_share_none_iff _).mpr f.csr_desc,
      (fb_desc_share_none_iff hfb).mpr f.fb_desc⟩
  · rintro ⟨boards_pos, boards_le, strips_pos, strips_off, off_le, pixels_pos, pixels_le, settle_pos, settle_lt, csr_aligned,
      fb_aligned, fb_ne, desc_aligned, csr_end, fb_end, desc_end, csr_fb, csr_desc, fb_desc⟩
    have hfb := fbSize_pos boards_pos pixels_pos
    exact ⟨boards_pos, boards_le, strips_pos, strips_off, off_le, pixels_pos, pixels_le, settle_pos, settle_lt, csr_aligned,
      fb_aligned, Nat.one_le_iff_ne_zero.mpr fb_ne, desc_aligned, csr_end, fb_end, desc_end,
      (csr_fb_share_none_iff hfb).mp csr_fb, (csr_desc_share_none_iff _).mp csr_desc, (fb_desc_share_none_iff hfb).mp fb_desc⟩

end Sys2Proof.Machine
end

section
/-! PROOF. The registers: the fields of STATUS and PARAM, and what a write of either does. -/

namespace Sys2Proof.Machine

/-! ### Writes of a register other than CMD -/

/-- A host write of a register other than CMD completes at once, in any phase, and does what `writeReg` says (R174, R179). -/
theorem step_regWrite {s : State} {r : Reg} {v : Word} {rest : List Move} {q : List Access} (hr : r ≠ .cmd)
    (h : HostTurn s (regWriteAccess s.cfg r v) rest q) :
    step s = .next (writeReg (s.hostAnswered rest q (regWriteAccess s.cfg r v) .done) v r) := by
  have hsel := hostSelect_regWrite h.legal v hr
  have hgo : holds s (hostSelect s.cfg (regWriteAccess s.cfg r v)) = false := by
    simp [holds, hsel, Selected.waitsForCopy]
  rw [step_host h hgo, hsel]
  rfl

/-- Write-1-to-clear on the word of the flags: bits that are no flag's play no part (R40). -/
theorem FlagSet.toWord_without (fs : FlagSet) (v : Word) :
    (fs.without (FlagSet.ofWord v)).toWord = fs.toWord &&& ~~~v := by
  refine BitVec.eq_of_getLsbD_eq fun j hj => ?_
  have hclear (b : Bool) (k : Nat) :
      (b && !v.getLsbD k && decide (j = k)) = (b && decide (j = k) && !v.getLsbD j) := by
    by_cases e : j = k
    · simp [e]
    · simp [e]
  simp only [BitVec.getLsbD_and, BitVec.getLsbD_not, FlagSet.getLsbD_toWord _ hj, FlagSet.without, FlagSet.ofWord, hclear,
    hj, decide_true, Bool.true_and, Bool.and_or_distrib_right]

/-- Settles O42: the write of STATUS is `step_regWrite`, and `FlagSet.toWord_without` is its word equation. -/
theorem statusWriteClears : Obligations.StatusWriteClears := by
  intro s rest q v h
  exact ⟨_, step_regWrite (by decide) h, rfl, FlagSet.toWord_without s.sticky v⟩

/-! ### The fields of STATUS (R39) -/

/-- The flags' word has bits [21:16] alone. -/
theorem FlagSet.getLsbD_toWord_of_no_flag (fs : FlagSet) {j : Nat} (h : j < 16 ∨ 22 ≤ j) : fs.toWord.getLsbD j = false := by
  by_cases hj : j < 32
  · rw [FlagSet.getLsbD_toWord fs hj]
    simp [show j ≠ 16 by omega, show j ≠ 17 by omega, show j ≠ 18 by omega, show j ≠ 19 by omega, show j ≠ 20 by omega,
      show j ≠ 21 by omega]
  · exact BitVec.getLsbD_of_ge _ _ (by omega)

/-- From bit 16 on, STATUS is the word of the flags. -/
theorem getLsbD_statusWord_high (s : State) {j : Nat} (h : 16 ≤ j) : s.statusWord.getLsbD j = s.sticky.toWord.getLsbD j := by
  by_cases hj : j < 32
  · rw [getLsbD_statusWord s hj, BitVec.getLsbD_of_ge s.phase.code (j - 5) (by omega),
      BitVec.getLsbD_of_ge s.boardIdx (j - 8) (by omega), BitVec.getLsbD_of_ge s.sel (j - 12) (by omega)]
    simp [show j ≠ 0 by omega, show j ≠ 1 by omega, show j ≠ 2 by omega, show j ≠ 3 by omega, show j ≠ 4 by omega,
      show j ≠ 7 by omega]
  · rw [BitVec.getLsbD_of_ge _ j (by omega), BitVec.getLsbD_of_ge _ j (by omega)]

/-- The bit of a sticky flag. -/
theorem getLsbD_statusWord_flag (s : State) (f : Flag) : s.statusWord.getLsbD f.pos = s.sticky.get f := by
  rw [getLsbD_statusWord_high s (by cases f <;> decide), FlagSet.getLsbD_toWord_pos]

/-- Below bit 16, STATUS has no flag. -/
theorem getLsbD_statusWord_low (s : State) {j : Nat} (h : j < 16) :
    s.statusWord.getLsbD j =
      (s.busy && decide (j = 0) || s.req && decide (j = 1) || s.ready && decide (j = 2) || s.xferPending && decide (j = 3)
        || bufferBit s.active && decide (j = 4) || (decide (5 ≤ j) && s.phase.code.getLsbD (j - 5))
        || s.settling && decide (j = 7) || (decide (8 ≤ j) && s.boardIdx.getLsbD (j - 8))
        || (decide (12 ≤ j) && s.sel.getLsbD (j - 12))) := by
  rw [getLsbD_statusWord s (by omega), FlagSet.getLsbD_toWord_of_no_flag _ (.inl h), Bool.or_false]

/-- ACTIVE, bit 4. -/
theorem statusWord_active (s : State) : (s.statusWord.extractLsb' 4 1).toNat = s.active.val := by
  have hbit : s.statusWord.extractLsb' 4 1 = BitVec.ofBool (bufferBit s.active) := by
    refine BitVec.eq_of_getLsbD_eq fun i hi => ?_
    obtain rfl : i = 0 := by omega
    rw [BitVec.getLsbD_extractLsb', getLsbD_statusWord_low s (by decide)]
    simp
  rw [hbit]
  generalize s.active = u
  revert u
  decide

/-- PHASE, bits [6:5]. -/
theorem statusWord_phase (s : State) : s.statusWord.extractLsb' 5 2 = s.phase.code := by
  refine BitVec.eq_of_getLsbD_eq fun i hi => ?_
  rw [BitVec.getLsbD_extractLsb', getLsbD_statusWord_low s (by omega)]
  interval_cases i <;> simp

/-- BOARD, bits [11:8]. -/
theorem statusWord_board (s : State) : s.statusWord.extractLsb' 8 4 = s.boardIdx := by
  refine BitVec.eq_of_getLsbD_eq fun i hi => ?_
  rw [BitVec.getLsbD_extractLsb', getLsbD_statusWord_low s (by omega)]
  interval_cases i <;> simp

/-- SEL, bits [15:12]. -/
theorem statusWord_sel (s : State) : s.statusWord.extractLsb' 12 4 = s.sel := by
  refine BitVec.eq_of_getLsbD_eq fun i hi => ?_
  rw [BitVec.getLsbD_extractLsb', getLsbD_statusWord_low s (by omega)]
  interval_cases i <;> simp

/-- Bits [31:22] are reserved. -/
theorem statusWord_reserved (s : State) : s.statusWord.extractLsb' 22 10 = 0 := by
  refine BitVec.eq_of_getLsbD_eq fun i hi => ?_
  rw [BitVec.getLsbD_extractLsb', getLsbD_statusWord_high s (by omega),
    FlagSet.getLsbD_toWord_of_no_flag _ (.inr (by omega))]
  simp

/-- Settles O39, field by field. -/
theorem statusFields : Obligations.StatusFields := by
  refine ⟨fun s => ?_, statusWord_reset⟩
  refine ⟨?_, ?_, ?_, ?_, statusWord_active s, ?_, ?_, statusWord_board s, statusWord_sel s,
    getLsbD_statusWord_flag s .passDone, getLsbD_statusWord_flag s .errCmd, getLsbD_statusWord_flag s .errAddr,
    getLsbD_statusWord_flag s .errBusy, getLsbD_statusWord_flag s .showOvf, getLsbD_statusWord_flag s .errDone,
    statusWord_reserved s⟩
  · rw [getLsbD_statusWord_low s (j := 0) (by decide)]; simp [State.busy]
  · rw [getLsbD_statusWord_low s (j := 1) (by decide)]; simp
  · rw [getLsbD_statusWord_low s (j := 2) (by decide)]; simp
  · rw [getLsbD_statusWord_low s (j := 3) (by decide)]; simp
  · rw [statusWord_phase]
    cases s.phase <;> rfl
  · rw [getLsbD_statusWord_low s (j := 7) (by decide)]; simp

/-! ### PARAM (R42) -/

/-- Settles O46: the fields are digits of the number PARAM is (`paramWord_toNat`), and a write of it is `step_regWrite`. -/
theorem paramFields : Obligations.ParamFields := by
  refine ⟨fun s hl => ?_, fun s rest q v h => step_regWrite (by decide) h, by decide, by decide⟩
  have f := Config.facts hl
  have hboards := f.boards_le
  have hstrips := f.strips_off
  have hpixels := f.pixels_le
  have hoff := f.off_le
  have hparam : (readReg s .param).toNat =
      s.cfg.numPixels + s.cfg.strips * 2 ^ 16 + s.cfg.boards * 2 ^ 24 + s.cfg.off * 2 ^ 31 :=
    paramWord_toNat (by omega) (by omega) (by omega) hoff
  simp only [← BitVec.toNat_inj, BitVec.extractLsb'_toNat, Nat.shiftRight_eq_div_pow, hparam, BitVec.ofNat_eq_ofNat,
    BitVec.toNat_ofNat]
  obtain hoff | hoff : s.cfg.off = 0 ∨ s.cfg.off = 1 := by omega
  all_goals
    rw [hoff]
    refine ⟨?_, ?_, ?_, ?_, ?_, ?_⟩ <;> omega

end Sys2Proof.Machine
end

section
/-! PROOF. Who changes the active index, the semaphore, the selection and, while BUSY, the frame store: one case analysis of a
step, from which the four statements follow. -/

namespace Sys2Proof.Machine

/-- What every step but ACQUIRE, COPY_FLIP, the end of the settle delay and reset leaves. -/
structure Undisturbed (s t : State) : Prop where
  active : t.active = s.active
  ready : t.ready = s.ready
  sel : t.sel = s.sel
  descBuf : t.descBuf = s.descBuf
  descBoard : t.descBoard = s.descBoard
  noEdit : s.busy = true → t.fb = s.fb
  notAcquired : s.phase = .waitReady → t.phase ≠ .xfer

/-- A step that keeps the phase and the items of `Undisturbed`. -/
theorem Undisturbed.of_same_phase {s t : State} (active : t.active = s.active) (ready : t.ready = s.ready) (sel : t.sel = s.sel)
    (descBuf : t.descBuf = s.descBuf) (descBoard : t.descBoard = s.descBoard) (noEdit : s.busy = true → t.fb = s.fb)
    (phase : t.phase = s.phase) : Undisturbed s t :=
  ⟨active, ready, sel, descBuf, descBoard, noEdit, fun h => by simp [phase, h]⟩

theorem HostFrame.undisturbed {s t : State} (h : HostFrame s t) : Undisturbed s t := by
  have e := h.frame
  refine .of_same_phase ?_ ?_ ?_ ?_ ?_ h.noEdit ?_ <;> rw [e]

theorem xferComplete_undisturbed {s : State} (hp : s.phase = .xfer) : Undisturbed s (xferComplete s) := by
  rcases xferComplete_cases s with ⟨_, e⟩ | ⟨_, e⟩ <;> rw [e] <;>
    exact ⟨rfl, rfl, rfl, rfl, rfl, fun _ => rfl, fun h => absurd (hp.symm.trans h) (by decide)⟩

/-- The schedule plays no part in what a move leaves. -/
theorem Undisturbed.of_sched {s t : State} {rest : List Move} (h : Undisturbed { s with sched := rest } t) : Undisturbed s t :=
  ⟨h.active, h.ready, h.sel, h.descBuf, h.descBoard, h.noEdit, h.notAcquired⟩

/-- Everything an agent's move can do to the active index, the semaphore, the selection and, while BUSY, the frame store. -/
theorem agentMove_disturbs {s t : State} {m : Move} (h1 : m ≠ .resetAssert) (h2 : m ≠ .resetRelease)
    (h : agentMove s m = .next t) :
    Undisturbed s t ∨
    (m = .sequencer ∧ s.phase = .waitReady ∧ t = seqAcquire s) ∨
    (m = .sequencer ∧ s.phase = .copy ∧ t = seqCopyFlip s) ∨
    ((m = .settleTimer ∨ m = .clock) ∧ s.settling = true ∧ t = settleExpire s) := by
  rcases agentMove_cases h1 h2 h with rfl | ⟨_, hf⟩ | ⟨_, e⟩ | ⟨_, hp, _, rfl⟩ | ⟨hm, hp, _, rfl⟩ | ⟨hm, hp, rfl⟩ |
    ⟨_, hp, rfl⟩ | ⟨_, _, rfl⟩ | ⟨hm, hs, rfl⟩ | ⟨_, _, _, rfl⟩
  · exact .inl (.of_same_phase rfl rfl rfl rfl rfl (fun _ => rfl) rfl)
  · exact .inl hf.undisturbed
  · exact .inl (by rw [e]; exact .of_same_phase rfl rfl rfl rfl rfl (fun _ => rfl) rfl)
  · exact .inl ⟨rfl, rfl, rfl, rfl, rfl, fun _ => rfl, fun h => absurd (hp.symm.trans h) (by decide)⟩
  · exact .inr (.inl ⟨hm, hp, rfl⟩)
  · exact .inr (.inr (.inl ⟨hm, hp, rfl⟩))
  · exact .inl (xferComplete_undisturbed hp)
  · exact .inl (.of_same_phase rfl rfl rfl rfl rfl (fun _ => rfl) rfl)
  · exact .inr (.inr (.inr ⟨hm.imp_right And.left, hs, rfl⟩))
  · exact .inl (.of_same_phase rfl rfl rfl rfl rfl (fun _ => rfl) rfl)

/-- Everything a step can do to them. -/
theorem step_disturbs {s t : State} (h : step s = .next t) :
    (Undisturbed s t ∧ s.sched.head? ≠ some .resetAssert) ∨
    (s.sched.head? = some .resetAssert ∧ ∃ rest, t = resetBlock { s with sched := rest }) ∨
    (s.sched.head? = some .sequencer ∧ s.phase = .waitReady ∧ ∃ rest, t = seqAcquire { s with sched := rest }) ∨
    (s.sched.head? = some .sequencer ∧ s.phase = .copy ∧ s.rstN = true ∧ ∃ rest, t = seqCopyFlip { s with sched := rest }) ∨
    ((s.sched.head? = some .settleTimer ∨ s.sched.head? = some .clock) ∧ s.settling = true ∧
      ∃ rest, t = settleExpire { s with sched := rest }) := by
  rcases step_cases h with ⟨_, ⟨hs, rfl⟩ | ⟨rest, hs, rfl⟩ | ⟨rest, hs, rfl⟩ | ⟨m, rest, hs, _, h1, _, rfl⟩ |
    ⟨m, rest, turn, h1, h2, ha⟩⟩
  · exact .inl ⟨.of_same_phase rfl rfl rfl rfl rfl (fun _ => rfl) rfl, by simp [hs]⟩
  · exact .inr (.inl ⟨by simp [hs], rest, rfl⟩)
  · exact .inl ⟨.of_same_phase rfl rfl rfl rfl rfl (fun _ => rfl) rfl, by simp [hs]⟩
  · exact .inl ⟨.of_same_phase rfl rfl rfl rfl rfl (fun _ => rfl) rfl, by simpa [hs] using h1⟩
  · have hm : s.sched.head? = some m := by simp [turn.next]
    simp only [hm, Option.some.injEq, ne_eq]
    rcases agentMove_disturbs h1 h2 ha with u | ⟨rfl, hp, rfl⟩ | ⟨rfl, hp, rfl⟩ | ⟨hm, hs, rfl⟩
    · exact .inl ⟨u.of_sched, h1⟩
    · exact .inr (.inr (.inl ⟨rfl, hp, rest, rfl⟩))
    · exact .inr (.inr (.inr (.inl ⟨rfl, hp, turn.released, rest, rfl⟩)))
    · exact .inr (.inr (.inr (.inr ⟨hm, hs, rest, rfl⟩)))

/-- Settles O26: of the cases of `step_disturbs`, COPY_FLIP and reset alone change the index. -/
theorem activeChangesOnlyAtFlip : Obligations.ActiveChangesOnlyAtFlip := by
  intro s t h hne
  rcases step_disturbs h with ⟨u, _⟩ | ⟨hr, _⟩ | ⟨_, _, rest, rfl⟩ | ⟨hm, hp, hrst, _⟩ | ⟨_, _, rest, rfl⟩
  · exact absurd u.active hne
  · exact .inr hr
  · exact absurd (seqAcquire_active _) hne
  · exact .inl ⟨hp, hm, hrst⟩
  · exact absurd (settleExpire_active _) hne

/-- Settles O27: of the cases of `step_disturbs`, the end of the delay sets READY, ACQUIRE and reset clear it. -/
theorem readyOnlyByTimerAndAcquire : Obligations.ReadyOnlyByTimerAndAcquire := by
  intro s t h hne
  rcases step_disturbs h with ⟨u, _⟩ | ⟨hr, rest, rfl⟩ | ⟨hm, hp, rest, rfl⟩ | ⟨_, _, _, rest, rfl⟩ | ⟨hm, hs, rest, rfl⟩
  · exact absurd u.ready hne
  · exact .inr ⟨rfl, .inr hr⟩
  · exact .inr ⟨rfl, .inl ⟨hp, rfl, hm⟩⟩
  · exact absurd (seqCopyFlip_ready _) hne
  · exact .inl ⟨rfl, hs, hm⟩

/-- Settles O28: of the cases of `step_disturbs`, ACQUIRE loads the selection (and alone goes from WAIT_READY to XFER), reset
clears it. -/
theorem selectionHoldsBetweenTransfers : Obligations.SelectionHoldsBetweenTransfers := by
  intro s t h
  rcases step_disturbs h with ⟨u, hr⟩ | ⟨hr, rest, rfl⟩ | ⟨hm, hp, rest, rfl⟩ | ⟨hm, hp, _, rest, rfl⟩ | ⟨hm, _, rest, rfl⟩
  · exact ⟨fun ⟨hw, hx⟩ => absurd hx (u.notAcquired hw), fun e => absurd e hr,
      fun _ _ => ⟨u.sel, u.descBuf, u.descBoard⟩, fun _ => rfl⟩
  · exact ⟨fun ⟨_, hx⟩ => absurd hx (by simp), fun _ => ⟨rfl, rfl, rfl⟩, fun _ hn => absurd hr hn, fun _ => rfl⟩
  · exact ⟨fun _ => ⟨rfl, rfl, rfl⟩, fun e => absurd (hm.symm.trans e) (by decide), fun hn => absurd ⟨hp, rfl⟩ hn,
      fun _ => rfl⟩
  · exact ⟨fun ⟨_, hx⟩ => absurd hx (by simp), fun e => absurd (hm.symm.trans e) (by decide), fun _ _ => ⟨rfl, rfl, rfl⟩,
      fun _ => rfl⟩
  · exact ⟨fun ⟨hw, hx⟩ => absurd (hw.symm.trans hx) (by decide),
      fun e => hm.elim (fun hm => absurd (hm.symm.trans e) (by decide)) (fun hm => absurd (hm.symm.trans e) (by decide)),
      fun _ _ => ⟨rfl, rfl, rfl⟩, fun _ => rfl⟩

/-- Settles O29: of the cases of `step_disturbs`, COPY_FLIP and reset alone change the frame store of a BUSY block. -/
theorem noEditWhileBusy : Obligations.NoEditWhileBusy := by
  intro s t h hb hne
  rcases step_disturbs h with ⟨u, _⟩ | ⟨hr, _⟩ | ⟨_, _, rest, rfl⟩ | ⟨hm, hp, _, _⟩ | ⟨_, _, rest, rfl⟩
  · exact absurd (u.noEdit hb) hne
  · exact .inr hr
  · exact absurd (seqAcquire_fb _) hne
  · exact .inl ⟨hp, hm⟩
  · exact absurd (settleExpire_fb _) hne

end Sys2Proof.Machine
end

section
/-! PROOF. The settle delay counted by the clock: the state after any number of cycles before its end, and the cycle that ends
it. -/

namespace Sys2Proof.Machine

/-- The block after n cycles of a settle delay that does not end in them, with `rest` still scheduled (R32, R221). -/
def countedDown (s : State) (n : Nat) (rest : List Move) : State :=
  { s with sched := rest, settleCnt := s.settleCnt - BitVec.ofNat 32 n }

theorem countedDown_settleCnt {s : State} {n : Nat} (rest : List Move) (hn : n ≤ s.settleCnt.toNat) :
    (countedDown s n rest).settleCnt.toNat = s.settleCnt.toNat - n := by
  have hlt : n < 2 ^ 32 := Nat.lt_of_le_of_lt hn s.settleCnt.isLt
  change (s.settleCnt - BitVec.ofNat 32 n).toNat = _
  rw [BitVec.toNat_sub_of_le (by rw [BitVec.le_def, toNat_ofNat32 hlt]; exact hn), toNat_ofNat32 hlt]

/-- Cycles counted in two parts. -/
theorem countedDown_countedDown (s : State) (n m : Nat) (rest rest' : List Move) :
    countedDown (countedDown s n rest) m rest' = countedDown s (n + m) rest' := by
  simp only [countedDown, BitVec.sub_sub, ← BitVec.ofNat_add]

/-- A cycle that does not end the delay. -/
theorem step_countedDown {s : State} {rest : List Move} (h : Turn s .clock rest) (hs : s.settling = true)
    (hcnt : 1 < s.settleCnt.toNat) : step s = .next (countedDown s 1 rest) := by
  rw [step_clock h hs, if_neg (by omega)]
  rfl

/-- Before the count runs out, cycles only count. -/
theorem run_clocks {s : State} {n : Nat} {rest : List Move} (hl : s.cfg.legal = true) (hr : s.rstN = true)
    (hs : s.settling = true) (hn : n < s.settleCnt.toNat) (hq : s.sched = List.replicate n .clock ++ rest) :
    Host.Core.run core n s = .next (countedDown s n rest) := by
  induction n generalizing s with
  | zero =>
    obtain rfl : s.sched = rest := hq
    simp [countedDown, run_zero]
  | succ n ih =>
    have turn : Turn s .clock (List.replicate n .clock ++ rest) := ⟨hl, hr, hq⟩
    have hleft := countedDown_settleCnt (n := 1) (List.replicate n .clock ++ rest) (show 1 ≤ s.settleCnt.toNat by omega)
    calc Host.Core.run core (n + 1) s
      _ = Host.Core.run core n (countedDown s 1 (List.replicate n .clock ++ rest)) :=
        run_succ n (step_countedDown turn hs (by omega))
      _ = .next (countedDown (countedDown s 1 (List.replicate n .clock ++ rest)) n rest) := ih hl hr hs (by omega) rfl
      _ = .next (countedDown s (n + 1) rest) := by rw [countedDown_countedDown, Nat.add_comm]

/-- Settles O22: `run_clocks` up to the cycle in question; the last cycle finds the count at 1 and ends the delay. -/
theorem settleDelayIsItsCount : Obligations.SettleDelayIsItsCount := by
  intro s n rest hl hr hs hready hpos hq
  constructor
  · intro hn
    have hsplit : s.sched = List.replicate n .clock ++ (List.replicate (s.settleCnt.toNat - n) .clock ++ rest) := by
      rw [← List.append_assoc, ← List.replicate_add, Nat.add_sub_cancel' hn.le]
      exact hq
    exact ⟨_, run_clocks hl hr hs hn hsplit, hready, hs, countedDown_settleCnt _ hn.le⟩
  · rintro rfl
    obtain ⟨k, hk⟩ : ∃ k, s.settleCnt.toNat = k + 1 := ⟨_, (Nat.sub_add_cancel hpos).symm⟩
    have hsplit : s.sched = List.replicate k .clock ++ .clock :: rest := by
      rw [hq, hk, List.replicate_succ', List.append_assoc]
      rfl
    have hone : (countedDown s k (.clock :: rest)).settleCnt.toNat ≤ 1 := by
      rw [countedDown_settleCnt _ (by omega)]
      omega
    have turn : Turn (countedDown s k (.clock :: rest)) .clock rest := ⟨hl, hr, rfl⟩
    have hlast := step_clock turn hs
    rw [if_pos hone] at hlast
    rw [hk, run_add k 1 (run_clocks hl hr hs (by omega) hsplit), run_succ 0 hlast]
    rfl

end Sys2Proof.Machine
end

section
/-! PROOF. The sticky flags: everything a step can do to them, and from it that they are sticky and what sets each. -/

namespace Sys2Proof.Machine

/-- What sets a flag in a step: the sequencer's COPY_FLIP, a completion outside XFER, or the host access at the head of the queue,
for its own reason (R46). -/
def SetBy (s : State) (f : Flag) : Prop :=
  (f = .passDone ∧ s.sched.head? = some .sequencer ∧ s.phase = .copy) ∨
  (f = .errDone ∧ s.sched.head? = some .dmaDone ∧ s.phase ≠ .xfer) ∨
  (s.sched.head? = some .host ∧ ∃ a, s.hostQ.head? = some a ∧ RaisedBy s (hostSelect s.cfg a) f)

/-- The host's next access writes v to STATUS, and the host port moves next. -/
def StatusWriteNext (s : State) (v : Word) : Prop :=
  s.sched.head? = some .host ∧ s.hostQ.head? = some (regWriteAccess s.cfg .status v)

/-- The access that selects a CMD write. -/
theorem access_of_command {c : Config} (hl : c.legal = true) {a : Access} {w : Word} (h : hostSelect c a = .command w) :
    a = regWriteAccess c .cmd w := by
  have inv := hostSelect_inv hl a
  rwa [h] at inv

/-- The access that selects a register write. -/
theorem access_of_regWrite {c : Config} (hl : c.legal = true) {a : Access} {r : Reg} {v : Word}
    (h : hostSelect c a = .regWrite r v) : a = regWriteAccess c r v := by
  have inv := hostSelect_inv hl a
  rw [h] at inv
  exact inv.2

/-- The access that selects a frame-store write. -/
theorem access_of_fbWrite {c : Config} (hl : c.legal = true) {a : Access} {n : Nat} {v : Word}
    (h : hostSelect c a = .fbWrite n v) : inFb c n = true ∧ a = writeAt n v := by
  have inv := hostSelect_inv hl a
  rw [h] at inv
  exact ⟨inv.1, inv.2.2⟩

/-- Everything the host port's move can do to the flags. -/
theorem hostMove_flags {s t : State} (hl : s.cfg.legal = true) (h : hostMove s = .next t) :
    t.sticky = s.sticky ∨
    ∃ a, s.hostQ.head? = some a ∧
      ((∃ v, a = regWriteAccess s.cfg .status v ∧ t.sticky = s.sticky.without (FlagSet.ofWord v)) ∨
       ∃ f, t.sticky = s.sticky.set f ∧ RaisedBy s (hostSelect s.cfg a) f) := by
  rcases hostMove_cases h with ⟨_, rfl⟩ | ⟨a, q, hq, ⟨_, rfl⟩ | ⟨_, h⟩⟩
  · exact .inl rfl
  · exact .inl rfl
  have ha : s.hostQ.head? = some a := by simp [hq]
  rcases performHost_flags h with e | ⟨v, hx, e⟩ | ⟨f, e, hr⟩
  · exact .inl e
  · exact .inr ⟨a, ha, .inl ⟨v, access_of_regWrite hl hx, e⟩⟩
  · exact .inr ⟨a, ha, .inr ⟨f, e, hr⟩⟩

theorem xferComplete_sticky (s : State) : (xferComplete s).sticky = s.sticky := by
  rcases xferComplete_cases s with ⟨_, e⟩ | ⟨_, e⟩ <;> rw [e]

/-- Which agents' moves reach the flags (R46). -/
theorem agentMove_flags {s t : State} {m : Move} (h1 : m ≠ .resetAssert) (h2 : m ≠ .resetRelease)
    (h : agentMove s m = .next t) :
    t.sticky = s.sticky ∨
    (m = .host ∧ hostMove s = .next t) ∨
    (m = .sequencer ∧ s.phase = .copy ∧ t.sticky = s.sticky.set .passDone) ∨
    (m = .dmaDone ∧ s.phase ≠ .xfer ∧ t.sticky = s.sticky.set .errDone) := by
  rcases agentMove_cases h1 h2 h with rfl | ⟨rfl, _⟩ | ⟨_, e⟩ | ⟨_, _, _, rfl⟩ | ⟨_, _, _, rfl⟩ | ⟨hm, hp, rfl⟩ |
    ⟨_, _, rfl⟩ | ⟨hm, hp, rfl⟩ | ⟨_, _, rfl⟩ | ⟨_, _, _, rfl⟩
  · exact .inl rfl
  · exact .inr (.inl ⟨rfl, h⟩)
  · exact .inl (by rw [e])
  · exact .inl rfl
  · exact .inl rfl
  · exact .inr (.inr (.inl ⟨hm, hp, rfl⟩))
  · exact .inl (xferComplete_sticky s)
  · exact .inr (.inr (.inr ⟨hm, hp, rfl⟩))
  · exact .inl rfl
  · exact .inl rfl

/-- Everything a step can do to the flags: nothing; clear them in a reset; clear those a STATUS write names; set one, for its
reason. -/
theorem step_flags {s t : State} (h : step s = .next t) :
    t.sticky = s.sticky ∨ (s.sched.head? = some .resetAssert ∧ t.sticky = FlagSet.none) ∨
    (∃ v, StatusWriteNext s v ∧ t.sticky = s.sticky.without (FlagSet.ofWord v)) ∨
    ∃ f, SetBy s f ∧ t.sticky = s.sticky.set f := by
  rcases step_kinds h with e | ⟨hr, rest, rfl⟩ | ⟨m, rest, turn, hm, h1, h2, ha⟩
  · exact .inl (by rw [e])
  · exact .inr (.inl ⟨hr, rfl⟩)
  rcases agentMove_flags h1 h2 ha with e | ⟨rfl, hhost⟩ | ⟨rfl, hp, e⟩ | ⟨rfl, hp, e⟩
  · exact .inl e
  · rcases hostMove_flags (s := { s with sched := rest }) turn.legal hhost with e | ⟨a, hq, ⟨v, rfl, e⟩ | ⟨f, e, hr⟩⟩
    · exact .inl e
    · exact .inr (.inr (.inl ⟨v, ⟨hm, hq⟩, e⟩))
    · exact .inr (.inr (.inr ⟨f, .inr (.inr ⟨hm, a, hq, hr⟩), e⟩))
  · exact .inr (.inr (.inr ⟨.passDone, .inl ⟨rfl, hm, hp⟩, e⟩))
  · exact .inr (.inr (.inr ⟨.errDone, .inr (.inl ⟨rfl, hm, hp⟩), e⟩))

/-- Settles O43: of the cases of `step_flags`, reset and the STATUS write alone clear a flag. -/
theorem flagsAreSticky : Obligations.FlagsAreSticky := by
  intro s t f h hset hclear
  rcases step_flags h with e | ⟨hr, _⟩ | ⟨v, ⟨hm, hq⟩, e⟩ | ⟨g, _, e⟩
  · rw [e, hset] at hclear
    cases hclear
  · exact .inl hr
  · rw [e, FlagSet.get_without, FlagSet.get_ofWord, hset] at hclear
    exact .inr ⟨hm, v, hq, by simpa using hclear⟩
  · rw [e, FlagSet.get_set, hset] at hclear
    cases hclear

/-- A flag that a step sets is set by its event. -/
theorem setBy_of_step {s t : State} {f : Flag} (h : step s = .next t) (hclear : s.sticky.get f = false)
    (hset : t.sticky.get f = true) : SetBy s f := by
  rcases step_flags h with e | ⟨_, e⟩ | ⟨v, _, e⟩ | ⟨g, hg, e⟩ <;> rw [e] at hset
  · simp [hclear] at hset
  · simp at hset
  · simp [hclear] at hset
  · obtain rfl : f = g := by simpa [FlagSet.get_set, hclear] using hset
    exact hg

/-- Settles O44: `setBy_of_step`, and the access that selects what raises each of the host's flags. -/
theorem flagsAreSetByTheirEvents : Obligations.FlagsAreSetByTheirEvents := by
  intro s t f h hclear hset
  have hl := (step_cases h).1
  have hevent := setBy_of_step h hclear hset
  cases f <;> rcases hevent with ⟨e, hm, hp⟩ | ⟨e, hm, hp⟩ | ⟨hm, a, hq, hr⟩
  case passDone.inl => exact ⟨hm, hp⟩
  case errDone.inr.inl => exact ⟨hm, hp⟩
  case passDone.inr.inr => exact hr.elim
  case errDone.inr.inr => exact hr.elim
  case errCmd.inr.inr =>
    obtain ⟨w, r, hx, hd⟩ := hr
    exact ⟨hm, w, r, access_of_command hl hx ▸ hq, hd⟩
  case showOvf.inr.inr =>
    obtain ⟨hreq, w, hx, hd⟩ := hr
    exact ⟨hm, hreq, w, access_of_command hl hx ▸ hq, hd⟩
  case errAddr.inr.inr =>
    obtain ⟨hb, w, b, st, p, hx, hd, hout⟩ := hr
    exact ⟨hm, hb, w, b, st, p, access_of_command hl hx ▸ hq, hd, hout⟩
  case errBusy.inr.inr =>
    obtain ⟨hb, ⟨w, b, st, p, hx, hd⟩ | ⟨n, v, hx⟩⟩ := hr
    · exact ⟨hm, hb, .inl ⟨w, b, st, p, access_of_command hl hx ▸ hq, hd⟩⟩
    · obtain ⟨hn, ha⟩ := access_of_fbWrite hl hx
      exact ⟨hm, hb, .inr ⟨n, v, hn, ha ▸ hq⟩⟩
  all_goals cases e

end Sys2Proof.Machine
end

section
/-! PROOF. While a transfer runs, the frame store keeps the stream its ACQUIRE recorded: no agent's move reaches what the record
is compared with, but the ACQUIRE that records it and the steps that end the transfer. -/

namespace Sys2Proof.Machine

/-- Only a running transfer has a stream to keep. -/
theorem StreamKept.of_no_transfer {s : State} (h : s.phase ≠ .xfer) : StreamKept s := fun hx => absurd hx h

theorem xferComplete_phase_ne_xfer (s : State) : (xferComplete s).phase ≠ .xfer := by
  rcases xferComplete_cases s with ⟨_, e⟩ | ⟨_, e⟩ <;> rw [e] <;> simp

/-- A running transfer is a pass in progress (R31). -/
theorem busy_of_xfer {s : State} (h : s.phase = .xfer) : s.busy = true := by simp [State.busy, h]

/-- A host access leaves the record, and, since the block is BUSY in a transfer, the frame store (R73). -/
theorem HostFrame.keeps_stream {s t : State} (h : HostFrame s t) (hk : StreamKept s) : StreamKept t := by
  have e := h.frame
  intro hx
  have hp : s.phase = .xfer := by rwa [e] at hx
  rw [e, h.noEdit (busy_of_xfer hp)]
  exact hk hp

/-- ACQUIRE records the stream of the buffer and the board it latches (R133, R139). -/
theorem seqAcquire_keeps_stream (s : State) : StreamKept (seqAcquire s) := fun _ => rfl

theorem agentMove_keeps_stream {s t : State} {m : Move} (h1 : m ≠ .resetAssert) (h2 : m ≠ .resetRelease)
    (h : agentMove s m = .next t) (hk : StreamKept s) : StreamKept t := by
  rcases agentMove_cases h1 h2 h with rfl | ⟨_, hf⟩ | ⟨_, e⟩ | ⟨_, _, _, rfl⟩ | ⟨_, _, _, rfl⟩ | ⟨_, _, rfl⟩ |
    ⟨_, _, rfl⟩ | ⟨_, hp, rfl⟩ | ⟨_, _, rfl⟩ | ⟨_, _, _, rfl⟩
  · exact hk
  · exact hf.keeps_stream hk
  · rw [e]; exact hk
  · exact .of_no_transfer (by simp)
  · exact seqAcquire_keeps_stream s
  · exact .of_no_transfer (by simp)
  · exact .of_no_transfer (xferComplete_phase_ne_xfer s)
  · exact .of_no_transfer hp
  · exact hk
  · exact hk

/-- Settles O36: reset ends the transfer, every other step is a move of the schedule or of rst_n alone, or an agent's
(`agentMove_keeps_stream`). -/
theorem stepKeepsTheStream : Obligations.StepKeepsTheStream := by
  intro s t _ hk h
  rcases step_kinds h with e | ⟨_, rest, rfl⟩ | ⟨m, rest, _, _, h1, h2, ha⟩
  · rw [e]; exact hk
  · exact .of_no_transfer (by simp)
  · exact agentMove_keeps_stream (s := { s with sched := rest }) h1 h2 ha hk

end Sys2Proof.Machine
end

section
/-! PROOF. Accesses and addresses: the plane words' addresses, reads on either port, the CMD write of an issued command, and host
accesses outside the windows. -/

namespace Sys2Proof.Machine

/-! ### Addresses of plane words -/

/-- Settles O47: `fbIndex_fbAddr` one way, `fbAddr_fbIndex` the other. -/
theorem planeAddressesAreExact : Obligations.PlaneAddressesAreExact := by
  refine fun c hl => ⟨fun u b j k hb hj hk => ?_, fun a => fbAddr_fbIndex hl⟩
  obtain ⟨haligned, hin, _, _⟩ := fbAddr_facts hl (u := u) hb hj hk
  exact ⟨hin, haligned, fbIndex_fbAddr u hb hj hk⟩

/-! ### Reads -/

/-- An access that is no command does what `serve` says. -/
theorem performHost_eq_serve (s : State) {x : Selected} (h : ∀ w, x ≠ .command w) : performHost s x = .next (serve s x) := by
  cases x with
  | command w => exact absurd rfl (h w)
  | _ => rfl

/-- A host read holds, or is answered and does nothing else (R69, R174). -/
theorem step_hostRead {s : State} {a : Access} {rest : List Move} {q : List Access} (h : HostTurn s a rest q)
    (hread : a.op = .read) :
    step s = .next { s with sched := rest } ∨ ∃ r, step s = .next (s.hostAnswered rest q a r) := by
  cases hh : holds s (hostSelect s.cfg a)
  · refine .inr ⟨respond s (hostSelect s.cfg a), ?_⟩
    obtain ⟨hserve, hcommand⟩ :=
      hostSelect_read s.cfg hread (s.hostAnswered rest q a (respond s (hostSelect s.cfg a)))
    rw [step_host h hh, performHost_eq_serve _ hcommand, hserve]
  · exact .inl (step_host_holds h hh)

/-- An engine access holds, or is answered and does nothing else (R180, R181). -/
theorem step_engineAccess {s : State} {a : Access} {rest : List Move} {q : List Access} (h : EngineTurn s a rest q) :
    step s = .next { s with sched := rest } ∨ ∃ r, step s = .next (s.engineAnswered rest q a r) := by
  cases hh : holds s (engineSelect s.cfg a)
  · exact .inr ⟨_, step_engine h hh⟩
  · exact .inl (step_engine_holds h hh)

/-- Settles O55: `step_hostRead` and `step_engineAccess`. -/
theorem readsHaveNoSideEffect : Obligations.ReadsHaveNoSideEffect := by
  intro s t a rest q hread ht
  constructor
  · intro h
    rcases step_hostRead h hread with e | ⟨r, e⟩ <;> cases ht.symm.trans e <;> rfl
  · intro h
    rcases step_engineAccess h with e | ⟨r, e⟩ <;> cases ht.symm.trans e <;> rfl

/-! ### The CMD write -/

/-- What does not wait for the copy never holds (R174). -/
theorem holds_of_not_waits (s : State) {x : Selected} (h : x.waitsForCopy = false) : holds s x = false := by
  simp [holds, h]

/-- A host write of CMD completes at once, in any phase, and its word is run on the state in which it has (R90, R172, R174). -/
theorem step_command {s : State} {w : Word} {rest : List Move} {q : List Access}
    (h : HostTurn s (regWriteAccess s.cfg .cmd w) rest q) :
    step s = runCommand w (s.hostAnswered rest q (regWriteAccess s.cfg .cmd w) .done) := by
  have hsel := hostSelect_command h.legal w
  rw [step_host h (by rw [hsel]; exact holds_of_not_waits s rfl), hsel]
  rfl

theorem runCommand_ok {w : Word} {i : Instr} (h : decode w = .ok i) (s : State) : runCommand w s = exec i s := by
  simp only [runCommand, h]

theorem decode_of_decodeTableWord {nbits w : Nat} {i : Instr} (h : decodeTableWord nbits w = some i) :
    decode (tableWord nbits w) = .ok i := by
  unfold decodeTableWord at h
  cases hd : decode (tableWord nbits w) with
  | ok j => simpa [hd] using h
  | error r => simp [hd] at h

/-- An issued command is the host's next access, and the host port moves next. -/
theorem hostTurn_withFetchWord {s : State} (hl : s.cfg.legal = true) (nbits w : Nat) :
    HostTurn (s.withFetchWord nbits w) (regWriteAccess s.cfg .cmd (tableWord nbits w)) s.sched s.hostQ :=
  { legal := hl, released := rfl, next := rfl, access := rfl }

/-- Settles O14: the issued command has the next turn, and its CMD write runs the word. -/
theorem fetchWordIsNext : Obligations.FetchWordIsNext := by
  intro s nbits w i hl hd
  exact (step_command (hostTurn_withFetchWord hl nbits w)).trans (runCommand_ok (decode_of_decodeTableWord hd) _)

/-! ### Addresses of no window -/

/-- Settles O56: outside the windows nothing is selected, and what is not selected neither holds nor has an effect. -/
theorem otherAddressesAreNotServed : Obligations.OtherAddressesAreNotServed := by
  intro s a rest q h hcsr hfb hdesc
  have hsel := hostSelect_outside hcsr hfb hdesc
  rw [step_host h (by rw [hsel]; exact holds_of_not_waits s rfl), hsel]
  rfl

end Sys2Proof.Machine
end

section
/-! PROOF. Decoding and encoding: the two undo each other, the decoder follows the opcode map, and its reserved words are those of
R96. -/

namespace Sys2Proof

/-! ### The commands and their words -/

theorem Instr.wf_encodePixel_iff (b st p : Nat) :
    (Instr.encodePixel b st p).wf = true ↔ b < 16 ∧ st < 32 ∧ p < 65536 := by
  simp [Instr.wf, Instr.boardFits, Instr.stripFits, Instr.pixelFits, and_assoc]

/-- The word of an ENCODE whose operands fit is in the ENCODE row, and its fields are the operands (R91, R92). -/
theorem fields_encode {b st p : Nat} (hb : b < 16) (hst : st < 32) (hp : p < 65536) :
    encode (.encodePixel b st p) &&& 0xF0E00000#32 = 0x10000000#32 ∧
    boardField (encode (.encodePixel b st p)) = b ∧
    stripField (encode (.encodePixel b st p)) = st ∧
    pixelField (encode (.encodePixel b st p)) = p := by
  rw [encodeRow_iff_toNat, boardField_eq, stripField_eq, pixelField_eq, encode_toNat hb hst hp]
  omega

/-- Settles O8: NOP and SHOW are one word each, and the word of an ENCODE gives its operands back (`fields_encode`). -/
theorem decodeOfEncode : Obligations.DecodeOfEncode := by
  intro i hwf
  cases i with
  | nop => exact (decode_nop_iff _).mpr rfl
  | showPixels => exact (decode_show_iff _).mpr rfl
  | encodePixel b st p =>
    obtain ⟨hb, hst, hp⟩ := (Instr.wf_encodePixel_iff b st p).mp hwf
    obtain ⟨hrow, eb, est, ep⟩ := fields_encode hb hst hp
    rw [decode_encodeRow hrow, eb, est, ep]

/-- A word of the ENCODE row is the word of its fields: OP and RSV are the row's, and no bit is in none of the fields (R91). -/
theorem encode_fields {w : Word} (hrow : w &&& 0xF0E00000#32 = 0x10000000#32) :
    encode (.encodePixel (boardField w) (stripField w) (pixelField w)) = w := by
  obtain ⟨hb, hst, hp⟩ := fields_lt w
  refine BitVec.eq_of_toNat_eq ?_
  rw [encode_toNat hb hst hp, boardField_eq, stripField_eq, pixelField_eq]
  rw [encodeRow_iff_toNat] at hrow
  omega

/-- Settles O9: by the rows of `decode_cases`; an ENCODE's operands are its word's fields, which fit (`fields_lt`). -/
theorem encodeOfDecode : Obligations.EncodeOfDecode := by
  intro w i h
  rcases decode_cases w with ⟨rfl, e⟩ | ⟨rfl, e⟩ | ⟨hrow, e⟩ | ⟨_, _, _, e⟩ <;> cases e.symm.trans h
  · exact ⟨rfl, rfl⟩
  · exact ⟨rfl, rfl⟩
  · exact ⟨(Instr.wf_encodePixel_iff _ _ _).mpr (fields_lt w), encode_fields hrow⟩

/-! ### The opcode map (R94) -/

theorem decode_encodePixel_iff (w : Word) :
    (∃ b st p, decode w = .ok (.encodePixel b st p)) ↔ w &&& 0xF0E00000#32 = 0x10000000#32 := by
  refine ⟨?_, fun h => ⟨_, _, _, decode_encodeRow h⟩⟩
  rintro ⟨b, st, p, h⟩
  obtain ⟨hwf, rfl⟩ := encodeOfDecode w _ h
  obtain ⟨hb, hst, hp⟩ := (Instr.wf_encodePixel_iff b st p).mp hwf
  exact (fields_encode hb hst hp).1

/-- A word is reserved when it is in no row (R94). -/
theorem decode_error_iff (w : Word) :
    (∃ r, decode w = .error r) ↔
      w ≠ 0x00000000#32 ∧ w &&& 0xF0E00000#32 ≠ 0x10000000#32 ∧ w ≠ 0x20000000#32 := by
  rcases decode_cases w with ⟨rfl, e⟩ | ⟨rfl, e⟩ | ⟨hrow, e⟩ | ⟨h0, h2, h1, e⟩
  · simp [e]
  · simp [e]
  · simp [e, hrow]
  · exact ⟨fun _ => ⟨h0, h1, h2⟩, fun _ => ⟨_, e⟩⟩

/-- The mask of a row without operands keeps every bit. -/
theorem and_fullMask (w : Word) : w &&& 0xFFFFFFFF#32 = w := BitVec.and_allOnes

theorem opcodeMap_any_accepts (w : Word) :
    opcodeMap.any (fun r => r.accepts w) = false ↔
      w ≠ 0x00000000#32 ∧ w &&& 0xF0E00000#32 ≠ 0x10000000#32 ∧ w ≠ 0x20000000#32 := by
  simp [opcodeMap, OpcodeRow.accepts, and_fullMask]

/-- The patterns of two rows that accept one word agree where both masks look. -/
theorem OpcodeRow.patterns_agree {x y : OpcodeRow} {w : Word} (hx : x.accepts w = true) (hy : y.accepts w = true) :
    x.pattern &&& (x.mask &&& y.mask) = y.pattern &&& (x.mask &&& y.mask) := by
  simp only [OpcodeRow.accepts, beq_iff_eq] at hx hy
  rw [← hx, ← hy]
  ac_rfl

/-- Of rows no two of which overlap (`opcodeMap_disjoint`), one at most accepts a word. -/
theorem opcodeMap_accepts_le_one (w : Word) : (opcodeMap.filter fun r => r.accepts w).length ≤ 1 := by
  have hdisjoint := opcodeMap_disjoint.filter fun r => r.accepts w
  have haccepts : ∀ r ∈ opcodeMap.filter fun r => r.accepts w, r.accepts w = true := fun r hr => (List.mem_filter.mp hr).2
  generalize opcodeMap.filter (fun r => r.accepts w) = rows at *
  match rows with
  | [] => simp
  | [_] => simp
  | x :: y :: rows =>
    have hne := List.rel_of_pairwise_cons hdisjoint (List.mem_cons_self (a := y))
    exact absurd (OpcodeRow.patterns_agree (haccepts x (by simp)) (haccepts y (by simp))) hne

/-- Settles O10: what decodes to each command is its row, and the words of no row are the reserved ones. -/
theorem decodeFollowsOpcodeMap : Obligations.DecodeFollowsOpcodeMap := by
  intro w
  rw [and_fullMask]
  exact ⟨(decode_nop_iff w).symm, (decode_encodePixel_iff w).symm, (decode_show_iff w).symm,
    opcodeMap_accepts_le_one w, (decode_error_iff w).trans (opcodeMap_any_accepts w).symm⟩

/-! ### Reserved words (R96) -/

/-- Format Z: the one word with this OP and every other bit 0 (R91). -/
theorem formatZ_iff (w : Word) {op : Nat} (hop : op < 16) :
    w = BitVec.ofNat 32 (op * 2 ^ 28) ↔ (w.extractLsb' 28 4).toNat = op ∧ w.extractLsb' 0 28 = 0 := by
  rw [← BitVec.toNat_inj, ← BitVec.toNat_inj]
  simp only [BitVec.extractLsb'_toNat, BitVec.toNat_ofNat, BitVec.ofNat_eq_ofNat, Nat.shiftRight_eq_div_pow]
  have := w.isLt
  omega

/-- The three classes of reserved words: what the formats of no row leave, by the value of OP (R96). -/
theorem reserved_iff_fields (w : Word) :
    (∃ r, decode w = .error r) ↔
      3 ≤ (w.extractLsb' 28 4).toNat ∨
      (((w.extractLsb' 28 4).toNat = 0 ∨ (w.extractLsb' 28 4).toNat = 2) ∧ w.extractLsb' 0 28 ≠ 0) ∨
      ((w.extractLsb' 28 4).toNat = 1 ∧ w.extractLsb' 21 3 ≠ 0) := by
  have hnop : w = 0x00000000#32 ↔ _ := formatZ_iff w (op := 0) (by decide)
  have hshow : w = 0x20000000#32 ↔ _ := formatZ_iff w (op := 2) (by decide)
  have hencode : w &&& 0xF0E00000#32 = 0x10000000#32 ↔ (w.extractLsb' 28 4).toNat = 1 ∧ w.extractLsb' 21 3 = 0 := by
    rw [encodeRow_iff, ← BitVec.toNat_inj]; rfl
  rw [decode_error_iff, Ne, Ne, Ne, hnop, hshow, hencode]
  have hop : ∀ op : Nat, op = 0 ∨ op = 1 ∨ op = 2 ∨ 3 ≤ op := by omega
  rcases hop (w.extractLsb' 28 4).toNat with h | h | h | h
  · simp [h]
  · simp [h]
  · simp [h]
  · simp only [h, true_or, iff_true]
    omega

/-- Settles O12: five are the words of well-formed commands (O8), three are in no row. -/
theorem decodedWords : Obligations.DecodedWords :=
  ⟨decodeOfEncode .nop rfl, decodeOfEncode (.encodePixel 0 3 5) rfl, decodeOfEncode (.encodePixel 1 15 99) rfl,
    decodeOfEncode (.encodePixel 15 31 65535) rfl, decodeOfEncode .showPixels rfl, rfl, rfl, rfl⟩

end Sys2Proof
end

section
/-! PROOF. The step that performs a CMD write, of a word that decodes and of a reserved one. -/

namespace Sys2Proof.Machine

theorem runCommand_error {w : Word} {r : Reserved} (h : decode w = .error r) (s : State) :
    runCommand w s = .next (s.raise .errCmd) := by
  simp only [runCommand, h]

/-- Settles O11: the classes are `reserved_iff_fields`, and the CMD write raises ERR_CMD on the state in which it has completed. -/
theorem reservedWordSetsErrCmd : Obligations.ReservedWordSetsErrCmd :=
  ⟨reserved_iff_fields, fun _ _ _ _ _ h hd => (step_command h).trans (runCommand_error hd _)⟩

/-- Settles O13: the CMD write is performed at once and runs the command (`step_command`). -/
theorem stepRunsDecodedCommand : Obligations.StepRunsDecodedCommand :=
  fun _ _ _ _ _ h hd => (step_command h).trans (runCommand_ok hd _)

end Sys2Proof.Machine
end

section
/-! PROOF. The codec commands NOP and ENCODE: what a refused ENCODE and an accepted one answer, and what the planes then hold. -/

namespace Sys2Proof.Machine

/-! ### What ENCODE answers -/

/-- The frame store an ENCODE that is not refused leaves (R112; `exec_encodePixel_accepted`). Irreducible, so that a comparison of
states does not evaluate the 24 updates. -/
@[irreducible] def State.encodedFb (s : State) (b st p : Nat) : FrameStore :=
  s.fb.putPlaneBits s.cfg (st + s.cfg.off) (pixelBits s.cfg s.active b p s.rgb)

theorem State.encodedFb_eq (s : State) (b st p : Nat) :
    s.encodedFb b st p = s.fb.putPlaneBits s.cfg (st + s.cfg.off) (pixelBits s.cfg s.active b p s.rgb) := by
  delta State.encodedFb
  rfl

theorem exec_encodePixel_accepted {s : State} {b st p : Nat} (hbusy : s.busy = false) (hb : b < s.cfg.boards)
    (hst : st < s.cfg.strips) (hp : p < s.cfg.numPixels) :
    exec (.encodePixel b st p) s = .next (s.withFb (s.encodedFb b st p)) := by
  rw [State.encodedFb_eq]
  exact execEncodePixel_accepted hbusy hb hst hp

/-- The refusals of ENCODE, BUSY before the range of the fields (R112, R205). -/
theorem exec_encodePixel_refused (s : State) (b st p : Nat) :
    (s.busy = true → exec (.encodePixel b st p) s = .next (s.raise .errBusy)) ∧
    (s.busy = false → (s.cfg.boards ≤ b ∨ s.cfg.strips ≤ st ∨ s.cfg.numPixels ≤ p) →
      exec (.encodePixel b st p) s = .next (s.raise .errAddr)) := by
  rcases execEncodePixel_cases b st p s with ⟨hbusy, e⟩ | ⟨hbusy, _, e⟩ | ⟨hbusy, hb, hst, hp, _⟩
  · exact ⟨fun _ => e, fun h => by simp [hbusy] at h⟩
  · exact ⟨fun h => by simp [hbusy] at h, fun _ _ => e⟩
  · exact ⟨fun h => by simp [hbusy] at h, fun _ hrange => by omega⟩

/-- A strip's bit position is a bit of a plane word (R8). -/
theorem strip_add_off_lt {c : Config} (hl : c.legal = true) {st : Nat} (hst : st < c.strips) : st + c.off < 32 := by
  have := (Config.facts hl).strips_off
  omega

/-- Every slot is the slot of one channel of pixel j / 3 (R111). -/
theorem exists_slotOf (j : Nat) : ∃ ch, j = slotOf (j / 3) ch := by
  have hcases : j = 3 * (j / 3) + 0 ∨ j = 3 * (j / 3) + 1 ∨ j = 3 * (j / 3) + 2 := by omega
  rcases hcases with h | h | h
  · exact ⟨.red, h⟩
  · exact ⟨.green, h⟩
  · exact ⟨.blue, h⟩

theorem slotOf_div (p : Nat) (ch : Channel) : slotOf p ch / 3 = p := by
  cases ch <;> simp only [slotOf, Channel.index] <;> omega

/-- The bit ENCODE puts into plane k is the bit of DATA that `colourBit` names (R25, R93). -/
theorem getLsbD_channel_rgb (s : State) (ch : Channel) {k : Nat} (hk : k < 8) :
    (channel s.rgb ch).getLsbD (7 - k) = colourBit s.data ch k := by
  rw [getLsbD_channel _ _ (by omega), getLsbD_rgb s (by omega)]
  rfl

/-- The pixel's word of channel ch, plane k, after ENCODE (R112). -/
theorem encodedFb_plane (s : State) (b st p : Nat) (ch : Channel) {k : Nat} (hk : k < 8) :
    (s.encodedFb b st p).plane s.cfg s.active b (slotOf p ch) k =
      putBit (s.fb.plane s.cfg s.active b (slotOf p ch) k) (st + s.cfg.off) ((channel s.rgb ch).getLsbD (7 - k)) := by
  rw [State.encodedFb_eq]
  exact FrameStore.putPixel_plane _ _ _ _ _ _ _ ch hk

theorem encodedFb_plane_other {s : State} {b p b' j k : Nat} {u : Buffer} (st : Nat) (hb : b < s.cfg.boards)
    (hp : p < s.cfg.numPixels) (hb' : b' < s.cfg.boards) (hj : j < s.cfg.slots) (hk : k < 8)
    (hother : ¬ (u = s.active ∧ b' = b ∧ j / 3 = p)) :
    (s.encodedFb b st p).plane s.cfg u b' j k = s.fb.plane s.cfg u b' j k := by
  rw [State.encodedFb_eq]
  exact FrameStore.putPixel_plane_other _ _ _ _ hb hb' hp hj hk hother

theorem encodedFb_readByte_outside {s : State} {b p a : Nat} (st : Nat) (ha : ¬ InPixelWords s.cfg s.active b p a) :
    (s.encodedFb b st p).readByte s.cfg a = s.fb.readByte s.cfg a := by
  rw [State.encodedFb_eq]
  refine FrameStore.putPlaneBits_readByte_outside _ _ _ _ fun t ht => ?_
  obtain ⟨ch, k, hk, rfl⟩ := mem_pixelBits.mp ht
  by_contra hin
  exact ha ⟨ch, k, hk, by simp only at hin; omega⟩

/-- The same pixel encoded again, with any DATA d: the colour of the later ENCODE stands. -/
theorem encodedFb_last {s : State} {b st p : Nat} (hpos : st + s.cfg.off < 32) (hwf : Memory.wf s.fb.cells) (d : Word) :
    ({ s.withFb (s.encodedFb b st p) with data := d } : State).encodedFb b st p =
      ({ s with data := d } : State).encodedFb b st p := by
  simp only [State.encodedFb_eq, State.rgb, State.withFb_cfg, State.withFb_fb, State.withFb_active]
  exact FrameStore.putPixel_last s.cfg hpos s.fb hwf s.active b p _ _

/-- An ENCODE made after an ENCODE of the same bit position answers what it answers made before it. -/
theorem exec_encodePixel_again {s : State} {b st p : Nat} (hl : s.cfg.legal = true) (hwf : Memory.wf s.fb.cells)
    (hbusy : s.busy = false) (hb : b < s.cfg.boards) (hst : st < s.cfg.strips) (hp : p < s.cfg.numPixels) (d : Word) :
    exec (.encodePixel b st p) { s.withFb (s.encodedFb b st p) with data := d } =
      exec (.encodePixel b st p) { s with data := d } := by
  have hafter := exec_encodePixel_accepted (s := { s.withFb (s.encodedFb b st p) with data := d }) hbusy hb hst hp
  have hbefore := exec_encodePixel_accepted (s := { s with data := d }) hbusy hb hst hp
  rw [hafter, hbefore, encodedFb_last (strip_add_off_lt hl hst) hwf d]
  rfl

/-- The strip's bit of plane 7 - k carries bit k of the channel (R114). -/
theorem getLsbD_encodedFb_plane {s : State} {b st p : Nat} (hpos : st + s.cfg.off < 32) (ch : Channel) {k : Nat}
    (hk : k < 8) :
    ((s.encodedFb b st p).plane s.cfg s.active b (slotOf p ch) (7 - k)).getLsbD (st + s.cfg.off) =
      (channel s.rgb ch).getLsbD k := by
  rw [encodedFb_plane s b st p ch (by omega), getLsbD_putBit _ _ _ hpos, if_pos rfl, show 7 - (7 - k) = k by omega]

/-- After the flip both buffers hold what the buffer that was active holds (R140). -/
theorem seqCopyFlip_plane (s : State) (u : Buffer) {b j k : Nat} (hb : b < s.cfg.boards) (hj : j < s.cfg.slots)
    (hk : k < 8) : (seqCopyFlip s).fb.plane s.cfg u b j k = s.fb.plane s.cfg s.active b j k := by
  rw [seqCopyFlip_fb]
  rcases buffer_cases s.active u with rfl | rfl
  · exact FrameStore.copyFrom_plane_own _ hb hj hk
  · exact FrameStore.copyFrom_plane_other _ hb hj hk

/-! ### The obligations -/

/-- Settles O2: the words of the ENCODE row, the two refusals, and the planes and bytes of `State.encodedFb`. -/
theorem encodeMeaning : Obligations.EncodeMeaning := by
  refine ⟨fun w hrow => decode_encodeRow hrow, fun s b st p _ => ?_⟩
  obtain ⟨hbusy, hrange⟩ := exec_encodePixel_refused s b st p
  refine ⟨hbusy, hrange, fun hidle hb hst hp => ?_⟩
  refine ⟨_, exec_encodePixel_accepted hidle hb hst hp, rfl, fun ch k hk => ?_, fun a ha => encodedFb_readByte_outside st ha⟩
  rw [← rgb_eq]
  exact encodedFb_plane s b st p ch hk

/-- Settles O3: a word of another pixel, board or buffer keeps its value, and a word of the pixel differs at most in the strip's
bit, which is the colour's (`getLsbD_putBit`). -/
theorem encodeChangesOneBitPerWord : Obligations.EncodeChangesOneBitPerWord := by
  intro s b st p hl hidle hb hst hp
  refine ⟨_, exec_encodePixel_accepted hidle hb hst hp, fun u b' j k i hb' hj hk _ => ?_⟩
  by_cases hpixel : u = s.active ∧ b' = b ∧ j / 3 = p
  · obtain ⟨rfl, rfl, rfl⟩ := hpixel
    obtain ⟨ch, hch⟩ := exists_slotOf j
    have hbit : ((s.encodedFb b' st (j / 3)).plane s.cfg s.active b' j k).getLsbD i =
        if i = st + s.cfg.off then colourBit s.data ch k else (s.fb.plane s.cfg s.active b' j k).getLsbD i := by
      have hplane := encodedFb_plane s b' st (j / 3) ch hk
      rw [← hch] at hplane
      rw [hplane, getLsbD_putBit _ _ _ (strip_add_off_lt hl hst), getLsbD_channel_rgb s ch hk]
    refine ⟨fun hne => ⟨rfl, rfl, rfl, ?_⟩, fun ch' _ _ hj' hi => ?_⟩
    · by_contra hi
      exact hne (by rw [State.withFb_fb, hbit, if_neg hi])
    · rw [State.withFb_fb, hbit, if_pos hi, slotOf_inj (hch.symm.trans hj')]
  · refine ⟨fun hne => absurd ?_ hne, fun ch hu hbb hj' _ => absurd ⟨hu, hbb, ?_⟩ hpixel⟩
    · rw [State.withFb_fb, encodedFb_plane_other st hb hp hb' hj hk hpixel]
    · rw [hj']
      exact slotOf_div p ch

/-- Settles O4: the later colour stands (`exec_encodePixel_again`), and idempotence is the case of the same colour. -/
theorem encodeIdempotentAndLastWins : Obligations.EncodeIdempotentAndLastWins := by
  intro s b st p d hl hwf hidle hb hst hp
  have haccepted := exec_encodePixel_accepted hidle hb hst hp
  have hagain := exec_encodePixel_again hl hwf hidle hb hst hp
  exact ⟨_, haccepted, (hagain s.data).trans haccepted, hagain d⟩

/-- Settles O5: in the active buffer by `getLsbD_encodedFb_plane`, and the flip gives both buffers its planes
(`seqCopyFlip_plane`). -/
theorem encodeRoundTrip : Obligations.EncodeRoundTrip := by
  intro s b st p hl hidle hb hst hp
  refine ⟨_, exec_encodePixel_accepted hidle hb hst hp, rfl, fun ch k hk => ?_⟩
  have hbit := getLsbD_encodedFb_plane (b := b) (p := p) (strip_add_off_lt hl hst) ch hk
  refine ⟨hbit, fun u => ?_⟩
  rw [← hbit]
  exact congrArg (·.getLsbD (st + s.cfg.off))
    (seqCopyFlip_plane (s.withFb (s.encodedFb b st p)) u hb (slotOf_lt hp ch) (show 7 - k < 8 by omega))

/-- Settles O1: the row of NOP (`decode_nop_iff`), whose meaning answers the state itself. -/
theorem nopDoesNothing : Obligations.NopDoesNothing := fun w _ => ⟨decode_nop_iff w, rfl⟩

end Sys2Proof.Machine
end

section
/-! PROOF. The state invariant: what it does not speak of, and that the reset state and every agent's move meet it. -/

namespace Sys2Proof.Machine

/-! ### What the invariant rests on -/

/-- The invariant speaks of the frame store's cells, the configuration and the pass; of no other item. -/
theorem Inv.of_frame {s t : State} (h : Inv s)
    (e : t = { s with
      fb := t.fb, req := t.req, sticky := t.sticky, data := t.data, irqEn := t.irqEn, rstN := t.rstN, sched := t.sched,
      hostQ := t.hostQ, engQ := t.engQ, hostLog := t.hostLog, engLog := t.engLog, transfers := t.transfers })
    (hwf : Memory.wf t.fb.cells) (hin : ∀ x ∈ t.fb.cells, inFb s.cfg x.1 = true) : Inv t := by
  rw [e]
  exact { h with fbCanonical := hwf, fbInWindow := hin }

theorem Inv.of_sched {s : State} (h : Inv s) (rest : List Move) : Inv { s with sched := rest } :=
  h.of_frame rfl h.fbCanonical h.fbInWindow

/-- A settle delay that starts has its whole length to run (R32). -/
theorem settleCycles_running {c : Config} (hl : c.legal = true) :
    1 ≤ (BitVec.ofNat 32 c.settleCycles).toNat ∧ (BitVec.ofNat 32 c.settleCycles).toNat ≤ c.settleCycles := by
  rw [settleCycles_toNat hl]
  exact ⟨(Config.facts hl).settle_pos, le_rfl⟩

/-! ### Reset -/

/-- The reset state meets the invariant (R240). -/
theorem inv_resetWith {c : Config} (hl : c.legal = true) (epoch : Nat) : Inv (State.resetWith c epoch) where
  cfgLegal := hl
  fbCanonical := List.Pairwise.nil
  fbInWindow := fun _ hx => absurd hx List.not_mem_nil
  readySettled := nofun
  pendingIffXfer := ⟨nofun, nofun⟩
  xferGated := nofun
  boardInRange := (Config.facts hl).boards_pos
  descActive := fun _ => rfl
  descBoardInRange := (Config.facts hl).boards_pos
  xferBoard := nofun
  copyBoard := nofun
  settleRunning := fun _ => settleCycles_running hl
  settleDone := nofun
  semaphoreKept := .inr (.inl rfl)

/-- The assertion of reset leaves the reset state, but for the outside's items (R240). -/
theorem resetBlock_inv {s : State} (hl : s.cfg.legal = true) : Inv (resetBlock s) :=
  (inv_resetWith hl (s.fb.epoch + 1)).of_frame rfl List.Pairwise.nil fun _ hx => absurd hx List.not_mem_nil

/-- Settles O35: `inv_resetWith`, and the reference configuration is legal. -/
theorem resetMeetsInv : Obligations.ResetMeetsInv :=
  ⟨fun _ epoch hl => inv_resetWith hl epoch, inv_resetWith (by decide) 0⟩

/-! ### The moves of the sequencer, the settle timer, the clock and the engine's completion -/

/-- Outside XFER no transfer is pending, and the semaphore is released or its release is on the way (R147 item 2). -/
theorem Inv.outside_xfer {s : State} (h : Inv s) (hp : s.phase ≠ .xfer) :
    s.xferPending ≠ true ∧ (s.ready = true ∨ s.settling = true) :=
  ⟨fun e => hp (h.pendingIffXfer.mp e), h.semaphoreKept.imp_right fun hs => hs.resolve_right hp⟩

theorem seqStart_inv {s : State} (h : Inv s) (hp : s.phase = .idle) : Inv (seqStart s) := by
  obtain ⟨hpending, hsemaphore⟩ := h.outside_xfer (by simp [hp])
  exact { h with
    pendingIffXfer := ⟨fun e => absurd e hpending, nofun⟩
    xferGated := nofun
    boardInRange := (Config.facts h.cfgLegal).boards_pos
    descActive := by simp
    xferBoard := nofun
    copyBoard := nofun
    semaphoreKept := hsemaphore.imp_right .inl }

/-- ACQUIRE takes a semaphore whose delay is over (R147 items 1 and 3). -/
theorem seqAcquire_inv {s : State} (h : Inv s) (hr : s.ready = true) : Inv (seqAcquire s) :=
  have hsettled := h.readySettled hr
  { h with
    readySettled := nofun
    pendingIffXfer := ⟨fun _ => rfl, fun _ => rfl⟩
    xferGated := fun _ => ⟨rfl, hsettled⟩
    descActive := fun _ => rfl
    descBoardInRange := h.boardInRange
    xferBoard := fun _ => ⟨rfl, rfl⟩
    copyBoard := nofun
    semaphoreKept := .inr (.inr rfl) }

/-- COPY_FLIP lists bytes of the two buffers alone, in rising order (R140). -/
theorem seqCopyFlip_inv {s : State} (h : Inv s) (hp : s.phase = .copy) : Inv (seqCopyFlip s) := by
  obtain ⟨hpending, hsemaphore⟩ := h.outside_xfer (by simp [hp])
  exact { h with
    fbCanonical := FrameStore.copyFrom_wf h.fbCanonical s.active
    fbInWindow := fun x hx => (FrameStore.mem_copyFrom hx).elim inFb_of_inBuffer inFb_of_inBuffer
    pendingIffXfer := ⟨fun e => absurd e hpending, nofun⟩
    xferGated := nofun
    descActive := by simp
    xferBoard := nofun
    copyBoard := nofun
    semaphoreKept := hsemaphore.imp_right .inl }

/-- The end of a transfer starts the delay, with the semaphore still taken and the descriptors still in the active buffer,
whatever the phase and the board the pass goes on with (R137). -/
theorem Inv.transfer_ended {s : State} (h : Inv s) (hp : s.phase = .xfer) {b : BitVec 4} {p : Phase}
    (hb : b.toNat < s.cfg.boards) (hx : p ≠ .xfer) (hlast : p = .copy → b.toNat + 1 = s.cfg.boards) :
    Inv { s with xferPending := false, settling := true, settleCnt := BitVec.ofNat 32 s.cfg.settleCycles,
                 boardIdx := b, phase := p } :=
  have hready := (h.xferGated hp).1
  have hdesc := h.descActive (.inl hp)
  { h with
    readySettled := fun hr => absurd (hready.symm.trans hr) (by decide)
    pendingIffXfer := ⟨nofun, fun e => absurd e hx⟩
    xferGated := fun e => absurd e hx
    boardInRange := hb
    descActive := fun _ => hdesc
    xferBoard := fun e => absurd e hx
    copyBoard := hlast
    settleRunning := fun _ => settleCycles_running h.cfgLegal
    settleDone := nofun
    semaphoreKept := .inr (.inl rfl) }

theorem xferComplete_inv {s : State} (h : Inv s) (hp : s.phase = .xfer) : Inv (xferComplete s) := by
  rcases xferComplete_cases s with ⟨hlt, e⟩ | ⟨hle, e⟩ <;> rw [e]
  · exact h.transfer_ended hp (by rw [boardIdx_succ h.cfgLegal hlt]; exact hlt) (by decide) nofun
  · exact h.transfer_ended hp h.boardInRange (by decide) fun _ => Nat.le_antisymm h.boardInRange hle

/-- No transfer runs while the delay does (R147 item 3). -/
theorem Inv.not_xfer_of_settling {s : State} (h : Inv s) (hs : s.settling = true) : s.phase ≠ .xfer := fun hp =>
  absurd (hs.symm.trans (h.xferGated hp).2) (by decide)

theorem settleExpire_inv {s : State} (h : Inv s) (hp : s.phase ≠ .xfer) : Inv (settleExpire s) :=
  { h with
    readySettled := fun _ => rfl
    xferGated := fun hx => absurd hx hp
    settleRunning := nofun
    settleDone := fun _ => rfl
    semaphoreKept := .inl rfl }

/-- A clock cycle that does not end the delay (R32, R221). -/
theorem countDown_inv {s : State} (h : Inv s) (hs : s.settling = true) (hcnt : 1 < s.settleCnt.toNat) :
    Inv { s with settleCnt := s.settleCnt - 1 } := by
  have hsub : (s.settleCnt - 1).toNat = s.settleCnt.toNat - 1 := by
    rw [BitVec.toNat_sub_of_le (by rw [BitVec.le_def]; exact hcnt.le)]
    rfl
  have hmax := (h.settleRunning hs).2
  have hrange : 1 ≤ (s.settleCnt - 1).toNat ∧ (s.settleCnt - 1).toNat ≤ s.cfg.settleCycles := by omega
  exact { h with
    settleRunning := fun _ => hrange
    settleDone := fun e => absurd (hs.symm.trans e) (by decide) }

/-! ### Every step -/

theorem hostMove_inv {s t : State} (h : Inv s) (hm : hostMove s = .next t) : Inv t := by
  obtain ⟨hwf, hin⟩ := hostMove_fb_inv h.cfgLegal hm h.fbCanonical h.fbInWindow
  exact h.of_frame (by rw [(hostMove_frame hm).frame]) hwf hin

theorem agentMove_inv {s t : State} {m : Move} (h1 : m ≠ .resetAssert) (h2 : m ≠ .resetRelease) (h : Inv s)
    (hm : agentMove s m = .next t) : Inv t := by
  rcases agentMove_cases h1 h2 hm with rfl | ⟨rfl, _⟩ | ⟨_, e⟩ | ⟨_, hp, _, rfl⟩ | ⟨_, _, hr, rfl⟩ | ⟨_, hp, rfl⟩ |
    ⟨_, hp, rfl⟩ | ⟨_, _, rfl⟩ | ⟨_, hs, rfl⟩ | ⟨_, hs, hcnt, rfl⟩
  · exact h
  · exact hostMove_inv h hm
  · rw [e]; exact h.of_frame rfl h.fbCanonical h.fbInWindow
  · exact seqStart_inv h hp
  · exact seqAcquire_inv h hr
  · exact seqCopyFlip_inv h hp
  · exact xferComplete_inv h hp
  · exact h.of_frame rfl h.fbCanonical h.fbInWindow
  · exact settleExpire_inv h (h.not_xfer_of_settling hs)
  · exact countDown_inv h hs hcnt

/-- Settles O34: a step is a move of the schedule or of rst_n alone, a reset (`resetBlock_inv`), or an agent's move
(`agentMove_inv`). -/
theorem stepKeepsInv : Obligations.StepKeepsInv := by
  intro s t h hstep
  rcases step_kinds hstep with e | ⟨_, rest, rfl⟩ | ⟨m, rest, _, _, h1, h2, hm⟩
  · rw [e]; exact h.of_frame rfl h.fbCanonical h.fbInWindow
  · exact resetBlock_inv (h.of_sched rest).cfgLegal
  · exact agentMove_inv h1 h2 (h.of_sched rest) hm

end Sys2Proof.Machine
end

section
/-! PROOF. The output pass move by move: SHOW, the steps of the sequencer, the completion, the settle timer; and the table of the
phases. -/

namespace Sys2Proof.Machine

/-! ### SHOW -/

/-- Settles O6: the row of SHOW (`decode_show_iff`), and the two cases of the request slot. -/
theorem showMeaning : Obligations.ShowMeaning := by
  refine ⟨decode_show_iff, fun s => ⟨fun hempty => ⟨_, ?_, rfl, by simp [State.busy]⟩, fun hfull => ?_⟩⟩
  · exact if_neg (by simp [hempty])
  · exact if_pos hfull

/-! ### The sequencer -/

theorem step_sequencer {s : State} {rest : List Move} (h : Turn s .sequencer rest) :
    step s = .next ((sequencerStep { s with sched := rest }).getD { s with sched := rest }) :=
  step_turn h

/-- START (R131). -/
theorem step_start {s : State} {rest : List Move} (h : Turn s .sequencer rest) (hp : s.phase = .idle) (hreq : s.req = true) :
    step s = .next (seqStart { s with sched := rest }) := by
  simp [step_sequencer h, sequencerStep, hp, hreq]

/-- ACQUIRE (R133). -/
theorem step_acquire {s : State} {rest : List Move} (h : Turn s .sequencer rest) (hp : s.phase = .waitReady)
    (hready : s.ready = true) : step s = .next (seqAcquire { s with sched := rest }) := by
  simp [step_sequencer h, sequencerStep, hp, hready]

/-- COPY_FLIP (R140). -/
theorem step_copyFlip {s : State} {rest : List Move} (h : Turn s .sequencer rest) (hp : s.phase = .copy) :
    step s = .next (seqCopyFlip { s with sched := rest }) := by
  simp [step_sequencer h, sequencerStep, hp]

/-- In IDLE without a request the sequencer has no step (R131, R150). -/
theorem step_sequencer_idle {s : State} {rest : List Move} (h : Turn s .sequencer rest) (hp : s.phase = .idle)
    (hreq : s.req = false) : step s = .next { s with sched := rest } := by
  simp [step_sequencer h, sequencerStep, hp, hreq]

/-- The hold of WAIT_READY (R132). -/
theorem step_sequencer_waits {s : State} {rest : List Move} (h : Turn s .sequencer rest) (hp : s.phase = .waitReady)
    (hready : s.ready = false) : step s = .next { s with sched := rest } := by
  simp [step_sequencer h, sequencerStep, hp, hready]

/-- Settles O15: START where it is enabled, and no step where it is not. -/
theorem sequencerStart : Obligations.SequencerStart := fun _ _ h hp =>
  ⟨step_start h hp, step_sequencer_idle h hp⟩

/-- Settles O17: the record of `seqAcquire` is the event and the stream of the board. -/
theorem sequencerAcquire : Obligations.SequencerAcquire := fun _ _ h hp hready => step_acquire h hp hready

/-- Settles O20: the planes by `seqCopyFlip_plane`, which speaks of both buffers, and the bytes of the copied buffer. -/
theorem copyFlipCopiesAndFlips : Obligations.CopyFlipCopiesAndFlips := by
  intro s rest h hp
  refine ⟨_, step_copyFlip h hp, rfl, otherBuffer_ne s.active, fun b j k hb hj hk => ?_, fun a ha => ?_⟩
  · exact ⟨seqCopyFlip_plane { s with sched := rest } _ hb hj hk, seqCopyFlip_plane { s with sched := rest } _ hb hj hk⟩
  · exact FrameStore.copyFrom_readByte_own s.cfg s.fb ha

/-- Settles O23: COPY_FLIP keeps the request and goes to IDLE, where START is enabled by it. -/
theorem queuedPassStartsAtOnce : Obligations.QueuedPassStartsAtOnce := by
  intro s rest h hp hreq
  have hturn : Turn (seqCopyFlip { s with sched := .sequencer :: rest }) .sequencer rest := ⟨h.legal, h.released, rfl⟩
  refine ⟨by simp [State.busy, hreq], _, _, step_copyFlip h hp, ?_, step_start hturn rfl hreq, ?_, rfl, rfl, rfl, rfl, rfl⟩
  · simp [State.busy, hreq]
  · simp [State.busy]

/-! ### The completion of a transfer -/

@[simp] theorem xferComplete_hostQ (s : State) : (xferComplete s).hostQ = s.hostQ := by
  rcases xferComplete_cases s with ⟨_, e⟩ | ⟨_, e⟩ <;> rw [e]

@[simp] theorem xferComplete_cfg (s : State) : (xferComplete s).cfg = s.cfg := by
  rcases xferComplete_cases s with ⟨_, e⟩ | ⟨_, e⟩ <;> rw [e]

@[simp] theorem xferComplete_sched (s : State) : (xferComplete s).sched = s.sched := by
  rcases xferComplete_cases s with ⟨_, e⟩ | ⟨_, e⟩ <;> rw [e]

/-- COMPLETE (R137). -/
theorem step_complete {s : State} {rest : List Move} (h : Turn s .dmaDone rest) (hp : s.phase = .xfer) :
    step s = .next (xferComplete { s with sched := rest }) := by
  simp [step_turn h, agentMove, dmaDone, hp]

/-- Settles O18: the two cases of `xferComplete_cases`; at most 16 boards, so the index does not wrap (`boardIdx_succ`). -/
theorem transferCompletes : Obligations.TransferCompletes := by
  intro s rest h hp
  rw [step_complete h hp]
  rcases xferComplete_cases { s with sched := rest } with ⟨hlt, e⟩ | ⟨hle, e⟩ <;> rw [e]
  · exact ⟨fun _ => ⟨_, rfl, boardIdx_succ h.legal hlt, rfl⟩, fun hle => absurd hlt (Nat.not_lt.mpr hle)⟩
  · exact ⟨fun hlt => absurd hlt (Nat.not_lt.mpr hle), fun _ => rfl⟩

/-- Settles O19: a completion outside XFER raises ERR_DONE. -/
theorem spuriousDoneSetsErrDone : Obligations.SpuriousDoneSetsErrDone := by
  intro s rest h hp
  rw [step_turn h]
  exact congrArg Host.Outcome.next (if_neg hp)

/-! ### The settle timer and the clock -/

/-- SETTLE_EXPIRE (R145). -/
theorem step_settleTimer {s : State} {rest : List Move} (h : Turn s .settleTimer rest) (hs : s.settling = true) :
    step s = .next (settleExpire { s with sched := rest }) := by
  simp [step_turn h, agentMove, settleTimerStep, hs]

theorem step_settleTimer_off {s : State} {rest : List Move} (h : Turn s .settleTimer rest) (hs : s.settling = false) :
    step s = .next { s with sched := rest } := by
  simp [step_turn h, agentMove, settleTimerStep, hs]

theorem step_clock_off {s : State} {rest : List Move} (h : Turn s .clock rest) (hs : s.settling = false) :
    step s = .next { s with sched := rest } := by
  simp [step_turn h, agentMove, clockCycle, hs]

/-- Settles O21: SETTLE_EXPIRE where it is enabled, and no step where it is not. -/
theorem settleExpires : Obligations.SettleExpires := fun _ _ h => ⟨step_settleTimer h, step_settleTimer_off h⟩

/-- Settles O24: in a quiescent state none of the three agents has a step. -/
theorem quiescentIsStill : Obligations.QuiescentIsStill := by
  intro s m rest hq h hm
  obtain ⟨⟨hp, hreq⟩, hs⟩ := (quiescent_iff s).mp hq
  rcases hm with rfl | rfl | rfl
  · exact step_sequencer_idle h hp hreq
  · exact step_settleTimer_off h hs
  · exact step_clock_off h hs

/-! ### The phases -/

/-- Every change of the phase by an agent's move, with its condition (the rows of R149 but reset's). -/
theorem agentMove_phase {s t : State} {m : Move} (h1 : m ≠ .resetAssert) (h2 : m ≠ .resetRelease)
    (h : agentMove s m = .next t) :
    t.phase = s.phase ∨
    (s.phase = .idle ∧ t.phase = .waitReady ∧ s.req = true ∧ m = .sequencer) ∨
    (s.phase = .waitReady ∧ t.phase = .xfer ∧ s.ready = true ∧ m = .sequencer) ∨
    (s.phase = .xfer ∧ t.phase = .waitReady ∧ s.boardIdx.toNat + 1 < s.cfg.boards ∧ m = .dmaDone) ∨
    (s.phase = .xfer ∧ t.phase = .copy ∧ s.cfg.boards ≤ s.boardIdx.toNat + 1 ∧ m = .dmaDone) ∨
    (s.phase = .copy ∧ t.phase = .idle ∧ m = .sequencer) := by
  rcases agentMove_cases h1 h2 h with rfl | ⟨_, hf⟩ | ⟨_, e⟩ | ⟨hm, hp, hreq, rfl⟩ | ⟨hm, hp, hready, rfl⟩ | ⟨hm, hp, rfl⟩ |
    ⟨hm, hp, rfl⟩ | ⟨_, _, rfl⟩ | ⟨_, _, rfl⟩ | ⟨_, _, _, rfl⟩
  · exact .inl rfl
  · exact .inl (by rw [hf.frame])
  · exact .inl (by rw [e])
  · exact .inr (.inl ⟨hp, rfl, hreq, hm⟩)
  · exact .inr (.inr (.inl ⟨hp, rfl, hready, hm⟩))
  · exact .inr (.inr (.inr (.inr (.inr ⟨hp, rfl, hm⟩))))
  · rcases xferComplete_cases s with ⟨hlt, e⟩ | ⟨hle, e⟩ <;> rw [e]
    · exact .inr (.inr (.inr (.inl ⟨hp, rfl, hlt, hm⟩)))
    · exact .inr (.inr (.inr (.inr (.inl ⟨hp, rfl, hle, hm⟩))))
  · exact .inl rfl
  · exact .inl rfl
  · exact .inl rfl

/-- Settles O25: reset goes to IDLE, and an agent's move takes a row of `agentMove_phase`. -/
theorem phaseTable : Obligations.PhaseTable := by
  intro s t h hne
  rcases step_kinds h with e | ⟨hr, rest, rfl⟩ | ⟨m, rest, _, hm, h1, h2, ha⟩
  · exact absurd (by rw [e]) hne
  · exact .inr (.inr (.inr (.inr (.inr ⟨rfl, hr⟩))))
  rw [hm]
  simp only [Option.some.injEq]
  rcases agentMove_phase h1 h2 ha with e | row | row | row | row | row
  · exact absurd e hne
  · exact .inl row
  · exact .inr (.inl row)
  · exact .inr (.inr (.inl row))
  · exact .inr (.inr (.inr (.inl row)))
  · exact .inr (.inr (.inr (.inr (.inl row))))

/-- A step to XFER from another phase is ACQUIRE, which finds the semaphore released (R149). -/
theorem ready_of_step_to_xfer {s t : State} (h : step s = .next t) (hp : s.phase ≠ .xfer) (ht : t.phase = .xfer) :
    s.ready = true := by
  rcases phaseTable s t h (fun e => hp (e.symm.trans ht)) with ⟨_, e, _⟩ | ⟨_, _, hready, _⟩ | ⟨e, _⟩ | ⟨e, _⟩ | ⟨_, e, _⟩ |
    ⟨e, _⟩
  · exact absurd (e.symm.trans ht) (by decide)
  · exact hready
  · exact absurd e hp
  · exact absurd e hp
  · exact absurd (e.symm.trans ht) (by decide)
  · exact absurd (e.symm.trans ht) (by decide)

/-- Settles O16: XFER is reached with the semaphore alone (`ready_of_step_to_xfer`), and the semaphore is released by the settle
timer alone (O27). -/
theorem sequencerWaitsForReady : Obligations.SequencerWaitsForReady := by
  intro s m rest h hp hready
  refine ⟨fun e => step_sequencer_waits (e ▸ h) hp hready, fun t ht => ⟨fun hx => ?_, fun hr => ?_⟩⟩
  · have := ready_of_step_to_xfer ht (by simp [hp]) hx
    exact absurd (hready.symm.trans this) (by decide)
  · rcases readyOnlyByTimerAndAcquire s t ht (by simp [hr, hready]) with ⟨_, hs, hm⟩ | ⟨e, _⟩
    · rw [h.next] at hm
      exact ⟨by simpa using hm, hs⟩
    · exact absurd (e.symm.trans hr) (by decide)

end Sys2Proof.Machine
end

section
/-! PROOF. The descriptor chain, and what an engine that follows it delivers. -/

namespace Sys2Proof.Machine

/-- A fragment is 32 bytes (R64). -/
theorem fbAddr_succ_slot (c : Config) (u : Buffer) (b i : Nat) : fbAddr c u b (i + 1) 0 = fbAddr c u b i 0 + 32 := by
  unfold fbAddr
  omega

/-- A fragment is 32-aligned (R64). -/
theorem fbAddr_slot_aligned {c : Config} (hl : c.legal = true) (u : Buffer) (b i : Nat) : fbAddr c u b i 0 % 32 = 0 := by
  have := (Config.facts hl).fb_aligned
  unfold fbAddr
  omega

/-- Settles O32: descriptor i is the number `fbAddr` gives slot i (`descWord_toNat`). -/
theorem descriptorChain : Obligations.DescriptorChain := by
  intro s hl hb
  refine ⟨descWord_end s, fun i hi => ?_⟩
  have haddr := descWord_toNat hl hb hi
  refine ⟨haddr, ?_, descWord_ne_zero hl hb hi, ?_, fun hnext => ?_⟩
  · rw [haddr]; exact fbAddr_slot_aligned hl _ _ _
  · rw [haddr]; exact (fbAddr_facts hl hb hi (by decide)).2.1
  · rw [haddr, descWord_toNat hl hb hnext, fbAddr_succ_slot]

/-- The walk from descriptor i on, with n slots left, delivers the words of those slots (R55, R135, R139). -/
theorem engineWalk_from {s : State} (hl : s.cfg.legal = true) (hb : s.descBoard.toNat < s.cfg.boards)
    (hp : s.phase ≠ .copy) {n i fuel : Nat} (hi : i + n = s.cfg.slots) (hfuel : n < fuel) :
    engineWalk s fuel (s.cfg.descBase + 4 * i) = some ((List.range' i n).flatMap fun j =>
      (List.range 8).map fun k => s.fb.plane s.cfg s.descBuf s.descBoard.toNat j k) := by
  induction n generalizing i fuel with
  | zero =>
    obtain ⟨fuel, rfl⟩ := Nat.exists_eq_add_of_lt hfuel
    obtain rfl : i = s.cfg.slots := hi
    simp [engineWalk, engineWord_desc hl hp le_rfl, descWord_end]
  | succ n ih =>
    obtain ⟨fuel, rfl⟩ : ∃ k, fuel = k + 1 := ⟨fuel - 1, by omega⟩
    have hslot : i < s.cfg.slots := by omega
    have hfragment := engineBlock_fragment hl hp s.descBuf hb hslot 8 0 le_rfl
    rw [← descWord_toNat hl hb hslot, ← List.range_eq_range'] at hfragment
    have hrest := ih (i := i + 1) (fuel := fuel) (by omega) (by omega)
    rw [show s.cfg.descBase + 4 * (i + 1) = s.cfg.descBase + 4 * i + 4 by omega] at hrest
    simp only [engineWalk, engineWord_desc hl hp hslot.le, if_neg (descWord_ne_zero hl hb hslot), hfragment, hrest,
      List.range'_succ, List.flatMap_cons]

/-- Settles O33: the walk from the first descriptor delivers every slot, which is the stream. -/
theorem engineDeliversTheStream : Obligations.EngineDeliversTheStream := by
  intro s fuel h hp hfuel
  rw [FrameStore.stream, List.range_eq_range' (n := s.cfg.slots)]
  exact engineWalk_from h.cfgLegal h.descBoardInRange hp (i := 0) (Nat.zero_add _) hfuel

end Sys2Proof.Machine
end

section
/-! PROOF. The undisturbed pass, board by board: what the state is after k boards, the run of one board's moves, and the run of the
whole pass. -/

namespace Sys2Proof.Machine

/-! ### One board -/

/-- Outside XFER the settle timer's move leaves the semaphore released: the delay ends, or it has ended before. -/
theorem step_settleTimer_releases {t : State} {rest : List Move} (h : Inv t) (hp : t.phase ≠ .xfer)
    (turn : Turn t .settleTimer rest) : step t = .next (settleExpire { t with sched := rest }) := by
  cases hs : t.settling
  · have hready : t.ready = true := (h.outside_xfer hp).2.resolve_right (by simp [hs])
    simp [step_settleTimer_off turn hs, settleExpire, hready, hs, h.settleDone hs]
  · exact step_settleTimer turn hs

/-- The moves of one board: the semaphore is released, ACQUIRE takes it, COMPLETE ends the transfer. -/
theorem run_board {t : State} {rest : List Move} (h : Inv t) (hr : t.rstN = true) (hp : t.phase = .waitReady)
    (hq : t.sched = boardMoves ++ rest) :
    Host.Core.run core 3 t = .next (xferComplete (seqAcquire (settleExpire { t with sched := rest }))) := by
  have turn1 : Turn t .settleTimer (.sequencer :: .dmaDone :: rest) := ⟨h.cfgLegal, hr, hq⟩
  have turn2 : Turn (settleExpire { t with sched := .sequencer :: .dmaDone :: rest }) .sequencer (.dmaDone :: rest) :=
    ⟨h.cfgLegal, hr, rfl⟩
  have turn3 : Turn (seqAcquire (settleExpire { t with sched := .dmaDone :: rest })) .dmaDone rest := ⟨h.cfgLegal, hr, rfl⟩
  rw [run_succ 2 (step_settleTimer_releases h (by simp [hp]) turn1), run_succ 1 (step_acquire turn2 hp rfl)]
  exact run_succ 0 (step_complete turn3 rfl)

/-- The items the moves of a pass leave until its COPY_FLIP. -/
structure PassKeeps (s t : State) : Prop where
  cfg : t.cfg = s.cfg
  fb : t.fb = s.fb
  active : t.active = s.active
  data : t.data = s.data
  irqEn : t.irqEn = s.irqEn
  sticky : t.sticky = s.sticky
  rstN : t.rstN = s.rstN
  hostQ : t.hostQ = s.hostQ

/-- Boards 0 to k - 1 of the pass that s asks for are sent: the pass waits for the semaphore of board k, or has come to COPY. -/
structure BoardsSent (s : State) (k : Nat) (t : State) : Prop extends PassKeeps s t where
  inv : Inv t
  req : t.req = false
  transfers : t.transfers = passTransfers s k ++ s.transfers
  waits : k < s.cfg.boards → t.phase = .waitReady ∧ t.boardIdx.toNat = k
  ends : k = s.cfg.boards → t.phase = .copy

/-- START sends no board (R131). -/
theorem boardsSent_seqStart {s : State} (h : Inv s) (hp : s.phase = .idle) (rest : List Move) :
    BoardsSent s 0 (seqStart { s with sched := rest }) where
  toPassKeeps := ⟨rfl, rfl, rfl, rfl, rfl, rfl, rfl, rfl⟩
  inv := seqStart_inv (h.of_sched rest) hp
  req := rfl
  transfers := rfl
  waits := fun _ => ⟨rfl, rfl⟩
  ends := fun e => absurd (Config.facts h.cfgLegal).boards_pos (by omega)

/-- What ACQUIRE records of board k (R133, R139). -/
theorem BoardsSent.acquireTransfer_eq {s t : State} {k : Nat} (h : BoardsSent s k t) (hk : k < s.cfg.boards) :
    acquireTransfer (settleExpire t) =
      { list := s.dmaList, sel := BitVec.ofNat 4 k, stream := s.fb.stream s.cfg s.active k } := by
  have hboard := (h.waits hk).2
  have hsel : t.boardIdx = BitVec.ofNat 4 k := by rw [← hboard, BitVec.ofNat_toNat, BitVec.setWidth_eq]
  simp only [acquireTransfer, settleExpire_boardIdx, settleExpire_cfg, settleExpire_fb, settleExpire_active]
  rw [hboard, hsel, h.cfg, h.fb, h.active]
  rfl

/-- The moves of board k send it. -/
theorem BoardsSent.succ {s t : State} {k : Nat} (h : BoardsSent s k t) (hk : k < s.cfg.boards) :
    BoardsSent s (k + 1) (xferComplete (seqAcquire (settleExpire t))) := by
  obtain ⟨hp, hboard⟩ := h.waits hk
  have hinv : Inv (xferComplete (seqAcquire (settleExpire t))) :=
    xferComplete_inv (seqAcquire_inv (settleExpire_inv h.inv (by simp [hp])) rfl) rfl
  have htransfers : (seqAcquire (settleExpire t)).transfers = passTransfers s (k + 1) ++ s.transfers := by
    rw [seqAcquire_transfers, h.acquireTransfer_eq hk, settleExpire_transfers, h.transfers]
    rfl
  have hcfg := h.cfg
  rcases xferComplete_cases (seqAcquire (settleExpire t)) with ⟨hlt, e⟩ | ⟨hle, e⟩ <;> rw [e] at hinv ⊢
  · have hnext := boardIdx_succ (s := seqAcquire (settleExpire t)) h.inv.cfgLegal hlt
    simp only [seqAcquire_boardIdx, settleExpire_boardIdx, seqAcquire_cfg, settleExpire_cfg, hboard, hcfg] at hlt hnext
    exact { h.toPassKeeps with
      inv := hinv, req := h.req, transfers := htransfers, waits := fun _ => ⟨rfl, hnext⟩,
      ends := fun e => absurd e hlt.ne }
  · simp only [seqAcquire_boardIdx, settleExpire_boardIdx, seqAcquire_cfg, settleExpire_cfg, hboard, hcfg] at hle
    exact { h.toPassKeeps with
      inv := hinv, req := h.req, transfers := htransfers, waits := fun hlt => absurd hle (Nat.not_le.mpr hlt),
      ends := fun _ => rfl }

/-- The schedule plays no part in what is sent. -/
theorem BoardsSent.of_sched {s t : State} {k : Nat} (h : BoardsSent s k t) (rest : List Move) :
    BoardsSent s k { t with sched := rest } :=
  { h with inv := h.inv.of_sched rest }

/-! ### The whole pass -/

/-- The run of the boards that are left. -/
theorem run_boards {s t : State} {n k : Nat} {rest : List Move} (hk : k + n = s.cfg.boards) (h : BoardsSent s k t)
    (hr : s.rstN = true) (hq : t.sched = (List.replicate n boardMoves).flatten ++ rest) :
    ∃ u, Host.Core.run core (3 * n) t = .next u ∧ BoardsSent s s.cfg.boards u ∧ u.sched = rest := by
  induction n generalizing k t with
  | zero =>
    obtain rfl : k = s.cfg.boards := hk
    exact ⟨t, rfl, h, hq⟩
  | succ n ih =>
    have hlt : k < s.cfg.boards := by omega
    rw [List.replicate_succ, List.flatten_cons, List.append_assoc] at hq
    obtain ⟨u, hu, hsent⟩ := ih (by omega) ((h.of_sched _).succ hlt) (xferComplete_sched _)
    refine ⟨u, ?_, hsent⟩
    rw [Nat.mul_succ, Nat.add_comm, run_add 3 _ (run_board h.inv (h.rstN.trans hr) (h.waits hlt).1 hq)]
    exact hu

/-- The run of the pass: COPY_FLIP on a state in which every board is sent. -/
theorem run_pass {s : State} {rest : List Move} (h : Inv s) (hr : s.rstN = true) (hp : s.phase = .idle) (hreq : s.req = true)
    (hq : s.sched = passMoves s.cfg.boards ++ rest) :
    ∃ u, BoardsSent s s.cfg.boards u ∧ u.sched = rest ∧
      Host.Core.run core (3 * s.cfg.boards + 2) s = .next (seqCopyFlip u) := by
  rw [passMoves, List.cons_append, List.cons_append, List.append_assoc, List.singleton_append] at hq
  have hstart := step_start ⟨h.cfgLegal, hr, hq⟩ hp hreq
  obtain ⟨u, hu, hsent, hsched⟩ := run_boards (Nat.zero_add _) (boardsSent_seqStart h hp _) hr rfl
  have hflip := step_copyFlip (rest := rest) ⟨hsent.inv.cfgLegal, hsent.rstN.trans hr, hsched⟩ (hsent.ends rfl)
  refine ⟨_, hsent.of_sched rest, rfl, ?_⟩
  rw [run_succ _ hstart, run_add _ 1 hu]
  exact run_succ 0 hflip

/-- Settles O31: the run ends in the COPY_FLIP of a state in which every board is sent (`run_pass`), which gives both buffers the
frame sent (`seqCopyFlip_plane`). -/
theorem passSendsEveryBoardInOrder : Obligations.PassSendsEveryBoardInOrder := by
  intro s rest h hr hp hreq hq
  obtain ⟨u, sent, hsched, hrun⟩ := run_pass h hr hp hreq hq
  have hplane (v : Buffer) : SameFrame s.cfg (seqCopyFlip u).fb s.fb v s.active := by
    intro b j k hb hj hk
    rw [← sent.cfg] at hb hj ⊢
    rw [seqCopyFlip_plane u v hb hj hk, sent.fb, sent.active]
  exact ⟨_, hrun, sent.transfers, rfl, sent.req, congrArg otherBuffer sent.active, congrArg (·.set .passDone) sent.sticky,
    hsched, sent.data, sent.irqEn, hplane _, hplane _⟩

theorem runEnded_iff (s : State) :
    runEnded s = true ↔ s.hostQ = [] ∧ s.phase = .idle ∧ s.req = false ∧ s.settling = false := by
  simp [runEnded, quiescent_iff, and_assoc]

/-- Settles O60: after the pass (`run_pass`) the settle timer's move releases the semaphore. -/
theorem passEndsTheRun : Obligations.PassEndsTheRun := by
  intro s rest h hr hp hreq hhost hq
  obtain ⟨u, sent, hsched, hrun⟩ := run_pass h hr hp hreq hq
  have hinv : Inv (seqCopyFlip u) := seqCopyFlip_inv sent.inv (sent.ends rfl)
  have turn : Turn (seqCopyFlip u) .settleTimer rest := ⟨hinv.cfgLegal, sent.rstN.trans hr, hsched⟩
  have hexpire := step_settleTimer_releases hinv (by simp) turn
  exact ⟨_, (run_add _ 1 hrun).trans (run_succ 0 hexpire),
    (runEnded_iff _).mpr ⟨sent.hostQ.trans hhost, rfl, sent.req, rfl⟩, rfl, rfl⟩

end Sys2Proof.Machine
end

section
/-! PROOF. Runs without a reset: what they do to the schedule and the host's queue, the frame that copy-forward keeps, and the end
of a run. -/

namespace Sys2Proof.Machine

/-! ### The configuration, the schedule and the host's queue -/

/-- What t has still to do is left of what s has: the configuration is the same, and the schedule and the host's queue have lost at
most their heads. -/
structure Advances (s t : State) : Prop where
  cfg : t.cfg = s.cfg
  sched : t.sched ⊆ s.sched
  hostQ : t.hostQ ⊆ s.hostQ

theorem Advances.of_eq {s t : State} (cfg : t.cfg = s.cfg) (sched : t.sched = s.sched) (hostQ : t.hostQ = s.hostQ) :
    Advances s t := ⟨cfg, sched ▸ List.Subset.refl _, hostQ ▸ List.Subset.refl _⟩

theorem hostMove_advances {s t : State} (h : hostMove s = .next t) : Advances s t := by
  have e := (hostMove_frame h).frame
  refine ⟨by rw [e], by rw [e]; exact List.Subset.refl _, ?_⟩
  rcases hostMove_hostQ h with hq | hq <;> rw [hq]
  · exact List.Subset.refl _
  · exact List.tail_subset _

theorem agentMove_advances {s t : State} {m : Move} (h1 : m ≠ .resetAssert) (h2 : m ≠ .resetRelease)
    (h : agentMove s m = .next t) : Advances s t := by
  rcases agentMove_cases h1 h2 h with rfl | ⟨rfl, _⟩ | ⟨_, e⟩ | ⟨_, _, _, rfl⟩ | ⟨_, _, _, rfl⟩ | ⟨_, _, rfl⟩ |
    ⟨_, _, rfl⟩ | ⟨_, _, rfl⟩ | ⟨_, _, rfl⟩ | ⟨_, _, _, rfl⟩
  · exact .of_eq rfl rfl rfl
  · exact hostMove_advances h
  · rw [e]; exact .of_eq rfl rfl rfl
  · exact .of_eq rfl rfl rfl
  · exact .of_eq rfl rfl rfl
  · exact .of_eq rfl rfl rfl
  · exact .of_eq (xferComplete_cfg s) (xferComplete_sched s) (xferComplete_hostQ s)
  · exact .of_eq rfl rfl rfl
  · exact .of_eq rfl rfl rfl
  · exact .of_eq rfl rfl rfl

/-- Every step keeps the configuration and advances the queues. -/
theorem step_advances {s t : State} (h : step s = .next t) : Advances s t := by
  have popped {m : Move} {rest : List Move} (hs : s.sched = m :: rest) : rest ⊆ s.sched := hs ▸ List.subset_cons_self m rest
  rcases step_cases h with ⟨_, ⟨_, rfl⟩ | ⟨rest, hs, rfl⟩ | ⟨rest, hs, rfl⟩ | ⟨m, rest, hs, _, _, _, rfl⟩ |
    ⟨m, rest, turn, h1, h2, ha⟩⟩
  · exact .of_eq rfl rfl rfl
  · exact ⟨rfl, popped hs, List.Subset.refl _⟩
  · exact ⟨rfl, popped hs, List.Subset.refl _⟩
  · exact ⟨rfl, popped hs, List.Subset.refl _⟩
  · obtain ⟨hcfg, hsched, hhost⟩ := agentMove_advances h1 h2 ha
    exact ⟨hcfg, List.Subset.trans hsched (popped turn.next), hhost⟩

/-- Without a reset scheduled, a step is a move of the schedule or of rst_n alone, or an agent's. -/
theorem step_kinds_of_no_reset {s t : State} (hn : ∀ m ∈ s.sched, m ≠ .resetAssert) (h : step s = .next t) :
    (t = { s with sched := t.sched, rstN := t.rstN }) ∨
    ∃ m rest, Turn s m rest ∧ s.sched.head? = some m ∧ m ≠ .resetAssert ∧ m ≠ .resetRelease ∧
      agentMove { s with sched := rest } m = .next t := by
  rcases step_kinds h with e | ⟨hr, _⟩ | hm
  · exact .inl e
  · exact absurd rfl (hn _ (List.mem_of_mem_head? hr))
  · exact .inr hm

/-! ### The frame that is kept (R142) -/

/-- From s to t the frame of the active buffer is kept; and, from a board in range, the board stays in range and every transfer
started has a board in range and sends the stream that the buffer active in s has of it. -/
structure CopiesForward (s t : State) : Prop where
  cfg : t.cfg = s.cfg
  frame : SameFrame s.cfg t.fb s.fb t.active s.active
  board : s.boardIdx.toNat < s.cfg.boards → t.boardIdx.toNat < s.cfg.boards
  sends : s.boardIdx.toNat < s.cfg.boards → ∃ new, t.transfers = new ++ s.transfers ∧
    ∀ x ∈ new, x.sel.toNat < s.cfg.boards ∧ x.stream = s.fb.stream s.cfg s.active x.sel.toNat

/-- A step that starts no transfer. -/
theorem CopiesForward.of_no_transfer {s t : State} (cfg : t.cfg = s.cfg)
    (frame : SameFrame s.cfg t.fb s.fb t.active s.active)
    (board : s.boardIdx.toNat < s.cfg.boards → t.boardIdx.toNat < s.cfg.boards) (transfers : t.transfers = s.transfers) :
    CopiesForward s t := ⟨cfg, frame, board, fun _ => ⟨[], transfers, by simp⟩⟩

theorem CopiesForward.refl (s : State) : CopiesForward s s := .of_no_transfer rfl (fun _ _ _ _ _ _ => rfl) id rfl

/-- Equal frames have equal streams of a board in range (R139). -/
theorem SameFrame.stream_eq {c : Config} {f g : FrameStore} {u v : Buffer} (h : SameFrame c f g u v) {b : Nat}
    (hb : b < c.boards) : f.stream c u b = g.stream c v b :=
  FrameStore.stream_congr fun j k hj hk => h b j k hb hj hk

theorem CopiesForward.trans {s t u : State} (hst : CopiesForward s t) (htu : CopiesForward t u) : CopiesForward s u := by
  have frame := htu.frame
  have board := htu.board
  have sends := htu.sends
  rw [hst.cfg] at frame board sends
  refine ⟨htu.cfg.trans hst.cfg, fun b j k hb hj hk => (frame b j k hb hj hk).trans (hst.frame b j k hb hj hk),
    fun hs => board (hst.board hs), fun hs => ?_⟩
  obtain ⟨first, efirst, hfirst⟩ := hst.sends hs
  obtain ⟨later, elater, hlater⟩ := sends (hst.board hs)
  refine ⟨later ++ first, by rw [elater, efirst, List.append_assoc], fun x hx => ?_⟩
  rcases List.mem_append.mp hx with hx | hx
  · obtain ⟨hboard, hstream⟩ := hlater x hx
    exact ⟨hboard, hstream.trans (hst.frame.stream_eq hboard)⟩
  · exact hfirst x hx

/-- ACQUIRE starts the one transfer, of its board from the active buffer (R133, R139). -/
theorem seqAcquire_copiesForward (s : State) : CopiesForward s (seqAcquire s) :=
  ⟨rfl, fun _ _ _ _ _ _ => rfl, id, fun hs => ⟨[acquireTransfer s], rfl, by simpa [acquireTransfer] using hs⟩⟩

theorem xferComplete_copiesForward {s : State} (hl : s.cfg.legal = true) : CopiesForward s (xferComplete s) := by
  rcases xferComplete_cases s with ⟨hlt, e⟩ | ⟨_, e⟩ <;> rw [e]
  · exact .of_no_transfer rfl (fun _ _ _ _ _ _ => rfl) (fun _ => (boardIdx_succ hl hlt).trans_lt hlt) rfl
  · exact .of_no_transfer rfl (fun _ _ _ _ _ _ => rfl) id rfl

/-- A host port whose accesses edit nothing. -/
theorem hostMove_copiesForward {s t : State} (hl : s.cfg.legal = true) (hn : ∀ a ∈ s.hostQ, ¬ Edits s.cfg a)
    (h : hostMove s = .next t) : CopiesForward s t := by
  have hfb := hostMove_fb_of_not_edits hl h hn
  have e := (hostMove_frame h).frame
  rw [e, hfb]
  exact .of_no_transfer rfl (fun _ _ _ _ _ _ => rfl) id rfl

theorem agentMove_copiesForward {s t : State} {m : Move} (h1 : m ≠ .resetAssert) (h2 : m ≠ .resetRelease)
    (hl : s.cfg.legal = true) (hn : ∀ a ∈ s.hostQ, ¬ Edits s.cfg a) (h : agentMove s m = .next t) : CopiesForward s t := by
  rcases agentMove_cases h1 h2 h with rfl | ⟨rfl, _⟩ | ⟨_, e⟩ | ⟨_, _, _, rfl⟩ | ⟨_, _, _, rfl⟩ | ⟨_, _, rfl⟩ |
    ⟨_, _, rfl⟩ | ⟨_, _, rfl⟩ | ⟨_, _, rfl⟩ | ⟨_, _, _, rfl⟩
  · exact .refl t
  · exact hostMove_copiesForward hl hn h
  · rw [e]; exact .of_no_transfer rfl (fun _ _ _ _ _ _ => rfl) id rfl
  · exact .of_no_transfer rfl (fun _ _ _ _ _ _ => rfl) (Nat.zero_lt_of_lt ·) rfl
  · exact seqAcquire_copiesForward s
  · exact .of_no_transfer rfl (fun _ _ _ hb hj hk => seqCopyFlip_plane s _ hb hj hk) id rfl
  · exact xferComplete_copiesForward hl
  · exact .of_no_transfer rfl (fun _ _ _ _ _ _ => rfl) id rfl
  · exact .of_no_transfer rfl (fun _ _ _ _ _ _ => rfl) id rfl
  · exact .of_no_transfer rfl (fun _ _ _ _ _ _ => rfl) id rfl

/-- No reset is scheduled, and the host's accesses edit nothing. -/
structure NoEditAhead (s : State) : Prop where
  legal : s.cfg.legal = true
  noReset : ∀ m ∈ s.sched, m ≠ .resetAssert
  noEdit : ∀ a ∈ s.hostQ, ¬ Edits s.cfg a

theorem NoEditAhead.advances {s t : State} (h : NoEditAhead s) (ht : Advances s t) : NoEditAhead t where
  legal := ht.cfg ▸ h.legal
  noReset := fun m hm => h.noReset m (ht.sched hm)
  noEdit := fun a ha => ht.cfg ▸ h.noEdit a (ht.hostQ ha)

theorem NoEditAhead.step_copiesForward {s t : State} (h : NoEditAhead s) (hstep : step s = .next t) : CopiesForward s t := by
  rcases step_kinds_of_no_reset h.noReset hstep with e | ⟨m, rest, _, _, h1, h2, ha⟩
  · rw [e]; exact .of_no_transfer rfl (fun _ _ _ _ _ _ => rfl) id rfl
  · have hmove := agentMove_copiesForward (s := { s with sched := rest }) h1 h2 h.legal h.noEdit ha
    exact { hmove with }

/-- Settles O30: by induction on the run (`run_induction`), each step copies forward. -/
theorem copyForwardKeepsTheFrame : Obligations.CopyForwardKeepsTheFrame := by
  intro n s t hl hn he hrun
  have h := run_induction CopiesForward.refl (fun _ _ _ => .trans)
    (fun s t hs hstep => ⟨NoEditAhead.advances hs (step_advances hstep), hs.step_copiesForward hstep⟩) ⟨hl, hn, he⟩ hrun
  exact ⟨h.cfg, h.frame, h.sends⟩

/-! ### The end of a run (R150) -/

/-- What the run from an ended state can change, and what makes it change a flag. -/
structure StaysEnded (s t : State) : Prop where
  frame : t = { s with sched := t.sched, rstN := t.rstN, engQ := t.engQ, engLog := t.engLog, sticky := t.sticky }
  sched : t.sched ⊆ s.sched
  flags : ∀ f, f ≠ .errDone → t.sticky.get f = s.sticky.get f
  quiet : (∀ m ∈ s.sched, m ≠ .dmaDone) → t.sticky = s.sticky

theorem StaysEnded.refl (s : State) : StaysEnded s s := ⟨rfl, List.Subset.refl _, fun _ _ => rfl, fun _ => rfl⟩

theorem StaysEnded.trans {s t u : State} (hst : StaysEnded s t) (htu : StaysEnded t u) : StaysEnded s u where
  frame := by rw [htu.frame, hst.frame]
  sched := List.Subset.trans htu.sched hst.sched
  flags := fun f hf => (htu.flags f hf).trans (hst.flags f hf)
  quiet := fun hn => (htu.quiet fun m hm => hn m (hst.sched hm)).trans (hst.quiet hn)

theorem StaysEnded.runEnded_eq {s t : State} (h : StaysEnded s t) : runEnded t = runEnded s := by
  rw [h.frame]
  rfl

/-- In an ended state the engine port and a spurious completion alone do anything. -/
theorem agentMove_of_runEnded {s t : State} {m : Move} (he : runEnded s = true) (h1 : m ≠ .resetAssert)
    (h2 : m ≠ .resetRelease) (h : agentMove s m = .next t) :
    t = { s with engQ := t.engQ, engLog := t.engLog } ∨ (m = .dmaDone ∧ t = s.raise .errDone) := by
  obtain ⟨hq, hp, hreq, hs⟩ := (runEnded_iff s).mp he
  rcases agentMove_cases h1 h2 h with rfl | ⟨rfl, _⟩ | ⟨_, e⟩ | ⟨_, _, e, _⟩ | ⟨_, e, _⟩ | ⟨_, e, _⟩ | ⟨_, e, _⟩ |
    ⟨hm, _, e⟩ | ⟨_, e, _⟩ | ⟨_, e, _⟩
  · exact .inl rfl
  · obtain rfl : s = t := Host.Outcome.next.inj ((hostMove_nil hq).symm.trans h)
    exact .inl rfl
  · exact .inl e
  · exact absurd (hreq.symm.trans e) (by decide)
  · exact absurd (hp.symm.trans e) (by decide)
  · exact absurd (hp.symm.trans e) (by decide)
  · exact absurd (hp.symm.trans e) (by decide)
  · exact .inr ⟨hm, e⟩
  · exact absurd (hs.symm.trans e) (by decide)
  · exact absurd (hs.symm.trans e) (by decide)

/-- The run has ended, and no reset is scheduled. -/
structure EndedForGood (s : State) : Prop where
  noReset : ∀ m ∈ s.sched, m ≠ .resetAssert
  ended : runEnded s = true

theorem EndedForGood.step {s t : State} (hs : EndedForGood s) (h : step s = .next t) : StaysEnded s t := by
  have hsched := (step_advances h).sched
  rcases step_kinds_of_no_reset hs.noReset h with e | ⟨m, rest, _, hm, h1, h2, ha⟩
  · rw [e] at hsched ⊢
    exact ⟨rfl, hsched, fun _ _ => rfl, fun _ => rfl⟩
  · rcases agentMove_of_runEnded (s := { s with sched := rest }) hs.ended h1 h2 ha with e | ⟨rfl, e⟩ <;> rw [e] at hsched ⊢
    · exact ⟨rfl, hsched, fun _ _ => rfl, fun _ => rfl⟩
    · refine ⟨rfl, hsched, fun f hf => ?_, fun hd => absurd rfl (hd _ (List.mem_of_mem_head? hm))⟩
      rw [State.raise_sticky, FlagSet.get_set, decide_eq_false hf, Bool.or_false]

theorem EndedForGood.stays {s t : State} (hs : EndedForGood s) (h : StaysEnded s t) : EndedForGood t :=
  ⟨fun m hm => hs.noReset m (h.sched hm), h.runEnded_eq.trans hs.ended⟩

/-- A transfer runs, and neither its completion nor a reset is scheduled. -/
structure NeverCompletes (s : State) : Prop where
  noReset : ∀ m ∈ s.sched, m ≠ .resetAssert
  noDone : ∀ m ∈ s.sched, m ≠ .dmaDone
  running : s.phase = .xfer

/-- Of the rows that leave XFER (O25), one is of a completion and one of a reset. -/
theorem NeverCompletes.step {s t : State} (hs : NeverCompletes s) (h : step s = .next t) : NeverCompletes t := by
  have hsched := (step_advances h).sched
  refine ⟨fun m hm => hs.noReset m (hsched hm), fun m hm => hs.noDone m (hsched hm), ?_⟩
  have hp := hs.running
  have done : s.sched.head? ≠ some .dmaDone := fun e => hs.noDone _ (List.mem_of_mem_head? e) rfl
  have reset : s.sched.head? ≠ some .resetAssert := fun e => hs.noReset _ (List.mem_of_mem_head? e) rfl
  by_contra hne
  rcases phaseTable s t h (by rwa [hp]) with ⟨e, _⟩ | ⟨e, _⟩ | ⟨_, _, _, hm⟩ | ⟨_, _, _, hm⟩ | ⟨e, _⟩ | ⟨_, hm⟩
  · exact absurd (hp.symm.trans e) (by decide)
  · exact absurd (hp.symm.trans e) (by decide)
  · exact done hm
  · exact done hm
  · exact absurd (hp.symm.trans e) (by decide)
  · exact reset hm

/-- Settles O59: both halves by induction on the run (`run_induction`): an ended run stays ended, and a transfer that never
completes keeps running. -/
theorem endOfARun : Obligations.EndOfARun := by
  refine ⟨runEnded_iff, fun n s t _ hn hrun => ⟨fun he => ?_, fun hp hd => ?_⟩⟩
  · have h := run_induction StaysEnded.refl (fun _ _ _ => .trans)
      (fun s t hs hstep => ⟨EndedForGood.stays hs (hs.step hstep), hs.step hstep⟩) ⟨hn, he⟩ hrun
    exact ⟨h.runEnded_eq.trans he, h.frame, h.flags, h.quiet⟩
  · have h := run_induction (R := fun s t => t.phase = s.phase) (fun _ => rfl) (fun _ _ _ hst htu => htu.trans hst)
      (fun s t hs hstep => ⟨NeverCompletes.step hs hstep, (hs.step hstep).running.trans hs.running.symm⟩) ⟨hn, hd, hp⟩ hrun
    have hx : t.phase = .xfer := h.trans hp
    exact ⟨hx, by simp [runEnded, quiescent, State.busy, hx]⟩

end Sys2Proof.Machine
end

section
/-! PROOF. Accesses of the two ports: what they select, when they hold for the copy, and what they are answered. -/

namespace Sys2Proof.Machine

/-! ### The hold of the copy (R174) -/

/-- Outside COPY nothing holds. -/
theorem holds_outside_copy {s : State} (hp : s.phase ≠ .copy) (x : Selected) : holds s x = false := by
  simp [holds, hp]

/-- In COPY what waits for it holds. -/
theorem holds_in_copy {s : State} (hp : s.phase = .copy) {x : Selected} (hx : x.waitsForCopy = true) : holds s x = true := by
  simp [holds, hp, hx]

/-- A register access waits for nothing. -/
theorem selectCsr_waitsForCopy (off : Nat) (op : BusOp) : (selectCsr off op).waitsForCopy = false := by
  cases op with
  | read => rfl
  | write v => by_cases h : off = 0 <;> simp [selectCsr, h, Selected.waitsForCopy]

/-! ### Accesses of the FB and DESC windows -/

/-- A sized host access that writes no descriptor selects the row of its window (R175, R176, R178). -/
theorem hostSelect_window {c : Config} (hl : c.legal = true) {a : Access} (hw : a.wellSized = true)
    (h : inFb c a.addr.toNat = true ∨ (inDesc c a.addr.toNat = true ∧ a.op = .read)) :
    (a.op = .read ∧ hostSelect c a = .fbRead a.addr.toNat) ∨
    (∃ v, a.op = .write v ∧ hostSelect c a = .fbWrite a.addr.toNat v) ∨
    (a.op = .read ∧ hostSelect c a = .descRead ((a.addr.toNat - c.descBase) / 4)) := by
  rcases h with hfb | ⟨hdesc, hread⟩
  · obtain ⟨hselRead, hselWrite⟩ := hostSelect_fb hl hfb hw
    cases hop : a.op with
    | read => exact .inl ⟨rfl, hselRead hop⟩
    | write v => exact .inr (.inl ⟨v, rfl, hselWrite v hop⟩)
  · exact .inr (.inr ⟨hread, (hostSelect_desc hl hdesc hw).1 hread⟩)

/-- Such an access waits for the copy. -/
theorem hostSelect_waitsForCopy {c : Config} (hl : c.legal = true) {a : Access} (hw : a.wellSized = true)
    (h : inFb c a.addr.toNat = true ∨ (inDesc c a.addr.toNat = true ∧ a.op = .read)) :
    (hostSelect c a).waitsForCopy = true := by
  rcases hostSelect_window hl hw h with ⟨_, e⟩ | ⟨_, _, e⟩ | ⟨_, e⟩ <;> rw [e] <;> rfl

/-- A read of a word of the FB or DESC window selects the same on both ports (R180). -/
theorem engineSelect_eq_hostSelect {c : Config} (hl : c.legal = true) {a : Access} (hw : a.wellSized = true)
    (hread : a.op = .read) (h : inFb c a.addr.toNat = true ∨ inDesc c a.addr.toNat = true) :
    engineSelect c a = hostSelect c a := by
  rcases h with hfb | hdesc
  · rw [engineSelect_fb hread hw hfb, (hostSelect_fb hl hfb hw).1 hread]
  · have hfb := ((windows_disjoint hl _).2.2 hdesc).2
    rw [engineSelect_desc hread hw hfb hdesc, (hostSelect_desc hl hdesc hw).1 hread]

/-- What a read of a plane word selects (R175). -/
theorem hostSelect_readPlane {c : Config} (hl : c.legal = true) {u : Buffer} {b j k : Nat} (hb : b < c.boards)
    (hj : j < c.slots) (hk : k < 8) : hostSelect c (readAt (fbAddr c u b j k)) = .fbRead (fbAddr c u b j k) := by
  obtain ⟨h4, hin, _, hlt⟩ := fbAddr_facts hl (u := u) hb hj hk
  have haddr := readAt_addr hlt
  rw [(hostSelect_fb hl (by rwa [haddr]) (readAt_wellSized hlt h4)).1 rfl, haddr]

/-- What a write of a plane word selects (R176). -/
theorem hostSelect_writePlane {c : Config} (hl : c.legal = true) {u : Buffer} {b j k : Nat} (v : Word) (hb : b < c.boards)
    (hj : j < c.slots) (hk : k < 8) : hostSelect c (writeAt (fbAddr c u b j k) v) = .fbWrite (fbAddr c u b j k) v := by
  obtain ⟨h4, hin, _, hlt⟩ := fbAddr_facts hl (u := u) hb hj hk
  have haddr := writeAt_addr v hlt
  rw [(hostSelect_fb hl (by rwa [haddr]) (writeAt_wellSized v hlt h4)).2 v rfl, haddr]

/-- What a host read of a descriptor word selects (R178). -/
theorem hostSelect_readDesc {c : Config} (hl : c.legal = true) {i : Nat} (hi : i ≤ c.slots) :
    hostSelect c (readAt (c.descBase + 4 * i)) = .descRead i := by
  obtain ⟨hlt, h4, hin⟩ := descAddr_facts hl hi
  have haddr := readAt_addr hlt
  rw [(hostSelect_desc hl (by rwa [haddr]) (readAt_wellSized hlt h4)).1 rfl, haddr,
    show (c.descBase + 4 * i - c.descBase) / 4 = i by omega]

/-- An engine read of a descriptor word selects it too (R180). -/
theorem engineSelect_readDesc {c : Config} (hl : c.legal = true) {i : Nat} (hi : i ≤ c.slots) :
    engineSelect c (readAt (c.descBase + 4 * i)) = .descRead i := by
  obtain ⟨hlt, h4, hin⟩ := descAddr_facts hl hi
  have hsame := engineSelect_eq_hostSelect hl (readAt_wellSized hlt h4) rfl (.inr (by rwa [readAt_addr hlt]))
  exact hsame.trans (hostSelect_readDesc hl hi)

/-- A host write of a descriptor word selects the error (R178). -/
theorem hostSelect_writeDesc {c : Config} (hl : c.legal = true) {i : Nat} (v : Word) (hi : i ≤ c.slots) :
    hostSelect c (writeAt (c.descBase + 4 * i) v) = .busError := by
  obtain ⟨hlt, h4, hin⟩ := descAddr_facts hl hi
  exact (hostSelect_desc hl (by rwa [writeAt_addr v hlt]) (writeAt_wellSized v hlt h4)).2 v rfl

/-! ### Errors of the engine port (R173, R181) -/

theorem engineSelect_write (c : Config) {a : Access} {v : Word} (hop : a.op = .write v) : engineSelect c a = .busError := by
  simp only [engineSelect, hop]

theorem engineSelect_badSize (c : Config) {a : Access} (hw : a.wellSized = false) : engineSelect c a = .busError := by
  cases hop : a.op with
  | read => simp [engineSelect, hop, hw]
  | write v => exact engineSelect_write c hop

theorem engineSelect_outside {c : Config} {a : Access} (hfb : inFb c a.addr.toNat = false)
    (hdesc : inDesc c a.addr.toNat = false) : engineSelect c a = .busError := by
  cases hop : a.op with
  | read => simp [engineSelect, hop, hfb, hdesc]
  | write v => exact engineSelect_write c hop

theorem wellSized_eq_false_iff (a : Access) : a.wellSized = false ↔ a.size ≠ 4 ∨ a.addr.toNat % 4 ≠ 0 := by
  rw [← Bool.not_eq_true, wellSized_iff, not_and_or]

/-! ### Steps of a port whose turn it is -/

section
variable {s : State} {a : Access} {rest : List Move} {q : List Access}

/-- In COPY a host access that waits for it holds. -/
theorem step_host_waits (h : HostTurn s a rest q) (hp : s.phase = .copy) {x : Selected} (hsel : hostSelect s.cfg a = x)
    (hx : x.waitsForCopy = true) : step s = .next { s with sched := rest } := by
  subst hsel
  exact step_host_holds h (holds_in_copy hp hx)

/-- In COPY an engine access that waits for it holds. -/
theorem step_engine_waits (h : EngineTurn s a rest q) (hp : s.phase = .copy) {x : Selected}
    (hsel : engineSelect s.cfg a = x) (hx : x.waitsForCopy = true) : step s = .next { s with sched := rest } := by
  subst hsel
  exact step_engine_holds h (holds_in_copy hp hx)

/-- A host read that does not hold is answered, and does nothing else. -/
theorem step_hostRead_answered (h : HostTurn s a rest q) (hread : a.op = .read) {x : Selected}
    (hsel : hostSelect s.cfg a = x) (hgo : holds s x = false) :
    step s = .next (s.hostAnswered rest q a (respond s x)) := by
  subst hsel
  obtain ⟨hserve, hcommand⟩ := hostSelect_read s.cfg hread (s.hostAnswered rest q a (respond s (hostSelect s.cfg a)))
  rw [step_host h hgo, performHost_eq_serve _ hcommand, hserve]

/-- The error response on the host port changes nothing, in any phase (R202). -/
theorem step_host_busError (h : HostTurn s a rest q) (hsel : hostSelect s.cfg a = .busError) :
    step s = .next (s.hostAnswered rest q a .busError) := by
  rw [step_host h (by rw [hsel]; exact holds_of_not_waits s rfl), hsel]
  rfl

/-- The error response on the engine port changes nothing, in any phase (R202). -/
theorem step_engine_busError (h : EngineTurn s a rest q) (hsel : engineSelect s.cfg a = .busError) :
    step s = .next (s.engineAnswered rest q a .busError) := by
  rw [step_engine h (by rw [hsel]; exact holds_of_not_waits s rfl), hsel]
  rfl

/-- An engine read of what does not hold is answered, and does nothing else. -/
theorem step_engine_answered (h : EngineTurn s a rest q) {x : Selected} (hsel : engineSelect s.cfg a = x)
    (hgo : holds s x = false) : step s = .next (s.engineAnswered rest q a (respond s x)) := by
  subst hsel
  exact step_engine h hgo

/-- A host access that does not hold leaves its queue, with its answer recorded. -/
theorem step_host_leaves_queue (h : HostTurn s a rest q) (hgo : holds s (hostSelect s.cfg a) = false) :
    ∃ t r, step s = .next t ∧ t.hostQ = q ∧ t.hostLog = (a, r) :: s.hostLog := by
  obtain ⟨t, ht⟩ := agentMove_next { s with sched := rest } .host
  have hstep : step s = .next t := (step_turn h.toTurn).trans ht
  obtain ⟨hqueue, hlog⟩ := performHost_ports ((step_host h hgo).symm.trans hstep)
  exact ⟨t, _, hstep, hqueue, hlog⟩

end

end Sys2Proof.Machine
end

section
/-! PROOF. The rules of the bus: registers, plane words, descriptors, holds and errors. -/

namespace Sys2Proof.Machine

/-! ### Registers -/

/-- PARAM is the word of its number (R42). -/
theorem paramWord_eq {c : Config} (hl : c.legal = true) :
    paramWord c = BitVec.ofNat 32 (c.numPixels + c.strips * 2 ^ 16 + c.boards * 2 ^ 24 + c.off * 2 ^ 31) := by
  have f := Config.facts hl
  have hboards := f.boards_le
  have hstrips := f.strips_off
  have hpixels := f.pixels_le
  have hoff := f.off_le
  refine BitVec.eq_of_toNat_eq ?_
  rw [paramWord_toNat (by omega) (by omega) (by omega) hoff, toNat_ofNat32 (by omega)]

/-- Settles O40: a register read never holds, and answers `readReg`. -/
theorem registerReads : Obligations.RegisterReads := by
  intro s rest q r h
  rw [step_hostRead_answered h rfl (hostSelect_regRead h.legal r) (holds_of_not_waits s rfl)]
  cases r with
  | param => rw [respond, readReg, paramWord_eq h.legal]
  | _ => rfl

/-- A register write changes DATA, the enables and the flags alone (R179). -/
theorem writeReg_frame (s : State) (v : Word) (r : Reg) :
    writeReg s v r =
      { s with data := (writeReg s v r).data, irqEn := (writeReg s v r).irqEn, sticky := (writeReg s v r).sticky } := by
  cases r <;> rfl

theorem writeReg_data (s : State) (v : Word) (r : Reg) : (writeReg s v r).data = if r = .data then v else s.data := by
  cases r <;> rfl

theorem writeReg_irqEn (s : State) (v : Word) (r : Reg) :
    (writeReg s v r).irqEn = if r = .irqEn then FlagSet.ofWord v else s.irqEn := by
  cases r <;> rfl

theorem writeReg_sticky (s : State) (v : Word) (r : Reg) :
    (writeReg s v r).sticky = if r = .status then s.sticky.without (FlagSet.ofWord v) else s.sticky := by
  cases r <;> rfl

/-- The flags' bits of a word (R41). -/
theorem getLsbD_flagMask : ∀ j < 32, (0x003F0000#32).getLsbD j =
    (decide (j = 16) || decide (j = 17) || decide (j = 18) || decide (j = 19) || decide (j = 20) || decide (j = 21)) := by
  decide

/-- The set of a word's flags is the word without its other bits (R41, R179). -/
theorem FlagSet.toWord_ofWord (v : Word) : (FlagSet.ofWord v).toWord = v &&& 0x003F0000#32 := by
  refine BitVec.eq_of_getLsbD_eq fun j hj => ?_
  have hplace (k : Nat) : (v.getLsbD k && decide (j = k)) = (v.getLsbD j && decide (j = k)) := by
    by_cases e : j = k
    · rw [e]
    · simp [e]
  simp only [FlagSet.getLsbD_toWord _ hj, FlagSet.ofWord, hplace, BitVec.getLsbD_and, getLsbD_flagMask j hj,
    Bool.and_or_distrib_left]

/-- Settles O41: a register write is `writeReg` on the state in which it has completed (`step_regWrite`). -/
theorem registerWrites : Obligations.RegisterWrites := by
  intro s rest q r v hr h
  refine ⟨_, step_regWrite hr h, writeReg_frame _ v r, writeReg_data _ v r, ?_, fun f => ?_⟩
  · rw [writeReg_irqEn, apply_ite FlagSet.toWord, FlagSet.toWord_ofWord]
    rfl
  · rw [writeReg_sticky]
    by_cases hstatus : r = .status
    · simp [hstatus, State.hostAnswered]
    · simp [hstatus, State.hostAnswered]

/-! ### Plane words -/

/-- Settles O48: the read of a plane word selects its word, which waits for the copy. -/
theorem frameStoreRead : Obligations.FrameStoreRead := by
  intro s rest q u b j k hb hj hk h
  have hsel := hostSelect_readPlane h.legal (u := u) hb hj hk
  exact ⟨fun hp => step_host_waits h hp hsel rfl, fun hp => step_hostRead_answered h rfl hsel (holds_outside_copy hp _)⟩

/-- A block that is not BUSY is not in COPY (R31). -/
theorem phase_ne_copy_of_not_busy {s : State} (h : s.busy = false) : s.phase ≠ .copy := by
  intro hp
  simp [State.busy, hp] at h

theorem fbWrite_busy {s : State} (a : Nat) (v : Word) (h : s.busy = true) : fbWrite s a v = s.raise .errBusy := if_pos h

theorem fbWrite_not_busy {s : State} (a : Nat) (v : Word) (h : s.busy = false) :
    fbWrite s a v = s.withFb (s.fb.writeWord a v) :=
  if_neg (by simp [h])

/-- Outside COPY a host write of a plane word completes, and does what `fbWrite` says (R176). -/
theorem step_writePlane {s : State} {rest : List Move} {q : List Access} {u : Buffer} {b j k : Nat} {v : Word}
    (hb : b < s.cfg.boards) (hj : j < s.cfg.slots) (hk : k < 8) (hp : s.phase ≠ .copy)
    (h : HostTurn s (writeAt (fbAddr s.cfg u b j k) v) rest q) :
    step s = .next (fbWrite (s.hostAnswered rest q (writeAt (fbAddr s.cfg u b j k) v) .done) (fbAddr s.cfg u b j k) v) := by
  rw [step_host h (holds_outside_copy hp _), hostSelect_writePlane h.legal v hb hj hk]
  rfl

/-- Settles O49: the hold, and the two cases of `fbWrite`; the bytes by `readByte_writeWord`. -/
theorem frameStoreWrite : Obligations.FrameStoreWrite := by
  intro s rest q u b j k v hb hj hk h
  refine ⟨fun hp => ?_, fun hp hbusy => ?_, fun hbusy => ?_⟩
  · exact step_host_waits h hp (hostSelect_writePlane h.legal v hb hj hk) rfl
  · rw [step_writePlane hb hj hk hp h, fbWrite_busy _ v (by exact hbusy)]
    rfl
  · have hstep := step_writePlane hb hj hk (phase_ne_copy_of_not_busy hbusy) h
    rw [fbWrite_not_busy _ v (by exact hbusy)] at hstep
    refine ⟨_, hstep, rfl, FrameStore.readWord_writeWord_same s.cfg s.fb _ v, fun a ha => ?_⟩
    exact (FrameStore.readByte_writeWord s.cfg s.fb _ a v).trans (if_neg (by omega))

/-! ### Descriptors -/

/-- The descriptor word with the address of its fragment written out (R62, R64, R135). -/
theorem descWord_eq (s : State) (i : Nat) :
    descWord s i = if i < s.cfg.slots then
      BitVec.ofNat 32 (s.cfg.fbBase + ((s.descBuf.val * s.cfg.boards + s.descBoard.toNat) * s.cfg.slots + i) * 32)
    else 0 := by
  have haddr : fragAddr s.cfg s.descBuf s.descBoard.toNat i =
      s.cfg.fbBase + ((s.descBuf.val * s.cfg.boards + s.descBoard.toNat) * s.cfg.slots + i) * 32 := by
    unfold fragAddr fbAddr
    omega
  rw [descWord, haddr]

/-- Settles O50: both ports select the descriptor, whose word is `descWord`, and the host's write selects the error. -/
theorem descriptorWindow : Obligations.DescriptorWindow := by
  intro s rest q i v hi
  rw [← descWord_eq]
  refine ⟨fun h => ?_, fun h => ?_, fun h => step_host_busError h (hostSelect_writeDesc h.legal v hi)⟩
  · have hsel := hostSelect_readDesc h.legal hi
    exact ⟨fun hp => step_host_waits h hp hsel rfl, fun hp => step_hostRead_answered h rfl hsel (holds_outside_copy hp _)⟩
  · have hsel := engineSelect_readDesc h.legal hi
    exact ⟨fun hp => step_engine_waits h hp hsel rfl, fun hp => step_engine_answered h hsel (holds_outside_copy hp _)⟩

/-! ### Holds -/

/-- Settles O51: accesses of the two windows wait for the copy on either port, register accesses do not, and the copy step leaves
COPY. -/
theorem accessesHoldDuringCopy : Obligations.AccessesHoldDuringCopy := by
  intro s a rest q hp hw
  refine ⟨fun hwin => ⟨fun h => ?_, fun h hread => ?_⟩, fun hcsr h => ?_, holds_outside_copy (by simp)⟩
  · exact step_host_waits h hp rfl (hostSelect_waitsForCopy h.legal hw hwin)
  · exact step_engine_waits h hp (engineSelect_eq_hostSelect h.legal hw hread (hwin.imp_right And.left))
      (hostSelect_waitsForCopy h.legal hw hwin)
  · refine step_host_leaves_queue h (holds_of_not_waits s ?_)
    rw [hostSelect_csr hcsr hw]
    exact selectCsr_waitsForCopy _ _

/-! ### Errors -/

/-- Settles O52: a badly sized access selects the error on either port. -/
theorem badSizeOrAlignmentIsBusError : Obligations.BadSizeOrAlignmentIsBusError := by
  intro s a rest q hbad
  have hw := (wellSized_eq_false_iff a).mpr hbad
  exact ⟨fun hwin h => step_host_busError h (hostSelect_badSize hwin hw),
    fun h => step_engine_busError h (engineSelect_badSize s.cfg hw)⟩

/-- Settles O53: each of the three selects the error. -/
theorem enginePortErrors : Obligations.EnginePortErrors := by
  intro s a rest q h hbad
  refine step_engine_busError h ?_
  rcases hbad with ⟨v, hop⟩ | ⟨hfb, hdesc⟩ | hsize
  · exact engineSelect_write s.cfg hop
  · exact engineSelect_outside hfb hdesc
  · exact engineSelect_badSize s.cfg ((wellSized_eq_false_iff a).mpr hsize)

/-! ### The two ports read alike -/

/-- A read of a word of the FB or DESC window is answered a word, which depends on neither the schedule nor the host's queue. -/
theorem respond_windowRead {s : State} (hl : s.cfg.legal = true) {a : Access} (hw : a.wellSized = true)
    (hread : a.op = .read) (h : inFb s.cfg a.addr.toNat = true ∨ inDesc s.cfg a.addr.toNat = true) :
    ∃ w, ∀ (sched : List Move) (hostQ : List Access),
      respond { s with sched := sched, hostQ := hostQ } (hostSelect s.cfg a) = .data w := by
  rcases hostSelect_window hl hw (h.imp_right fun hdesc => ⟨hdesc, hread⟩) with ⟨_, e⟩ | ⟨v, hop, _⟩ | ⟨_, e⟩
  · exact ⟨s.fb.readWord s.cfg a.addr.toNat, fun _ _ => by rw [e]; rfl⟩
  · simp [hread] at hop
  · exact ⟨descWord s ((a.addr.toNat - s.cfg.descBase) / 4), fun _ _ => by rw [e]; rfl⟩

/-- Settles O54: the ports select the same (`engineSelect_eq_hostSelect`), and its answer is of no port (`respond_windowRead`). -/
theorem engineReadsAsTheHost : Obligations.EngineReadsAsTheHost := by
  intro s n rest q h4 hlt hin h
  have hw := readAt_wellSized hlt h4
  rw [← readAt_addr hlt] at hin
  have hsel := engineSelect_eq_hostSelect h.legal hw rfl hin
  constructor
  · intro hp
    exact step_engine_waits h hp hsel (hostSelect_waitsForCopy h.legal hw (hin.imp_right fun hdesc => ⟨hdesc, rfl⟩))
  · intro hp
    obtain ⟨w, hword⟩ := respond_windowRead h.legal hw rfl hin
    refine ⟨w, ?_, fun restH qH => ?_⟩
    · rw [← hword s.sched s.hostQ]
      exact step_engine_answered h hsel (holds_outside_copy hp _)
    · have hturn : HostTurn { s with sched := .host :: restH, hostQ := readAt n :: qH } (readAt n) restH qH :=
        { legal := h.legal, released := h.released, next := rfl, access := rfl }
      rw [← hword (.host :: restH) (readAt n :: qH)]
      exact step_hostRead_answered hturn rfl rfl (holds_outside_copy hp _)

end Sys2Proof.Machine
end

section
/-! PROOF. What goes wrong and how it is told: every command completes and a refusal is one flag, no step of a legal block stops,
and the interrupt output follows the flags and their enables. -/

namespace Sys2Proof.Machine

/-! ### Commands -/

/-- Settles O7: of the cases of `exec_cases`, NOP changes nothing, SHOW takes the request slot, ENCODE writes the frame store, and
a refusal raises its one flag. -/
theorem commandFrame : Obligations.CommandFrame := by
  intro i s
  rcases exec_cases i s with ⟨rfl, e⟩ | ⟨rfl, _, e⟩ | ⟨rfl, _, e⟩ |
    ⟨b, st, p, rfl, ⟨_, e⟩ | ⟨_, _, e⟩ | ⟨hbusy, hb, hst, hp, _⟩⟩
  · exact ⟨s, e, rfl, (absurd rfl ·), (absurd rfl ·), .inl rfl⟩
  · exact ⟨_, e, rfl, (absurd rfl ·), fun _ => rfl, .inr ⟨rfl, rfl, .inr ⟨rfl, rfl⟩⟩⟩
  · exact ⟨_, e, rfl, (absurd rfl ·), fun _ => rfl, .inl rfl⟩
  · exact ⟨_, e, rfl, (absurd rfl ·), (absurd rfl ·), .inr ⟨rfl, rfl, .inl ⟨.inl rfl, b, st, p, rfl⟩⟩⟩
  · exact ⟨_, e, rfl, (absurd rfl ·), (absurd rfl ·), .inr ⟨rfl, rfl, .inl ⟨.inr rfl, b, st, p, rfl⟩⟩⟩
  · exact ⟨_, exec_encodePixel_accepted hbusy hb hst hp, rfl, fun _ => ⟨b, st, p, rfl⟩, (absurd rfl ·), .inl rfl⟩

/-! ### Steps -/

/-- Settles O37: a legal block's step answers a next state (`step_next`), of the same configuration (`step_advances`). -/
theorem stepNeverStops : Obligations.StepNeverStops := by
  intro s hl
  obtain ⟨t, ht⟩ := step_next hl
  exact ⟨t, ht, (step_advances ht).cfg⟩

/-! ### The interrupt output -/

/-- Bits 16 to 21 are the places of the flags (R39, R211). -/
theorem Flag.exists_pos_iff (i : Nat) : (∃ f : Flag, f.pos = i) ↔ 16 ≤ i ∧ i ≤ 21 := by
  constructor
  · rintro ⟨f, rfl⟩
    cases f <;> decide
  · rintro ⟨hlo, hhi⟩
    interval_cases i
    · exact ⟨.passDone, rfl⟩
    · exact ⟨.errCmd, rfl⟩
    · exact ⟨.errAddr, rfl⟩
    · exact ⟨.errBusy, rfl⟩
    · exact ⟨.showOvf, rfl⟩
    · exact ⟨.errDone, rfl⟩

/-- The bit of a flag's enable in IRQ_EN (R41, R177). -/
theorem getLsbD_irqEn_flag (s : State) (f : Flag) : (readReg s .irqEn).getLsbD f.pos = s.irqEn.get f :=
  FlagSet.getLsbD_toWord_pos s.irqEn f

/-- Settles O45: the output is up when the flags meet the enables (`FlagSet.meets_iff`), and a flag's place shows it in STATUS and
its enable in IRQ_EN. -/
theorem interruptLevel : Obligations.InterruptLevel := by
  refine ⟨fun s => (FlagSet.meets_iff s.sticky s.irqEn).trans ⟨?_, ?_⟩, fun _ _ => rfl⟩
  · rintro ⟨f, hflag, henable⟩
    obtain ⟨hlo, hhi⟩ := (Flag.exists_pos_iff f.pos).mp ⟨f, rfl⟩
    exact ⟨f.pos, hlo, hhi, by rw [getLsbD_statusWord_flag, hflag], by rw [getLsbD_irqEn_flag, henable]⟩
  · rintro ⟨i, hlo, hhi, hstatus, hirqEn⟩
    obtain ⟨f, rfl⟩ := (Flag.exists_pos_iff i).mpr ⟨hlo, hhi⟩
    rw [getLsbD_statusWord_flag] at hstatus
    rw [getLsbD_irqEn_flag] at hirqEn
    exact ⟨f, hstatus, hirqEn⟩

end Sys2Proof.Machine
end

section
/-! PROOF. Reset: what its assertion sets, whatever the block was doing, and that the other agents stand still until its release. -/

namespace Sys2Proof.Machine

/-! ### Moves at any level of rst_n -/

/-- The scheduled agent's move, whether or not reset is asserted (R6, R72). -/
theorem step_scheduled {s : State} {m : Move} {rest : List Move} (hl : s.cfg.legal = true) (hs : s.sched = m :: rest) :
    step s = takeMove { s with sched := rest } m := by
  have hpop : s.popSched = { s with sched := rest } := by rw [State.popSched, hs]; rfl
  rw [step, if_pos hl, scheduledStep, hs, ← hpop]

/-- The assertion of reset is enabled at either level of rst_n (R240, log 13). -/
theorem takeMove_resetAssert (s : State) : takeMove s .resetAssert = .next (resetBlock s) := by
  unfold takeMove
  split <;> rfl

/-- In reset an agent other than reset has no step enabled (R240, log 6). -/
theorem takeMove_in_reset {s : State} {m : Move} (hr : s.rstN = false) (h1 : m ≠ .resetAssert) (h2 : m ≠ .resetRelease) :
    takeMove s m = .next s := by
  unfold takeMove
  rw [if_neg (ne_true_of_eq_false hr)]
  cases m with
  | resetAssert => exact absurd rfl h1
  | resetRelease => exact absurd rfl h2
  | host | engine | dmaDone | sequencer | settleTimer | clock => rfl

/-- The release of reset changes the level alone (R240, log 13). -/
theorem takeMove_resetRelease (s : State) : takeMove s .resetRelease = .next { s with rstN := true } := by
  unfold takeMove
  split <;> rfl

/-! ### What the assertion sets -/

/-- A drawn frame store shows each buffer its own draw. -/
theorem FrameStore.drawn_src (epoch : Nat) (u : Buffer) : (FrameStore.drawn epoch).src u = u := by
  obtain rfl | rfl := buffer_zero_or_one u <;> rfl

/-- A byte of a drawn frame store is the draw of its buffer and offset (R22, R240). -/
theorem FrameStore.readByte_drawn (c : Config) (epoch : Nat) (u : Buffer) {o : Nat} (ho : o < c.bufSize) :
    (FrameStore.drawn epoch).readByte c (bufBase c u + o) = Config.frameDraw epoch u o := by
  have hin : inBuffer c u (bufBase c u + o) = true := (inBuffer_iff c u _).mpr ⟨by omega, by omega⟩
  calc (FrameStore.drawn epoch).readByte c (bufBase c u + o)
      = (FrameStore.drawn epoch).unlisted c (bufBase c u + o) := rfl
    _ = Config.frameDraw epoch u o := by
      rw [FrameStore.unlisted, bufferOf_eq hin, FrameStore.drawn_src, Nat.add_sub_cancel_left]
      rfl

/-- STATUS does not show the outside's items, so the assertion leaves it as it is right after reset (R39, R240). -/
theorem resetBlock_statusWord (s : State) : (resetBlock s).statusWord = 0x00000080#32 :=
  statusWord_reset s.cfg 0

/-- Settles O57: the step is `resetBlock`, STATUS is `resetBlock_statusWord`, no flag is left to raise the output, and the frame
store is drawn anew (`FrameStore.readByte_drawn`). -/
theorem resetSetsEveryItem : Obligations.ResetSetsEveryItem := by
  intro s rest hl hs
  refine ⟨resetBlock { s with sched := rest }, ?_, rfl, resetBlock_statusWord _, rfl, fun u o ho => ?_⟩
  · rw [step_scheduled hl hs, takeMove_resetAssert]
  · exact FrameStore.readByte_drawn s.cfg (s.fb.epoch + 1) u ho

/-! ### The stillness -/

/-- Settles O58: in reset every move but reset's own takes only itself off the schedule (`takeMove_in_reset`), and the release raises
the level. -/
theorem nothingMovesInReset : Obligations.NothingMovesInReset := by
  intro s m rest hl hr hs
  rw [step_scheduled hl hs]
  refine ⟨takeMove_in_reset hr, ?_⟩
  rintro rfl
  exact takeMove_resetRelease _

end Sys2Proof.Machine
end
